-- ==== Sys2Proof/Word.lean ====
section
/-! DEFINITION. The word types of SLC and the five-byte sequence that MARKER and the marker window are. -/

namespace Sys2Proof

/-- One byte: a channel sample, a payload byte, a location of memory (R60). -/
abbrev Byte := BitVec 8

/-- A register word, a command word or a bus address: 32 bits each (R7: REG_WIDTH, ADDR_W). -/
abbrev Word := BitVec 32

/-- Five bytes, `b0` first: MARKER (R6) and the marker detector's window `h.win[0..4]` (R49). -/
structure Bytes5 where
  b0 : Byte
  b1 : Byte
  b2 : Byte
  b3 : Byte
  b4 : Byte
  deriving DecidableEq, Repr, Inhabited

end Sys2Proof
end

