-- ==== Sys2Proof/Syntax.lean ====
section
/-! DEFINITION. The commands of SLC, its sixteen registers, what the outside world can put to the machine (host
transactions, accesses of other agents to memory, reset, and the turn of the codec), and the host script lines. -/

namespace Sys2Proof

/-- The commands: one constructor per row of spec/opcode_table.json (R91).  A command word has no operand field
and no immediate (R95), so no constructor has an argument. -/
inductive Instr where
  /-- NOP, opcode 0x00 (R121). -/
  | nop
  /-- CAP, opcode 0x01 (R143). -/
  | cap
  /-- EMBED, opcode 0x02 (R161). -/
  | embed
  /-- EXTRACT, opcode 0x03 (R191). -/
  | extract
  deriving DecidableEq, Repr

/-- The sixteen registers of the window (R21), in the order of their offsets. -/
inductive Reg where
  | id
  | cmd
  | status
  | width
  | height
  | pixBase
  | payBase
  | payLen
  | outBase
  | outLen
  | capBitsLo
  | capBitsHi
  | capBytes
  | capChars
  | markerLo
  | markerHi
  deriving DecidableEq, Repr

/-- One entry of the list that says which agent moves next and what it does.  Host steps and codec steps
interleave in any order (R110, R238), and reset can be asserted between any two of them (R260, R262). -/
inductive Input where
  /-- The codec is given one step (R116). -/
  | codec
  /-- The host reads `bytes` bytes at bus address REG_BASE + `off` (R97; R69 asks for 4 bytes, 4-aligned). -/
  | regRead (off : BitVec 6) (bytes : Nat)
  /-- The host writes `data` as `bytes` bytes at bus address REG_BASE + `off` (R97, R69). -/
  | regWrite (off : BitVec 6) (bytes : Nat) (data : Word)
  /-- The host or another agent reads the byte at `addr` (R110: "one access to memory outside SLC"). -/
  | memRead (addr : Word)
  /-- The host or another agent writes the byte at `addr` (R110). -/
  | memWrite (addr : Word) (data : Byte)
  /-- The reset input is asserted (R260). -/
  | reset
  deriving DecidableEq, Repr

/-- A line of a host script (R98) or a pseudo-instruction (R99).  WAIT polls STATUS until it reads BUSY = 0; the
spec does not fix how many polls that takes, so the number that saw BUSY = 1 is an argument. -/
inductive ScriptLine where
  /-- `WR <REG>, <value>` (R98). -/
  | wr (r : Reg) (v : Word)
  /-- `RD <REG>` (R98). -/
  | rd (r : Reg)
  /-- `CMD <MNEMONIC>` (R99). -/
  | cmd (i : Instr)
  /-- `WAIT` (R99), with `busyPolls` polls that see BUSY = 1 before the last one. -/
  | wait (busyPolls : Nat)
  /-- `RUN <MNEMONIC>` (R99): CMD, then WAIT. -/
  | run (i : Instr) (busyPolls : Nat)
  deriving DecidableEq, Repr

end Sys2Proof
end

