-- ==== Sys2Proof/WellFormed.lean ====
section
/-! DEFINITION. What a well-formed command and a well-formed host transaction are. -/

namespace Sys2Proof

/-- A command has no operand field and no immediate (R95), so the syntax can spell no ill-formed command: the
check holds of each constructor.  It stands here so that a command with an operand could not slip in unchecked. -/
def Instr.wf (i : Instr) : Bool :=
  match i with
  | .nop => true
  | .cap => true
  | .embed => true
  | .extract => true

/-- A register transaction is a 32-bit access (R69). -/
def accessIsWord (bytes : Nat) : Bool :=
  bytes == 4

/-- A register transaction is at an address that is a multiple of 4 (R69); REG_BASE is a multiple of 64. -/
def accessIsAligned (off : BitVec 6) : Bool :=
  off.toNat % 4 == 0

/-- An input that the spec gives a form (R69, R97): what is ill-formed is refused (R70). -/
def Input.wf (i : Input) : Bool :=
  match i with
  | .codec => true
  | .regRead off bytes => accessIsWord bytes && accessIsAligned off
  | .regWrite off bytes _ => accessIsWord bytes && accessIsAligned off
  | .memRead _ => true
  | .memWrite _ _ => true
  | .reset => true

end Sys2Proof
end

