-- ==== Sys2Proof/Decode.lean ====
section
/-! DEFINITION. The decoder of command words and of register offsets, total on every word and rejecting by name;
after it the encoders, written from the same tables (R90 to R94, R21). -/

namespace Sys2Proof

/-- Why a word is no command (R93). -/
inductive Illegal where
  /-- `CMD[31:8]` is nonzero. -/
  | reservedBits (rsv : BitVec 24)
  /-- `CMD[31:8]` is 0 and `CMD[7:0]` is one of 0x04 to 0xFF. -/
  | reservedOpcode (op : BitVec 8)
  deriving DecidableEq, Repr

/-- What decoding a word gives (R94). -/
inductive Decoded where
  | instr (i : Instr)
  | illegal (why : Illegal)
  deriving DecidableEq, Repr

/-- `CMD.OP = CMD[7:0]` (R25, R90). -/
def cmdOp (w : Word) : BitVec 8 :=
  w.extractLsb' 0 8

/-- `CMD.RSV = CMD[31:8]` (R25, R90). -/
def cmdRsv (w : Word) : BitVec 24 :=
  w.extractLsb' 8 24

/-- The opcode assignment (R91), read from the opcode. -/
def decodeOpcode (op : BitVec 8) : Decoded :=
  match op.toNat with
  | 0x00 => .instr .nop
  | 0x01 => .instr .cap
  | 0x02 => .instr .embed
  | 0x03 => .instr .extract
  | _ => .illegal (.reservedOpcode op)

/-- `decode` (R94): total on all 2^32 words, from the word alone (R92). -/
def decode (w : Word) : Decoded :=
  if cmdRsv w = 0 then decodeOpcode (cmdOp w) else .illegal (.reservedBits (cmdRsv w))

/-- The register that a host access of `bytes` bytes at offset `off` of the window names (R21), or none where the
access is not a whole 32-bit word at a multiple of 4 (R69, R70). -/
def decodeReg (off : BitVec 6) (bytes : Nat) : Option Reg :=
  if bytes = 4 then
    match off.toNat with
    | 0x00 => some .id
    | 0x04 => some .cmd
    | 0x08 => some .status
    | 0x0C => some .width
    | 0x10 => some .height
    | 0x14 => some .pixBase
    | 0x18 => some .payBase
    | 0x1C => some .payLen
    | 0x20 => some .outBase
    | 0x24 => some .outLen
    | 0x28 => some .capBitsLo
    | 0x2C => some .capBitsHi
    | 0x30 => some .capBytes
    | 0x34 => some .capChars
    | 0x38 => some .markerLo
    | 0x3C => some .markerHi
    | _ => none
  else none

/-- The instruction that the decoder reads from a row's word, numbered as spec/opcode_table.json numbers its bits.
A command is one 32-bit word and there is no other command length (R90). -/
def decodeTableWord (nbits w : Nat) : Option Instr :=
  if nbits ≤ 32 then
    match decode (BitVec.ofNat 32 (w % 2 ^ nbits)) with
    | .instr i => some i
    | .illegal _ => none
  else none

/-- The opcode assignment (R91), read from the mnemonic. -/
def opcode (i : Instr) : BitVec 8 :=
  match i with
  | .nop => 0x00
  | .cap => 0x01
  | .embed => 0x02
  | .extract => 0x03

/-- The command word `{RSV = 0, OP}` (R90, R92: `zext_32(OP)`). -/
def encode (i : Instr) : Word :=
  0#24 ++ opcode i

/-- The offset of a register (R21). -/
def regOffset (r : Reg) : BitVec 6 :=
  match r with
  | .id => 0x00
  | .cmd => 0x04
  | .status => 0x08
  | .width => 0x0C
  | .height => 0x10
  | .pixBase => 0x14
  | .payBase => 0x18
  | .payLen => 0x1C
  | .outBase => 0x20
  | .outLen => 0x24
  | .capBitsLo => 0x28
  | .capBitsHi => 0x2C
  | .capBytes => 0x30
  | .capChars => 0x34
  | .markerLo => 0x38
  | .markerHi => 0x3C

/-- The host transaction `(RD, off, _)` of a register (R97). -/
def rdReg (r : Reg) : Input :=
  .regRead (regOffset r) 4

/-- The host transaction `(WR, off, v)` of a register (R97). -/
def wrReg (r : Reg) (v : Word) : Input :=
  .regWrite (regOffset r) 4 v

end Sys2Proof
end

