-- ==== Sys2Proof/Config.lean ====
section
/-! DEFINITION. What the built hardware and its platform fix: the spec's open parameters MARKER, REG_BASE, the
admission of bus-master accesses and the locations that are not plain memory. -/

namespace Sys2Proof

/-- The two kinds of a bus access (R64: `admit(kind, a)`; R97: RD and WR). -/
inductive AccessKind where
  | read
  | write
  deriving DecidableEq, Repr

/-- The address range `[base, base + len)`, taken mod 2^32 (R61, R65). -/
structure Region where
  base : Word
  len : Nat
  deriving DecidableEq, Repr

/-- A range of addresses at which the platform does not admit a kind of bus-master access (R64). -/
structure Barred where
  kind : AccessKind
  region : Region
  deriving DecidableEq, Repr

/-- The open parameters of the spec.  They are no state of SLC (R53): no step changes them.  They stand in a
field of State as plain data because the spec gives the model MARKER "as an argument" (R6).  A predicate on the
2^32 addresses is a finite union of ranges, so `barred` and `notPlain` leave no platform out. -/
structure Config where
  /-- MARKER (R6): any five byte values. -/
  marker : Bytes5
  /-- Bits 31:6 of REG_BASE; bits 5:0 are 0, since REG_BASE is a multiple of 64 (R7, R20). -/
  regBlock : BitVec 26
  /-- Where `admit(kind, a)` is false (R64); an address in no range is admitted. -/
  barred : List Barred
  /-- The locations that are not plain memory, such as device registers (R72). -/
  notPlain : List Region
  deriving DecidableEq, Repr, Inhabited

/-- The parameters of the hardware that `State.reset` is the reset state of.  The spec leaves every one of them
open (R6: MARKER; R7: REG_BASE; R64: admit; R72: plain memory), so this constant has no body and nothing can be
proved of its value (assumption log 1). -/
opaque Config.build : Config

end Sys2Proof
end

