-- ==== Sys2Proof/Machine/State.lean ====
section
/-! DEFINITION. The state of the machine as plain data, its reset value, and the reasons a step can stop. -/

namespace Sys2Proof.Machine

/-- `h.phase` (R44). -/
inductive Phase where
  | idle
  | dispatch
  | embRun
  | extScan
  | extCopy
  deriving DecidableEq, Repr

/-- `STATUS.ERR`'s legal values (R28, R231); the values 4 to 7 are never produced. -/
inductive ErrCode where
  /-- 0 NONE: success. -/
  | none
  /-- 1 PAYLOAD_TOO_LARGE (R232). -/
  | payloadTooLarge
  /-- 2 NO_PAYLOAD_FOUND (R233). -/
  | noPayloadFound
  /-- 3 ILLEGAL_COMMAND (R234). -/
  | illegalCommand
  deriving DecidableEq, Repr

/-- The host-visible registers that hold something (R21).  ID, MARKER_LO and MARKER_HI are constants of the built
hardware (R24, R42), CMD holds nothing (R25), and STATUS.BUSY is `h.phase ≠ IDLE` (R26).  A field has exactly the
bits its register uses: the others read 0 (R23). -/
structure Regs where
  /-- WIDTH[15:0] (R31). -/
  width : BitVec 16
  /-- HEIGHT[15:0] (R32). -/
  height : BitVec 16
  /-- PIX_BASE (R33). -/
  pixBase : Word
  /-- PAY_BASE (R34). -/
  payBase : Word
  /-- PAY_LEN (R35). -/
  payLen : Word
  /-- OUT_BASE (R36). -/
  outBase : Word
  /-- STATUS.DONE (R27). -/
  done : Bool
  /-- STATUS.ERR (R28). -/
  err : ErrCode
  /-- STATUS.LAST_OP (R29). -/
  lastOp : BitVec 8
  /-- OUT_LEN (R37). -/
  outLen : Word
  /-- CAP_BITS_LO (R38). -/
  capBitsLo : Word
  /-- CAP_BITS_HI[1:0] (R39). -/
  capBitsHi : BitVec 2
  /-- CAP_BYTES[30:0] (R40). -/
  capBytes : BitVec 31
  /-- CAP_CHARS[27:0] (R41). -/
  capChars : BitVec 28
  deriving DecidableEq, Repr

/-- The hidden codec state (R43).  The counters are naturals: no rule lets one wrap (R56, R144), and that each
stays within the width the spec gives it is an invariant of the machine (`Sys2Proof.Inv`). -/
structure Hidden where
  /-- `h.phase` (R44). -/
  phase : Phase
  /-- `h.op`, the accepted command word (R45). -/
  op : Word
  /-- `h.k`, the channel counter, at least 35 bits (R44). -/
  k : Nat
  /-- `h.N`, the framed bit count of EMBED, 36 bits (R46). -/
  framedBits : Nat
  /-- `h.T`, the channel count of EXTRACT, 34 bits (R47). -/
  scanBits : Nat
  /-- `h.sr`, the byte shift register (R48). -/
  sr : Byte
  /-- `h.win[0..4]`, the marker window, oldest byte first (R49). -/
  win : Bytes5
  /-- `h.wcnt`, 0 to 5 (R49). -/
  wcnt : Nat
  /-- `h.found` (R50). -/
  found : Bool
  /-- `h.idx`, 32 bits (R50). -/
  idx : Nat
  /-- `h.nbytes`, 31 bits (R51). -/
  nbytes : Nat
  deriving DecidableEq, Repr

/-- The memory shared by host and codec (R60): (address, byte) pairs with strictly rising addresses and no entry
equal to what an unlisted address reads as (`Memory.wf`). -/
abbrev Memory := List Host.Cell

/-- A region that a command owns (R74), and whether the command writes it (R81). -/
structure Owned where
  region : Region
  written : Bool
  deriving DecidableEq, Repr

/-- Why the machine stops. -/
inductive Fault where
  /-- Raised by a codec step in EMB_RUN, EXT_SCAN or EXT_COPY one of whose accesses is not admitted: the codec "is
  stuck in that phase" and the step "has no successor" (R64, R116).  Safe: nothing is claimed beyond it. -/
  | stuck (kind : AccessKind) (addr : Word)
  deriving DecidableEq, Repr

/-- Why the machine has no meaning for what it is asked. -/
inductive Refusal where
  /-- Raised by an arm of exec whose instruction has no meaning yet.  Safe.  No arm of this model does. -/
  | notModelled (mnemonic : String)
  /-- Raised by a host access to the register window that is not a 4-aligned 32-bit access (R70).  Safe. -/
  | registerAccess
  /-- Raised by the DISPATCH step of EMBED or EXTRACT when `4*w*h > 2^32` (R75).  Safe. -/
  | pixelRegionTooLong
  /-- Raised by the DISPATCH step of EMBED or EXTRACT when its owned regions overlap (R75).  Safe. -/
  | regionsOverlap
  /-- Raised when a region meets SLC's register window (R73): by the DISPATCH step of EMBED or EXTRACT, and, for the
  bytes that EXTRACT is about to write, by the last step of its scan.  Safe. -/
  | regionInRegisterWindow
  /-- Raised when a region holds a location that is not plain memory (R72): by the same steps.  Safe. -/
  | regionNotPlainMemory
  /-- Raised by an access of the host or another agent to a region that a command owns (R81).  Safe. -/
  | race
  /-- Raised by an access of the host or another agent to a location that is not plain memory: the spec does not
  say what such a device does.  Safe. -/
  | notPlainMemory
  deriving DecidableEq, Repr

/-- The machine.  `cfg` is fixed for the machine (R53).  `reg` and `h` are SLC's own state (R21, R43).  `mem` is
shared with the host (R60).  `inputs`, `cycle`, `owned` and `rdData` are the model's own: what the outside does next, which
regions are owned (R74), and what the host's last read returned. -/
structure State where
  /-- The open parameters (R6, R7, R64, R72). -/
  cfg : Config
  /-- The host-visible registers, written `reg.F` in the rules (R11). -/
  reg : Regs
  /-- The hidden codec state, written `h.x` in the rules (R11, R43). -/
  h : Hidden
  /-- The memory (R60). -/
  mem : Memory
  /-- What host, other agents, codec and reset do next, first entry first (R110, R238). -/
  inputs : List Input
  /-- What is repeated for ever once `inputs` is exhausted; when it is empty the codec takes every further step
  (R110, R274). -/
  cycle : List Input
  /-- The regions owned by commands whose completion the host has not observed (R74). -/
  owned : List Owned
  /-- The value returned by the last host read (R97: `data` of an RD), if any. -/
  rdData : Option Word
  deriving DecidableEq, Repr

/-- What one step answers. -/
abbrev Result := Host.Outcome State Fault Refusal

/-- Every register at its reset value (R55): 0. -/
def Regs.reset : Regs :=
  { width := 0, height := 0, pixBase := 0, payBase := 0, payLen := 0, outBase := 0
    done := false, err := .none, lastOp := 0, outLen := 0
    capBitsLo := 0, capBitsHi := 0, capBytes := 0, capChars := 0 }

/-- Every hidden field at its reset value (R55): IDLE, and 0. -/
def Hidden.reset : Hidden :=
  { phase := .idle, op := 0, k := 0, framedBits := 0, scanBits := 0, sr := 0
    win := { b0 := 0, b1 := 0, b2 := 0, b3 := 0, b4 := 0 }
    wcnt := 0, found := false, idx := 0, nbytes := 0 }

/-- Power-on (R261) of hardware built with the parameters `cfg`: SLC's state as R55 gives it, nothing listed in
memory, nothing pending from outside, nothing owned, nothing read yet. -/
def State.powerOn (cfg : Config) : State :=
  { cfg := cfg, reg := Regs.reset, h := Hidden.reset
    mem := [], inputs := [], cycle := [], owned := [], rdData := none }

/-- The machine right after reset (R55, R260, R263). -/
def State.reset : State :=
  State.powerOn Config.build

end Sys2Proof.Machine
end

