-- ==== Sys2Proof/Machine/Ops.lean ====
section
/-! DEFINITION. The shared operations: memory, address ranges, admission, the bit helpers of the serializer and the
deserializer, five-byte sequences, and `complete`, which is what stands for taking an exception. -/

namespace Sys2Proof
namespace Machine

/-! ## Memory (R60) -/

/-- The number of byte locations (R60). -/
def memorySize : Nat := 2 ^ 32

/-- What an unlisted address reads as.  The spec gives memory no contents at power-on and reset does not change it
(R260); DESIGN CHOICE 0x00, unsafe (assumption log 2). -/
def Memory.blank : Byte := 0x00

/-- The byte at address `a`. -/
def Memory.read : Memory → Nat → Byte
  | [], _ => Memory.blank
  | (b, x) :: m, a => if b = a then x else Memory.read m a

/-- Memory with `v` at address `a`, in canonical form again. -/
def Memory.write : Memory → Nat → Byte → Memory
  | [], a, v => if v = Memory.blank then [] else [(a, v)]
  | (b, x) :: m, a, v =>
    if a < b then
      if v = Memory.blank then (b, x) :: m else (a, v) :: (b, x) :: m
    else if a = b then
      if v = Memory.blank then m else (a, v) :: m
    else (b, x) :: Memory.write m a v

/-- The canonical form from address `lo` on: addresses strictly rising and below 2^32, no blank byte listed. -/
def Memory.wfFrom (lo : Nat) : Memory → Bool
  | [] => true
  | (a, v) :: m => decide (lo ≤ a) && decide (a < memorySize) && decide (v ≠ Memory.blank) && Memory.wfFrom (a + 1) m

/-- The canonical form of memory. -/
def Memory.wf (m : Memory) : Bool :=
  Memory.wfFrom 0 m

/-- `MemRead(a, 1)` (R11, R63). -/
def memRead (m : Memory) (a : Word) : Byte :=
  Memory.read m a.toNat

/-- `MemWrite(a, 1, v)` (R11, R63). -/
def memWrite (m : Memory) (a : Word) (v : Byte) : Memory :=
  Memory.write m a.toNat v

/-! ## Address ranges (R61, R65) -/

end Machine

/-- Whether `a` lies in `[base, base + len)` taken mod 2^32. -/
def Region.contains (r : Region) (a : Word) : Bool :=
  decide ((a - r.base).toNat < r.len)

/-- Whether two ranges share no address: one of them is empty, or neither holds the other's first address. -/
def Region.disjoint (r q : Region) : Bool :=
  r.len == 0 || q.len == 0 || (!r.contains q.base && !q.contains r.base)

namespace Machine

/-- REG_BASE (R7, R20): a multiple of 64. -/
def regBase (cfg : Config) : Word :=
  cfg.regBlock ++ 0#6

/-- SLC's register window `[REG_BASE, REG_BASE + 64)` (R20, R60). -/
def registerWindow (cfg : Config) : Region :=
  { base := regBase cfg, len := 64 }

/-! ## Admission (R64) -/

/-- One bus-master access of one byte (R63). -/
structure Access where
  kind : AccessKind
  addr : Word
  deriving DecidableEq, Repr

/-- `admit(kind, a)` (R64). -/
def admits (cfg : Config) (acc : Access) : Bool :=
  !cfg.barred.any fun b => decide (b.kind = acc.kind) && b.region.contains acc.addr

/-- The first access of a codec step that is not admitted, if any (R64, R116). -/
def firstNotAdmitted (cfg : Config) (accs : List Access) : Option Access :=
  accs.find? fun acc => !admits cfg acc

/-- A codec step with the accesses `accs` and the effect `r`: it happens as a whole, or, where one access is not
admitted, not at all, and the codec is stuck (R64, R116). -/
def atomicStep (cfg : Config) (accs : List Access) (r : Result) : Result :=
  match firstNotAdmitted cfg accs with
  | some acc => .fault (.stuck acc.kind acc.addr)
  | none => r

/-! ## Bits (R13, R67) -/

/-- Bit `7 - (k mod 8)` of `b`, as bit 0 of a byte: the `k`-th bit taken from a byte stream whose current byte is
`b`, most significant bit first (R13, R165). -/
def msbFirstBit (b : Byte) (k : Nat) : Byte :=
  (b >>> (7 - k % 8)) &&& 0x01

/-- A channel sample with its least significant bit replaced: `(v & 0xFE) | bit` (R165). -/
def withLsb (v bit : Byte) : Byte :=
  (v &&& 0xFE) ||| bit

/-- The least significant bit of a channel sample, as bit 0 of a byte: `v[0]` (R192). -/
def lsb (v : Byte) : Byte :=
  v &&& 0x01

/-- `((sr << 1) | v[0]) [7:0]` (R194, R202). -/
def shiftInLsb (sr v : Byte) : Byte :=
  (sr <<< 1) ||| lsb v

/-! ## Five-byte sequences (R6, R49) -/

end Machine

/-- Byte `j` of the sequence.  No rule asks for a byte past the fifth. -/
def Bytes5.get (m : Bytes5) (j : Nat) : Byte :=
  match j with
  | 0 => m.b0
  | 1 => m.b1
  | 2 => m.b2
  | 3 => m.b3
  | _ => m.b4

/-- The sequence with byte `j` replaced.  No rule replaces a byte past the fifth. -/
def Bytes5.put (m : Bytes5) (j : Nat) (b : Byte) : Bytes5 :=
  match j with
  | 0 => { m with b0 := b }
  | 1 => { m with b1 := b }
  | 2 => { m with b2 := b }
  | 3 => { m with b3 := b }
  | 4 => { m with b4 := b }
  | _ => m

/-- The window after its oldest byte is dropped and `b` enters (R196). -/
def Bytes5.push (m : Bytes5) (b : Byte) : Bytes5 :=
  { b0 := m.b1, b1 := m.b2, b2 := m.b3, b3 := m.b4, b4 := b }

/-- The five bytes in order. -/
def Bytes5.toList (m : Bytes5) : List Byte :=
  [m.b0, m.b1, m.b2, m.b3, m.b4]

namespace Machine

/-! ## The end of a command (R117, R239) -/

/-- `complete(e)` (R117).  SLC has no trap entry and no return from one; this is the nearest equivalent (R239), and
the acceptance of the next command is what clears it (R240, `acceptCommand`). -/
def complete (e : ErrCode) (s : State) : State :=
  { s with reg.err := e, reg.done := true, h.phase := .idle }

end Machine
end Sys2Proof
end

