-- ==== Sys2Proof/Machine/Operands.lean ====
section
/-! DEFINITION. The operands of the commands: the image dimensions, the addresses a command forms, and the memory
regions it reaches, owns and must keep apart. -/

namespace Sys2Proof.Machine

/-- `w = zext(WIDTH[15:0])` (R96). -/
def imageWidth (s : State) : Nat :=
  s.reg.width.toNat

/-- `h = zext(HEIGHT[15:0])` (R96). -/
def imageHeight (s : State) : Nat :=
  s.reg.height.toNat

/-- The offset in the pixel buffer of the channel that holds bitstream bit `k`: channel `k mod 3` of pixel
`k div 3` (R12). -/
def chanIndex (k : Nat) : Nat :=
  4 * (k / 3) + k % 3

/-- `chanAddr(k) = (PIX_BASE + 4*(k div 3) + (k mod 3)) mod 2^32` (R12, R65). -/
def chanAddr (r : Regs) (k : Nat) : Word :=
  r.pixBase + BitVec.ofNat 32 (chanIndex k)

/-- The address of payload byte `j`: `PAY_BASE + j` mod 2^32 (R65, R164). -/
def payAddr (r : Regs) (j : Nat) : Word :=
  r.payBase + BitVec.ofNat 32 j

/-- The address of output byte `j`: `OUT_BASE + j` mod 2^32 (R65, R202). -/
def outAddr (r : Regs) (j : Nat) : Word :=
  r.outBase + BitVec.ofNat 32 j

/-- `PIXR = [PIX_BASE, PIX_BASE + 4*w*h)` (R61). -/
def pixRegion (r : Regs) : Region :=
  { base := r.pixBase, len := 4 * (r.width.toNat * r.height.toNat) }

/-- `PAYR = [PAY_BASE, PAY_BASE + PAY_LEN)` (R61). -/
def payRegion (r : Regs) : Region :=
  { base := r.payBase, len := r.payLen.toNat }

/-- `OUTR` bounded by `OUT_BASE + max(0, capBytes - 5)` (R74). -/
def outRegion (r : Regs) : Region :=
  { base := r.outBase, len := 3 * (r.width.toNat * r.height.toNat) / 8 - 5 }

/-- The regions a command owns, from its acceptance on (R74). -/
def commandRegions (i : Instr) (r : Regs) : List Owned :=
  match i with
  | .nop => []
  | .cap => []
  | .embed => [{ region := pixRegion r, written := true }, { region := payRegion r, written := false }]
  | .extract => [{ region := pixRegion r, written := false }, { region := outRegion r, written := true }]

/-- The regions that the command word `v` owns once accepted: none for an illegal word (R74, R120). -/
def wordRegions (v : Word) (r : Regs) : List Owned :=
  match decode v with
  | .instr i => commandRegions i r
  | .illegal _ => []

/-- Whether no nonempty region of a command meets any range of `avoid`. -/
def clearOf (regions avoid : List Region) : Bool :=
  (regions.filter fun r => r.len != 0).all fun r => avoid.all fun q => r.disjoint q

/-- Why a command that reaches the regions `reached` is refused, if it is: one of them meets the register window
(R73), or holds a location that is not plain memory (R72). -/
def reachProblem (cfg : Config) (reached : List Region) : Option Refusal :=
  if !clearOf reached [registerWindow cfg] then some .regionInRegisterWindow
  else if !clearOf reached cfg.notPlain then some .regionNotPlainMemory
  else none

/-- Why a command whose owned regions are the pixel region and `other` is refused, if it is: the pixel region overlaps
itself, or the two overlap (R75). -/
def overlapProblem (pix other : Region) : Option Refusal :=
  if pix.len > memorySize then some .pixelRegionTooLong
  else if !pix.disjoint other then some .regionsOverlap
  else none

/-- Why EMBED's regions are refused, if they are (R72, R73, R75). -/
def embedProblem (cfg : Config) (r : Regs) : Option Refusal :=
  match overlapProblem (pixRegion r) (payRegion r) with
  | some p => some p
  | none => reachProblem cfg [pixRegion r, payRegion r]

/-- Why EXTRACT's regions are refused before its scan, if they are: its owned regions overlap (R75), or the pixel
region breaks R72 or R73.  The bytes it will write are not known yet (R74). -/
def extractProblem (cfg : Config) (r : Regs) : Option Refusal :=
  match overlapProblem (pixRegion r) (outRegion r) with
  | some p => some p
  | none => reachProblem cfg [pixRegion r]

/-- `OUTR = [OUT_BASE, OUT_BASE + i)`, the bytes that EXTRACT writes (R61). -/
def writtenRegion (r : Regs) (i : Nat) : Region :=
  { base := r.outBase, len := i }

/-- Why EXTRACT's output of `i` bytes is refused, if it is (R72, R73). -/
def outputProblem (cfg : Config) (r : Regs) (i : Nat) : Option Refusal :=
  reachProblem cfg [writtenRegion r i]

end Sys2Proof.Machine
end

