-- ==== Sys2Proof/Machine/Flags.lean ====
section
/-! DEFINITION. STATUS: its flags as software reads them (R26 to R30), and what the acceptance of a command does to
them (R115). -/

namespace Sys2Proof.Machine

/-- `STATUS.BUSY`: 1 exactly when `h.phase ≠ IDLE` (R26). -/
def busy (s : State) : Bool :=
  decide (s.h.phase ≠ .idle)

/-- The three bits of `STATUS.ERR` (R28, R231). -/
def errBits (e : ErrCode) : BitVec 3 :=
  match e with
  | .none => 0
  | .payloadTooLarge => 1
  | .noPayloadFound => 2
  | .illegalCommand => 3

/-- STATUS as a whole: `{16'b0, LAST_OP[7:0], 1'b0, ERR[2:0], 2'b00, DONE, BUSY}` (R30). -/
def statusWord (s : State) : Word :=
  0#16 ++ s.reg.lastOp ++ 0#1 ++ errBits s.reg.err ++ 0#2 ++ BitVec.ofBool s.reg.done ++ BitVec.ofBool (busy s)

/-- Command acceptance (R115): the word enters `h.op`, LAST_OP takes its opcode, DONE and ERR are cleared, and the
codec goes to DISPATCH.  From here on the command's regions are owned (R74). -/
def acceptCommand (v : Word) (s : State) : State :=
  { s with
    h.op := v
    reg.lastOp := cmdOp v
    reg.done := false
    reg.err := .none
    h.phase := .dispatch
    owned := wordRegions v s.reg ++ s.owned }

end Sys2Proof.Machine
end

