-- ==== Sys2Proof/Machine/Capacity.lean ====
section
/-! DEFINITION. The capacity calculator and the meaning of CAP (spec/41_capacity.md). -/

namespace Sys2Proof.Machine

/-- `capBits(w, h) = 3*w*h` (R140). -/
def capBits (w h : Nat) : Nat :=
  3 * w * h

/-- `capBytes(w, h) = (3*w*h) div 8` (R140). -/
def capBytes (w h : Nat) : Nat :=
  capBits w h / 8

/-- `capChars(w, h) = capBytes(w, h) div 8` (R140). -/
def capChars (w h : Nat) : Nat :=
  capBytes w h / 8

/-- `capBits` of the dimensions in WIDTH and HEIGHT (R18, R142). -/
def imageCapBits (s : State) : Nat :=
  capBits (imageWidth s) (imageHeight s)

/-- `latchCap()` (R142): bits 31:0 and 33:32 of `capBits`, then `capBytes` and `capChars`. -/
def latchCap (s : State) : State :=
  { s with
    reg.capBitsLo := BitVec.ofNat 32 (imageCapBits s)
    reg.capBitsHi := BitVec.ofNat 2 (imageCapBits s / 2 ^ 32)
    reg.capBytes := BitVec.ofNat 31 (imageCapBits s / 8)
    reg.capChars := BitVec.ofNat 28 (imageCapBits s / 8 / 8) }

/-- CAP's DISPATCH step (R143). -/
def execCap (s : State) : Result :=
  .next (complete .none (latchCap s))

end Sys2Proof.Machine
end

