-- ==== Sys2Proof/Machine/Control.lean ====
section
/-! DEFINITION. The meaning of NOP and of an illegal command word (spec/40_command_interface.md section 3). -/

namespace Sys2Proof.Machine

/-- NOP's DISPATCH step (R121). -/
def execNop (s : State) : Result :=
  .next (complete .none s)

/-- The DISPATCH step of a word that `decode` rejects (R120, R234). -/
def illegalCommand (s : State) : Result :=
  .next (complete .illegalCommand s)

end Sys2Proof.Machine
end

