-- ==== Sys2Proof/Machine/Embed.lean ====
section
/-! DEFINITION. The meaning of EMBED: its DISPATCH step, and the EMB_RUN step of framer, serializer and bit writer
(spec/42_embed.md). -/

namespace Sys2Proof.Machine

/-- The framed bit count `8*(PAY_LEN + 5)`, exact (R162, R163, R172). -/
def framedBitCount (r : Regs) : Nat :=
  8 * (r.payLen.toNat + 5)

/-- EMBED run initialisation (R163). -/
def startEmbed (s : State) : State :=
  { s with h.framedBits := framedBitCount s.reg, h.k := 0, h.sr := 0, h.phase := .embRun }

/-- EMBED's DISPATCH step (R162).  The capacity check comes before any memory access, so it also comes before the
refusals of R72, R73 and R75, which are about memory the command would reach (R172; assumption log 5). -/
def execEmbed (s : State) : Result :=
  if framedBitCount s.reg > imageCapBits s then .next (complete .payloadTooLarge (latchCap s))
  else
    match embedProblem s.cfg s.reg with
    | some r => .refused r
    | none => .next (startEmbed (latchCap s))

/-- Whether the framer reads a payload byte in this EMB_RUN step (R164). -/
def loadsPayload (s : State) : Bool :=
  decide (s.h.k % 8 = 0) && decide (s.h.k / 8 < s.reg.payLen.toNat)

/-- `h.sr` after the framer (R164): at a byte boundary framed byte `j = h.k div 8`, which is a payload byte from
memory or a marker byte from the hardware constant; between byte boundaries, unchanged. -/
def framerByte (s : State) : Byte :=
  if s.h.k % 8 = 0 then
    if s.h.k / 8 < s.reg.payLen.toNat then memRead s.mem (payAddr s.reg (s.h.k / 8))
    else s.cfg.marker.get (s.h.k / 8 - s.reg.payLen.toNat)
  else s.h.sr

/-- The accesses of an EMB_RUN step, in order (R76, R164, R165). -/
def embedAccesses (s : State) : List Access :=
  (if loadsPayload s then [{ kind := .read, addr := payAddr s.reg (s.h.k / 8) }] else []) ++
    [{ kind := .read, addr := chanAddr s.reg s.h.k }, { kind := .write, addr := chanAddr s.reg s.h.k }]

/-- The serializer and bit writer (R165): channel `h.k` with its least significant bit replaced by the next bit of
the framed byte. -/
def writeChannel (s : State) : State :=
  let sr := framerByte s
  let a := chanAddr s.reg s.h.k
  { s with
    h.sr := sr
    mem := memWrite s.mem a (withLsb (memRead s.mem a) (msbFirstBit sr s.h.k)) }

/-- `h.k <- h.k + 1` (R166). -/
def countChannel (s : State) : State :=
  { s with h.k := s.h.k + 1 }

/-- Advance and completion of an EMB_RUN step (R166). -/
def advanceEmbed (s : State) : State :=
  if (countChannel s).h.k = s.h.framedBits then complete .none (countChannel s) else countChannel s

/-- One EMB_RUN step (R164 to R166). -/
def embedStep (s : State) : Result :=
  atomicStep s.cfg (embedAccesses s) (.next (advanceEmbed (writeChannel s)))

end Sys2Proof.Machine
end

