-- ==== Sys2Proof/Machine/Extract.lean ====
section
/-! DEFINITION. The meaning of EXTRACT: its DISPATCH step, the EXT_SCAN step of bit reader, deserializer and marker
detector, and the EXT_COPY step (spec/43_extract.md). -/

namespace Sys2Proof.Machine

/-- The first part of EXTRACT's DISPATCH step (R193): capacity latched, OUT_LEN and the scan's state cleared. -/
def initExtract (s : State) : State :=
  { latchCap s with
    reg.outLen := 0
    h.scanBits := imageCapBits s
    h.k := 0
    h.sr := 0
    h.nbytes := 0
    h.win := { b0 := 0, b1 := 0, b2 := 0, b3 := 0, b4 := 0 }
    h.wcnt := 0
    h.found := false
    h.idx := 0 }

/-- The end of a DISPATCH step that starts the scan (R193). -/
def startScan (s : State) : State :=
  { initExtract s with h.phase := .extScan }

/-- EXTRACT's DISPATCH step (R193); a command whose owned regions break R75, or whose pixel region breaks R72 or R73,
is refused (assumption log 5). -/
def execExtract (s : State) : Result :=
  if imageCapBits s = 0 then .next (complete .noPayloadFound (initExtract s))
  else
    match extractProblem s.cfg s.reg with
    | some r => .refused r
    | none => .next (startScan s)

/-- The bit reader and deserializer of EXT_SCAN and EXT_COPY (R192, R194, R202): the least significant bit of
channel `h.k` enters `h.sr`, and `h.k` advances. -/
def readBit (s : State) : State :=
  { s with h.sr := shiftInLsb s.h.sr (memRead s.mem (chanAddr s.reg s.h.k)), h.k := s.h.k + 1 }

/-- The byte `b` enters the marker window (R196). -/
def enterWindow (b : Byte) (s : State) : State :=
  if s.h.wcnt = 5 then { s with h.win := s.h.win.push b }
  else { s with h.win := s.h.win.put s.h.wcnt b, h.wcnt := s.h.wcnt + 1 }

/-- The window's comparison with MARKER, and the latch of the first match (R196). -/
def latchMatch (s : State) : State :=
  if s.h.wcnt = 5 ∧ s.h.win = s.cfg.marker then
    { s with h.found := true, h.idx := s.h.nbytes - 5 }
  else s

/-- The marker detector on a completed byte (R196). -/
def detectMarker (b : Byte) (s : State) : State :=
  latchMatch (enterWindow b s)

/-- `h.nbytes <- h.nbytes + 1` (R195). -/
def countByte (s : State) : State :=
  { s with h.nbytes := s.h.nbytes + 1 }

/-- Byte completion (R195), after `h.k` has advanced. -/
def completeByte (s : State) : State :=
  if s.h.k % 8 = 0 then
    if s.h.found then countByte s else detectMarker s.h.sr (countByte s)
  else s

/-- `reg.OUT_LEN <- n` (R200, R203). -/
def setOutLen (n : Nat) (s : State) : State :=
  { s with reg.outLen := BitVec.ofNat 32 n }

/-- `h.k <- 0; h.sr <- 0; h.phase <- EXT_COPY` (R201). -/
def startCopy (s : State) : State :=
  { s with h.k := 0, h.sr := 0, h.phase := .extCopy }

/-- The end of the scan (R199 to R201), in the EXT_SCAN step where `h.k` becomes `h.T`.  Here the bytes that EXTRACT
will write are known, and a command that would write them to what R72 or R73 forbids is refused (assumption log 5). -/
def endScan (s : State) : Result :=
  if s.h.k = s.h.scanBits then
    if s.h.found then
      if s.h.idx = 0 then .next (complete .none (setOutLen 0 s))
      else
        match outputProblem s.cfg s.reg s.h.idx with
        | some r => .refused r
        | none => .next (startCopy s)
    else .next (complete .noPayloadFound s)
  else .next s

/-- One EXT_SCAN step (R194 to R201): one channel read. -/
def scanStep (s : State) : Result :=
  atomicStep s.cfg [{ kind := .read, addr := chanAddr s.reg s.h.k }] (endScan (completeByte (readBit s)))

/-- Whether this EXT_COPY step completes a byte (R202). -/
def copyWrites (s : State) : Bool :=
  decide ((s.h.k + 1) % 8 = 0)

/-- The accesses of an EXT_COPY step, in order (R76, R202). -/
def copyAccesses (s : State) : List Access :=
  { kind := .read, addr := chanAddr s.reg s.h.k } ::
    (if copyWrites s then [{ kind := .write, addr := outAddr s.reg ((s.h.k + 1) / 8 - 1) }] else [])

/-- The output byte of an EXT_COPY step, after `h.k` has advanced (R202). -/
def writeOutput (s : State) : State :=
  if s.h.k % 8 = 0 then { s with mem := memWrite s.mem (outAddr s.reg (s.h.k / 8 - 1)) s.h.sr } else s

/-- EXT_COPY completion (R203). -/
def endCopy (s : State) : State :=
  if s.h.k = 8 * s.h.idx then complete .none (setOutLen s.h.idx s) else s

/-- One EXT_COPY step (R202, R203). -/
def copyStep (s : State) : Result :=
  atomicStep s.cfg (copyAccesses s) (.next (endCopy (writeOutput (readBit s))))

end Sys2Proof.Machine
end

