-- ==== Sys2Proof/Machine/Dispatch.lean ====
section
/-! DEFINITION. The arms of a DISPATCH step (R119), one per command. -/

namespace Sys2Proof.Machine

-- The DISPATCH step of a command: "Exactly one arm runs, and the step ends in IDLE or in a run phase" (R119).
def exec (i : Instr) (s : State) : Host.Outcome State Fault Refusal :=
  match i with
  | .nop => Sys2Proof.Machine.execNop s
  | .cap => Sys2Proof.Machine.execCap s
  | .embed => Sys2Proof.Machine.execEmbed s
  | .extract => Sys2Proof.Machine.execExtract s

end Sys2Proof.Machine
end

