-- ==== Sys2Proof/Machine/Codec.lean ====
section
/-! DEFINITION. The codec step (spec/40_command_interface.md section 2). -/

namespace Sys2Proof.Machine

/-- The DISPATCH step (R119). -/
def dispatchStep (s : State) : Result :=
  match decode s.h.op with
  | .instr i => exec i s
  | .illegal _ => illegalCommand s

/-- One codec step (R116, R118).  In IDLE the codec has no step: it is quiescent and nothing changes. -/
def codecStep (s : State) : Result :=
  match s.h.phase with
  | .idle => .next s
  | .dispatch => dispatchStep s
  | .embRun => embedStep s
  | .extScan => scanStep s
  | .extCopy => copyStep s

/-- The bus-master accesses of the codec's next step, in order (R76, R88, R118); a DISPATCH step makes none. -/
def codecAccesses (s : State) : List Access :=
  match s.h.phase with
  | .idle => []
  | .dispatch => []
  | .embRun => embedAccesses s
  | .extScan => [{ kind := .read, addr := chanAddr s.reg s.h.k }]
  | .extCopy => copyAccesses s

end Sys2Proof.Machine
end

