-- ==== Sys2Proof/Machine/Bus.lean ====
section
/-! DEFINITION. What the outside does to the machine: register transactions (R110 to R115), accesses of the host and
other agents to memory under the ownership rule (R81), reset (R260, R262), and the host script (R98, R99). -/

namespace Sys2Proof.Machine

/-- ID_VALUE (R24). -/
def idValue : Word := 0x53544701

/-- The value a register reads as (R24 to R42, R111).  The bits a register does not use read 0 (R23). -/
def regValue (r : Reg) (s : State) : Word :=
  match r with
  | .id => idValue
  | .cmd => 0
  | .status => statusWord s
  | .width => s.reg.width.setWidth 32
  | .height => s.reg.height.setWidth 32
  | .pixBase => s.reg.pixBase
  | .payBase => s.reg.payBase
  | .payLen => s.reg.payLen
  | .outBase => s.reg.outBase
  | .outLen => s.reg.outLen
  | .capBitsLo => s.reg.capBitsLo
  | .capBitsHi => s.reg.capBitsHi.setWidth 32
  | .capBytes => s.reg.capBytes.setWidth 32
  | .capChars => s.reg.capChars.setWidth 32
  | .markerLo => s.cfg.marker.b3 ++ s.cfg.marker.b2 ++ s.cfg.marker.b1 ++ s.cfg.marker.b0
  | .markerHi => s.cfg.marker.b4.setWidth 32

/-- What a read of STATUS does to the ownership of regions: a read that returns BUSY = 0 is the host's observation
of completion, and ends it (R74, R78).  DESIGN CHOICE, unsafe (assumption log 15): several host agents may reach one
SLC (R246), the spec does not say whose read observes a command's completion, and here any agent's read ends the
ownership of every command's regions. -/
def observe (r : Reg) (s : State) : State :=
  if r = .status ∧ busy s = false then { s with owned := [] } else s

/-- `RD off` (R111): the value is returned and no state of SLC changes. -/
def readReg (r : Reg) (s : State) : State :=
  { observe r s with rdData := some (regValue r s) }

/-- `WR off, v` while BUSY = 0 (R112, R115): RW registers keep the bits they use, CMD accepts a command, RO registers
ignore the write. -/
def writeIdleReg (r : Reg) (v : Word) (s : State) : State :=
  match r with
  | .id => s
  | .cmd => acceptCommand v s
  | .status => s
  | .width => { s with reg.width := v.extractLsb' 0 16 }
  | .height => { s with reg.height := v.extractLsb' 0 16 }
  | .pixBase => { s with reg.pixBase := v }
  | .payBase => { s with reg.payBase := v }
  | .payLen => { s with reg.payLen := v }
  | .outBase => { s with reg.outBase := v }
  | .outLen => s
  | .capBitsLo => s
  | .capBitsHi => s
  | .capBytes => s
  | .capChars => s
  | .markerLo => s
  | .markerHi => s

/-- `WR off, v` (R112 to R115): dropped while BUSY = 1. -/
def writeReg (r : Reg) (v : Word) (s : State) : State :=
  if busy s then s else writeIdleReg r v s

/-- A host read at an offset of the register window; R70 refuses what is not a 4-aligned 32-bit access. -/
def hostReadReg (off : BitVec 6) (bytes : Nat) (s : State) : Result :=
  match decodeReg off bytes with
  | some r => .next (readReg r s)
  | none => .refused .registerAccess

/-- A host write at an offset of the register window; R70 refuses what is not a 4-aligned 32-bit access. -/
def hostWriteReg (off : BitVec 6) (bytes : Nat) (v : Word) (s : State) : Result :=
  match decodeReg off bytes with
  | some r => .next (writeReg r v s)
  | none => .refused .registerAccess

/-- Why a one-byte access of the host or another agent at `a` has no meaning, if it has none: it is a narrow access
to the register window (R70), it touches what a command owns (R81: a write to any owned region, a read of one that
the command writes), or the location is not plain memory. -/
def agentProblem (kind : AccessKind) (a : Word) (s : State) : Option Refusal :=
  if (registerWindow s.cfg).contains a then some .registerAccess
  else if s.owned.any fun o => (decide (kind = .write) || o.written) && o.region.contains a then some .race
  else if s.cfg.notPlain.any fun r => r.contains a then some .notPlainMemory
  else none

/-- A one-byte read of memory by the host or another agent (R110). -/
def agentRead (a : Word) (s : State) : Result :=
  match agentProblem .read a s with
  | some r => .refused r
  | none => .next { s with rdData := some ((memRead s.mem a).setWidth 32) }

/-- A one-byte write of memory by the host or another agent (R110). -/
def agentWrite (a : Word) (v : Byte) (s : State) : Result :=
  match agentProblem .write a s with
  | some r => .refused r
  | none => .next { s with mem := memWrite s.mem a v }

/-- The reset input (R260): SLC's state takes its reset values and a running command is abandoned (R262).  The
parameters, memory, what the outside does next and what it last read are no state of SLC and stay.  A region stays
owned until the host reads STATUS, as R74 says (assumption log 7). -/
def resetSlc (s : State) : State :=
  { s with reg := Regs.reset, h := Hidden.reset }

/-- One entry of what is pending. -/
def inputStep (i : Input) (s : State) : Result :=
  match i with
  | .codec => codecStep s
  | .regRead off bytes => hostReadReg off bytes s
  | .regWrite off bytes v => hostWriteReg off bytes v s
  | .memRead a => agentRead a s
  | .memWrite a v => agentWrite a v s
  | .reset => .next (resetSlc s)

/-- The entries that are to come: those of `inputs`, or, once they are exhausted, `cycle` again (R110, R274). -/
def pending (s : State) : List Input :=
  match s.inputs with
  | [] => s.cycle
  | i :: rest => i :: rest

/-- The next move of the whole machine: the first entry that is pending, or, when nothing ever is, the codec's. -/
def nextMove (s : State) : Result :=
  match pending s with
  | [] => codecStep s
  | i :: rest => inputStep i { s with inputs := rest }

/-- The host transactions of one script line (R98, R99). -/
def scriptLine (l : ScriptLine) : List Input :=
  match l with
  | .wr r v => [wrReg r v]
  | .rd r => [rdReg r]
  | .cmd i => [wrReg .cmd (encode i)]
  | .wait n => List.replicate (n + 1) (rdReg .status)
  | .run i n => wrReg .cmd (encode i) :: List.replicate (n + 1) (rdReg .status)

/-- The host transactions of a script (R98). -/
def script (ls : List ScriptLine) : List Input :=
  ls.flatMap scriptLine

/-- A schedule (R110, R238): before each host step the codec takes the number of steps that stands in the same place
of `turns`, none where `turns` has run out. -/
def schedule : List Nat → List Input → List Input
  | _, [] => []
  | [], is => is
  | n :: turns, i :: is => List.replicate n .codec ++ i :: schedule turns is

end Sys2Proof.Machine
end

