-- ==== Sys2Proof/Machine/Step.lean ====
section
/-! DEFINITION. One step of the machine, and how a command word is placed for the very next step. -/

namespace Sys2Proof.Machine

/-- One step: the next move of host, other agents, reset or codec (`nextMove`). -/
def step (s : State) : Host.Outcome State Fault Refusal :=
  nextMove s

/-- `s` with the command word `w` accepted and nothing pending from outside, so that the next step is the DISPATCH
step of `w`.  A command reaches SLC by a host write to CMD (R56, R115), so this does what acceptance does; bits at
and above `nbits` are 0. -/
def State.withFetchWord (s : State) (nbits w : Nat) : State :=
  acceptCommand (BitVec.ofNat 32 (w % 2 ^ nbits)) { s with inputs := [], cycle := [] }

end Sys2Proof.Machine
end

