-- ==== Sys2Proof/Machine/Functional.lean ====
section
/-! DEFINITION. The functional semantics of the codec (R13, R14, R160, R190): what EMBED and EXTRACT compute, as total
functions of a pixel buffer taken as a list of bytes.  No step calls these; claims compare the machine with them. -/

namespace Sys2Proof.Machine

/-- `bitsOf(B)` (R13): element `k` is `B[k div 8][7 - (k mod 8)]`. -/
def bitsOf (b : List Byte) : List Bool :=
  (List.range (8 * b.length)).map fun k => (b.getD (k / 8) 0).getLsbD (7 - k % 8)

/-- Byte `j` of `bytesOf(L)` (R13): the sum over `m` in 0..7 of `L[8j+m] << (7-m)`. -/
def byteOfBits (l : List Bool) (j : Nat) : Byte :=
  BitVec.ofNat 8 ((List.range 8).map fun m => (l.getD (8 * j + m) false).toNat * 2 ^ (7 - m)).sum

/-- `bytesOf(L)` (R13): `len(L) div 8` bytes; a trailing run of fewer than 8 bits is discarded. -/
def bytesOf (l : List Bool) : List Byte :=
  (List.range (l.length / 8)).map (byteOfBits l)

/-- `(v & 0xFE) | bit` for a bit of the bitstream (R160). -/
def withBit (v : Byte) (bit : Bool) : Byte :=
  (v &&& 0xFE) ||| BitVec.zeroExtend 8 (BitVec.ofBool bit)

/-- The bitstream that EMBED writes: `bitsOf(P ++ MARKER)` (R160). -/
def framedStream (marker : Bytes5) (p : List Byte) : List Bool :=
  bitsOf (p ++ marker.toList)

/-- Writing bit `k` of the bitstream into its channel of the buffer (R160, the body of its loop). -/
def embedBit (l : List Bool) (px : List Byte) (k : Nat) : List Byte :=
  px.set (chanIndex k) (withBit (px.getD (chanIndex k) 0) (l.getD k false))

/-- `embedF(PX, P)` (R160); none is PayloadTooLarge. -/
def embedF (marker : Bytes5) (w h : Nat) (px p : List Byte) : Option (List Byte) :=
  if 8 * (p.length + 5) > capBits w h then none
  else
    let l := framedStream marker p
    some ((List.range l.length).foldl (embedBit l) px)

/-- The bits that EXTRACT reads: the least significant bit of every R, G and B channel (R190). -/
def channelBits (w h : Nat) (px : List Byte) : List Bool :=
  (List.range (capBits w h)).map fun k => (px.getD (chanIndex k) 0).getLsbD 0

/-- Whether `MARKER` stands at index `i` of `d`: `i + 5 <= len(D)` and `D[i .. i+5) = MARKER` (R190). -/
def markerAt (marker : Bytes5) (d : List Byte) (i : Nat) : Bool :=
  decide (i + 5 ≤ d.length) && decide ((d.drop i).take 5 = marker.toList)

/-- The least index at which `MARKER` stands in `d`, if any (R190). -/
def firstMarker (marker : Bytes5) (d : List Byte) : Option Nat :=
  (List.range d.length).find? (markerAt marker d)

/-- `extractF(PX)` (R190); none is NoPayloadFound. -/
def extractF (marker : Bytes5) (w h : Nat) (px : List Byte) : Option (List Byte) :=
  let d := bytesOf (channelBits w h px)
  (firstMarker marker d).map fun i => d.take i

/-- The bytes of a region of memory in address order (R61). -/
def regionBytes (m : Memory) (r : Region) : List Byte :=
  (List.range r.len).map fun j => memRead m (r.base + BitVec.ofNat 32 j)

end Sys2Proof.Machine
end

