-- ==== Sys2Proof/Safety.lean ====
section
/-! DEFINITION. What a safe run is, in the terms the claims use: runs of several steps, the invariant of the machine,
the premises under which a command has its functional meaning, and what an agent other than the codec can do. -/

namespace Sys2Proof

open Machine

/-- `n` steps of the machine, stopping at the first fault or refusal. -/
def stepN : Nat → State → Result
  | 0, s => .next s
  | n + 1, s =>
    match step s with
    | .next t => stepN n t
    | .fault r => .fault r
    | .refused r => .refused r

/-- The operand registers (R22, R95). -/
def operandsOf (r : Regs) : BitVec 16 × BitVec 16 × Word × Word × Word × Word :=
  (r.width, r.height, r.pixBase, r.payBase, r.payLen, r.outBase)

/-- The capacity result registers (R38 to R41). -/
def capacityOf (r : Regs) : Word × BitVec 2 × BitVec 31 × BitVec 28 :=
  (r.capBitsLo, r.capBitsHi, r.capBytes, r.capChars)

/-- The stored fields of STATUS (R27 to R29). -/
def flagsOf (r : Regs) : Bool × ErrCode × BitVec 8 :=
  (r.done, r.err, r.lastOp)

/-- The machine's next step is a codec step: nothing is ever pending, or the first entry pending gives the codec a
step. -/
def codecMoves (s : State) : Prop :=
  pending s = [] ∨ ∃ rest, pending s = .codec :: rest

/-- Every access of the codec's next step is admitted (R116). -/
def accessesAdmitted (s : State) : Prop :=
  ∀ acc ∈ codecAccesses s, admits s.cfg acc = true

/-- The invariants that R57 numbers, clause by clause; its first clause, `STATUS.BUSY = 1` if and only if
`h.phase ≠ IDLE`, holds by the definition of `busy`. -/
structure PhaseInv (s : State) : Prop where
  busyClean : busy s = true → s.reg.done = false ∧ s.reg.err = .none
  embRun : s.h.phase = .embRun → s.h.k < s.h.framedBits
  extScan : s.h.phase = .extScan → s.h.k < s.h.scanBits
  extCopy : s.h.phase = .extCopy → s.h.k < 8 * s.h.idx
  window : s.h.wcnt ≤ 5
  found : s.h.found = true → s.h.wcnt = 5

/-- What a running command has latched: the command word is the one LAST_OP names, and the counters are those of its
operand registers (R29, R45 to R47, R51, R163, R193). -/
structure CommandInv (s : State) : Prop where
  lastOp : s.reg.lastOp = cmdOp s.h.op
  embRun : s.h.phase = .embRun → decode s.h.op = .instr .embed ∧ s.h.framedBits = 8 * (s.reg.payLen.toNat + 5) ∧
    s.h.framedBits ≤ 3 * s.reg.width.toNat * s.reg.height.toNat
  extScan : s.h.phase = .extScan → decode s.h.op = .instr .extract ∧
    s.h.scanBits = 3 * s.reg.width.toNat * s.reg.height.toNat ∧ s.h.nbytes = s.h.k / 8
  extCopy : s.h.phase = .extCopy → decode s.h.op = .instr .extract ∧
    s.h.scanBits = 3 * s.reg.width.toNat * s.reg.height.toNat ∧ s.h.found = true

/-- The counters' relations, which keep each within the width the spec gives it (R37, R44, R46, R47, R50, R51). -/
structure CounterInv (s : State) : Prop where
  k : s.h.k ≤ 2 ^ 34
  framedBits : s.h.framedBits < 2 ^ 36
  scanBits : s.h.scanBits < 2 ^ 34
  nbytes : 8 * s.h.nbytes ≤ s.h.scanBits
  wcnt : s.h.wcnt ≤ s.h.nbytes
  idx : s.h.idx ≤ s.h.nbytes
  found : s.h.found = true → s.h.idx + 5 ≤ s.h.nbytes ∧ s.h.win = s.cfg.marker
  outLen : s.reg.outLen.toNat < 2 ^ 31
  err : s.reg.done = false → s.reg.err = .none
  outLenZero : s.h.phase = .extScan ∨ s.h.phase = .extCopy → s.reg.outLen = 0

/-- What a running command owns (R74), and that the regions it reaches are fit for it (R72, R73, R75). -/
structure OwnershipInv (s : State) : Prop where
  owned : busy s = true → ∀ o ∈ wordRegions s.h.op s.reg, o ∈ s.owned
  embRun : s.h.phase = .embRun → embedProblem s.cfg s.reg = none
  extract : s.h.phase = .extScan ∨ s.h.phase = .extCopy →
    extractProblem s.cfg s.reg = none
  extCopy : s.h.phase = .extCopy → outputProblem s.cfg s.reg s.h.idx = none

/-- The invariant of the machine: it holds at reset and every step keeps it. -/
structure Inv (s : State) : Prop where
  phase : PhaseInv s
  command : CommandInv s
  counter : CounterInv s
  ownership : OwnershipInv s
  mem : Memory.wf s.mem = true

/-- The premises under which EMBED has its functional meaning (R174): its regions are fit for it (R72, R73, R75) and
every access to them is admitted (R64). -/
structure EmbedPremises (s : State) : Prop where
  regions : embedProblem s.cfg s.reg = none
  pixels : ∀ a, (pixRegion s.reg).contains a = true → ∀ kind, admits s.cfg { kind := kind, addr := a } = true
  payload : ∀ a, (payRegion s.reg).contains a = true → admits s.cfg { kind := .read, addr := a } = true

/-- The premises under which EXTRACT of a payload of `n` bytes has its functional meaning (R206): its regions are fit
for it (R72, R73, R75) and every access to them is admitted (R64). -/
structure ExtractPremises (n : Nat) (s : State) : Prop where
  regions : extractProblem s.cfg s.reg = none
  written : outputProblem s.cfg s.reg n = none
  pixels : ∀ a, (pixRegion s.reg).contains a = true → admits s.cfg { kind := .read, addr := a } = true
  output : ∀ a, (writtenRegion s.reg n).contains a = true → admits s.cfg { kind := .write, addr := a } = true

/-- The CAP_* registers of `t` hold the exact capacity figures of the dimensions in `s` (R140, R142, R144). -/
structure CapacityLatched (s t : State) : Prop where
  bitsLo : t.reg.capBitsLo.toNat = 3 * s.reg.width.toNat * s.reg.height.toNat % 2 ^ 32
  bitsHi : t.reg.capBitsHi.toNat = 3 * s.reg.width.toNat * s.reg.height.toNat / 2 ^ 32
  bytes : t.reg.capBytes.toNat = 3 * s.reg.width.toNat * s.reg.height.toNat / 8
  chars : t.reg.capChars.toNat = 3 * s.reg.width.toNat * s.reg.height.toNat / 8 / 8

/-- `r` with the CAP_* registers of `q`. -/
def withCapacityOf (r q : Regs) : Regs :=
  { r with capBitsLo := q.capBitsLo, capBitsHi := q.capBitsHi, capBytes := q.capBytes, capChars := q.capChars }

/-- The first `s.h.wcnt` bytes of the marker window, oldest first (R49). -/
def windowBytes (s : State) : List Byte :=
  s.h.win.toList.take s.h.wcnt

/-- The last five bytes of a list, or all of it where it is shorter. -/
def lastFive (l : List Byte) : List Byte :=
  l.drop (l.length - 5)

/-- What one EXT_SCAN step makes of the byte under way, given the shift register `sr'` after it (R194 to R196). -/
def scanStepEffect (s t : State) (sr' : Byte) : Prop :=
  ((s.h.k + 1) % 8 ≠ 0 →
    t.h.nbytes = s.h.nbytes ∧ windowBytes t = windowBytes s ∧ t.h.wcnt = s.h.wcnt ∧ t.h.found = s.h.found ∧
      t.h.idx = s.h.idx) ∧
  ((s.h.k + 1) % 8 = 0 → t.h.nbytes = s.h.nbytes + 1) ∧
  ((s.h.k + 1) % 8 = 0 → s.h.found = true →
    t.h.found = true ∧ windowBytes t = windowBytes s ∧ t.h.wcnt = s.h.wcnt ∧ t.h.idx = s.h.idx) ∧
  ((s.h.k + 1) % 8 = 0 → s.h.found = false →
    windowBytes t = lastFive (windowBytes s ++ [sr']) ∧ t.h.wcnt = min 5 (s.h.wcnt + 1) ∧
    (windowBytes t = s.cfg.marker.toList → t.h.found = true ∧ t.h.idx + 5 = t.h.nbytes) ∧
    (windowBytes t ≠ s.cfg.marker.toList → t.h.found = false ∧ t.h.idx = s.h.idx))

/-- A bound on the codec steps that the running command may still take (R123): one for each channel left to write, to
scan or to copy, and, while how much there is to copy is not known, one for each channel of the image. -/
def codecStepsLeft (s : State) : Nat :=
  match s.h.phase with
  | .idle => 0
  | .dispatch => 1 + 2 * imageCapBits s
  | .embRun => s.h.framedBits - s.h.k
  | .extScan => s.h.scanBits - s.h.k + s.h.scanBits
  | .extCopy => 8 * s.h.idx - s.h.k

/-- Fairness (R274): the codec is given steps for ever, whatever else happens between them. -/
def Fair (s : State) : Prop :=
  s.cycle = [] ∨ .codec ∈ s.cycle

/-- Nothing resets the machine in its next step. -/
def noReset (s : State) : Prop :=
  ∀ rest, pending s ≠ .reset :: rest

/-- EMBED under way (R174): the payload region holds `p`, and the pixel region holds `px` with the first `h.k` bits
of the bitstream written. -/
structure EmbedProgress (px p : List Byte) (s : State) : Prop where
  inv : Inv s
  phase : s.h.phase = .embRun
  payload : regionBytes s.mem (payRegion s.reg) = p
  pixels : regionBytes s.mem (pixRegion s.reg) =
    (List.range s.h.k).foldl (embedBit (framedStream s.cfg.marker p)) px
  byte : s.h.k % 8 ≠ 0 → s.h.sr = (p ++ s.cfg.marker.toList).getD (s.h.k / 8) 0

/-- EMBED has ended well: the pixel region holds `px'` (R166, R174). -/
structure EmbedDone (px' : List Byte) (t : State) : Prop where
  idle : t.h.phase = .idle
  done : t.reg.done = true
  err : t.reg.err = .none
  pixels : regionBytes t.mem (pixRegion t.reg) = px'

/-- The bits that EXTRACT reads from a pixel buffer with the contents `px` (R190). -/
def scanBitsOf (px : List Byte) (s : State) : List Bool :=
  channelBits s.reg.width.toNat s.reg.height.toNat px

/-- The bytes that EXTRACT decodes from a pixel buffer with the contents `px` (R190). -/
def scanBytesOf (px : List Byte) (s : State) : List Byte :=
  bytesOf (scanBitsOf px s)

/-- `h.sr` holds, in its low bits, the bits of the byte under way, the last one read in bit 0 (R194, R202). -/
def shiftHolds (px : List Byte) (s : State) : Prop :=
  ∀ m, m < s.h.k % 8 → s.h.sr.getLsbD m = (scanBitsOf px s).getD (s.h.k - 1 - m) false

/-- EXTRACT's scan under way on a pixel buffer with the contents `px` (R194 to R196): the window holds the last bytes
decoded, and the first occurrence of MARKER among the bytes decoded so far has been latched, if there is one. -/
structure ScanProgress (px : List Byte) (s : State) : Prop where
  inv : Inv s
  phase : s.h.phase = .extScan
  pixels : regionBytes s.mem (pixRegion s.reg) = px
  shift : shiftHolds px s
  found : s.h.found = true → firstMarker s.cfg.marker (scanBytesOf px s) = some s.h.idx
  notFound : s.h.found = false → ∀ i, i + 5 ≤ s.h.nbytes → markerAt s.cfg.marker (scanBytesOf px s) i = false
  window : s.h.found = false → windowBytes s = lastFive ((scanBytesOf px s).take s.h.nbytes)

/-- EXTRACT's copy under way (R202): the first `h.k div 8` payload bytes stand at OUT_BASE. -/
structure CopyProgress (px : List Byte) (s : State) : Prop where
  inv : Inv s
  phase : s.h.phase = .extCopy
  pixels : regionBytes s.mem (pixRegion s.reg) = px
  shift : shiftHolds px s
  first : firstMarker s.cfg.marker (scanBytesOf px s) = some s.h.idx
  output : ∀ j, j < s.h.k / 8 → memRead s.mem (s.reg.outBase + BitVec.ofNat 32 j) = (scanBytesOf px s).getD j 0

/-- EXTRACT has ended with the result `r` (R199, R200, R203, R206). -/
structure ExtractDone (r : Option (List Byte)) (t : State) : Prop where
  idle : t.h.phase = .idle
  done : t.reg.done = true
  err : t.reg.err = match r with | none => .noPayloadFound | some _ => .none
  outLen : t.reg.outLen.toNat = match r with | none => 0 | some d => d.length
  output : ∀ d, r = some d → regionBytes t.mem { base := t.reg.outBase, len := d.length } = d

/-- A command word has been accepted and the codec moves next, with nothing pending from outside. -/
structure Dispatching (i : Instr) (s : State) : Prop where
  phase : s.h.phase = .dispatch
  op : s.h.op = encode i
  alone : pending s = []

end Sys2Proof
end

