-- ==== Sys2Proof/Certificates/Slice0/Obligations.lean ====
section
/-! DEFINITION. The statements for the provers.  Each docstring names the rules of spec/ it formalises. -/

open Sys2Proof Sys2Proof.Machine

/-! ## Encoding -/

/-- R91: the opcode assignment, word by word. -/
def Obligations.CommandWordsDecode : Prop :=
  decode 0x00000000#32 = .instr .nop ∧ decode 0x00000001#32 = .instr .cap ∧
    decode 0x00000002#32 = .instr .embed ∧ decode 0x00000003#32 = .instr .extract

/-- R92: decoding matches the whole word, so each command is decoded from exactly one of the 2^32 words, the one the
encoder gives. -/
def Obligations.DecodeAndEncodeAgree : Prop :=
  ∀ (i : Instr) (w : Word), i.wf = true → (decode w = .instr i ↔ w = encode i)

/-- R94: `decode` on every word, by the values of its two fields. -/
def Obligations.DecodeIsTotalByFields : Prop :=
  ∀ w : Word,
    (w.toNat / 256 ≠ 0 → ∃ why, decode w = .illegal why) ∧
    (w.toNat / 256 = 0 →
      (w.toNat % 256 = 0x00 → decode w = .instr .nop) ∧ (w.toNat % 256 = 0x01 → decode w = .instr .cap) ∧
      (w.toNat % 256 = 0x02 → decode w = .instr .embed) ∧ (w.toNat % 256 = 0x03 → decode w = .instr .extract) ∧
      (0x04 ≤ w.toNat % 256 → ∃ why, decode w = .illegal why))

/-- R20 and R21: the register window is 64 bytes at a multiple of 64; each of its sixteen registers stands at the
offset R21 gives it, every multiple of 4 names one, and an access names a register at its own offset only. -/
def Obligations.RegisterWindowLayout : Prop :=
  (∀ cfg : Config, (regBase cfg).toNat % 64 = 0 ∧
    ∀ a, (registerWindow cfg).contains a = true ↔ ∃ off : BitVec 6, a = regBase cfg + off.setWidth 32) ∧
  (∀ off : BitVec 6, off.toNat % 4 = 0 → ∃ r, decodeReg off 4 = some r) ∧
  (∀ (off : BitVec 6) (bytes : Nat) (r : Reg), decodeReg off bytes = some r ↔ bytes = 4 ∧ off = regOffset r) ∧
  (∀ r : Reg, (regOffset r).toNat = match r with
    | .id => 0x00
    | .cmd => 0x04
    | .status => 0x08
    | .width => 0x0C
    | .height => 0x10
    | .pixBase => 0x14
    | .payBase => 0x18
    | .payLen => 0x1C
    | .outBase => 0x20
    | .outLen => 0x24
    | .capBitsLo => 0x28
    | .capBitsHi => 0x2C
    | .capBytes => 0x30
    | .capChars => 0x34
    | .markerLo => 0x38
    | .markerHi => 0x3C)

/-! ## Reset -/

/-- R55 and R260: after power-on and after reset is asserted in any state, every register and every hidden field has
its reset value; reset is always taken, and leaves memory and the built constants as they were. -/
def Obligations.ResetSetsEveryPieceOfState : Prop :=
  (∀ s t : State, (t = State.reset ∨ ∃ rest, pending s = .reset :: rest ∧ step s = .next t) →
    (∀ r, regValue r t = match r with
      | .id => 0x53544701
      | .markerLo => t.cfg.marker.b3 ++ t.cfg.marker.b2 ++ t.cfg.marker.b1 ++ t.cfg.marker.b0
      | .markerHi => t.cfg.marker.b4.setWidth 32
      | _ => 0) ∧
    t.reg.done = false ∧ t.reg.err = .none ∧ t.reg.lastOp = 0 ∧
    t.h.phase = .idle ∧ t.h.op = 0 ∧ t.h.k = 0 ∧ t.h.framedBits = 0 ∧ t.h.scanBits = 0 ∧ t.h.sr = 0 ∧
    t.h.nbytes = 0 ∧ t.h.idx = 0 ∧ t.h.win.toList = [0, 0, 0, 0, 0] ∧ t.h.wcnt = 0 ∧ t.h.found = false) ∧
  (∀ (s : State) (rest : List Input), pending s = .reset :: rest →
    ∃ t, step s = .next t ∧ t.mem = s.mem ∧ t.cfg = s.cfg ∧ t.inputs = rest ∧ t.cycle = s.cycle)

/-- The invariant holds at reset and at power-on of hardware built with any parameters. -/
def Obligations.ResetMeetsInvariant : Prop :=
  Inv State.reset ∧ ∀ cfg, Inv (State.powerOn cfg)

/-! ## The step of the machine -/

/-- R119: a DISPATCH step, alone or at the codec's turn in what is pending, runs the command that `h.op` decodes to, or
completes with ILLEGAL_COMMAND, and it ends in IDLE or in a run phase. -/
def Obligations.StepRunsDispatchedCommand : Prop :=
  ∀ s : State, s.h.phase = .dispatch → codecMoves s →
    (∀ i : Instr, i.wf = true → decode s.h.op = .instr i → step s = exec i { s with inputs := (pending s).tail }) ∧
    (∀ why, decode s.h.op = .illegal why →
      step s = .next { s with
        inputs := (pending s).tail, reg.err := .illegalCommand, reg.done := true, h.phase := .idle }) ∧
    (∀ t, step s = .next t → t.h.phase = .idle ∨ t.h.phase = .embRun ∨ t.h.phase = .extScan)

/-- R64 and R116: where an access of a run step is not admitted, the step has no successor: the machine stops with the
fault that names the access.  Where every access is admitted the step happens, unless it ends a scan whose output R72 or
R73 forbids (assumption log 5). -/
def Obligations.RunStepHappensWhenAdmitted : Prop :=
  ∀ s : State, s.h.phase = .embRun ∨ s.h.phase = .extScan ∨ s.h.phase = .extCopy → codecMoves s →
    (accessesAdmitted s →
      (∃ t, step s = .next t) ∨
        (s.h.phase = .extScan ∧ s.h.k + 1 = s.h.scanBits ∧
          (step s = .refused .regionInRegisterWindow ∨ step s = .refused .regionNotPlainMemory))) ∧
    (¬accessesAdmitted s →
      ∃ acc ∈ codecAccesses s, admits s.cfg acc = false ∧ step s = .fault (.stuck acc.kind acc.addr))

/-- R248: IDLE keeps every register, and nothing but a host command leaves IDLE.  (That an idle machine with nothing
pending answers its own state again is the model's choice, assumption log 4.) -/
def Obligations.OnlyACommandLeavesIdle : Prop :=
  (∀ s : State, s.h.phase = .idle → pending s = [] → step s = .next s) ∧
  (∀ s t : State, s.h.phase = .idle → step s = .next t → t.h.phase ≠ .idle →
    ∃ v rest, pending s = .regWrite 0x04 4 v :: rest ∧ t.h.phase = .dispatch ∧ t.h.op = v)

/-! ## NOP, CAP and illegal words -/

/-- R121: NOP completes with ERR 0 and touches nothing else; run from idle it leaves STATUS = 0x00000002. -/
def Obligations.NopOnlyClearsStatus : Prop :=
  (∀ s : State, exec .nop s = .next { s with reg.err := .none, reg.done := true, h.phase := .idle }) ∧
  (∀ s : State, s.h.phase = .idle → s.inputs = [.regWrite 0x04 4 0x00000000] → s.cycle = [] →
    ∃ t, stepN 2 s = .next t ∧ statusWord t = 0x00000002 ∧
      t = { s with inputs := [], reg.err := .none, reg.done := true, reg.lastOp := 0x00, h.op := 0 })

/-- R143: CAP latches the capacity of the dimensions, completes with ERR 0 and changes nothing else (OUT_LEN and
memory included); run from idle it leaves STATUS = 0x00000102. -/
def Obligations.CapLatchesCapacity : Prop :=
  (∀ s : State, ∃ t, exec .cap s = .next t ∧ CapacityLatched s t ∧
    t = { s with reg := { withCapacityOf s.reg t.reg with err := .none, done := true }, h.phase := .idle }) ∧
  (∀ s : State, s.h.phase = .idle → s.inputs = [.regWrite 0x04 4 0x00000001] → s.cycle = [] →
    ∃ t, stepN 2 s = .next t ∧ statusWord t = 0x00000102 ∧ CapacityLatched s t ∧
      t = { s with
        inputs := [], h.op := 1
        reg := { withCapacityOf s.reg t.reg with err := .none, done := true, lastOp := 0x01 } })

/-- R120: a word with RSV nonzero or OP 0x04 to 0xFF, written while idle, completes with ILLEGAL_COMMAND and changes
nothing but the flags, LAST_OP and `h.op`. -/
def Obligations.IllegalWordCompletesWithItsCode : Prop :=
  ∀ (s : State) (v : Word), s.h.phase = .idle → s.inputs = [.regWrite 0x04 4 v] → s.cycle = [] →
    (v.toNat / 256 ≠ 0 ∨ 4 ≤ v.toNat % 256) →
    ∃ t, stepN 2 s = .next t ∧ (statusWord t).toNat = v.toNat % 256 * 256 + 0x32 ∧
      t = { s with
        inputs := [], h.op := v, reg.err := .illegalCommand, reg.done := true, reg.lastOp := v.setWidth 8 }

/-- R142: the CAP_* registers change only at the DISPATCH step of CAP, EMBED or EXTRACT, which latches them, or at
reset. -/
def Obligations.CapacityHeldUntilLatchOrReset : Prop :=
  ∀ s t : State, step s = .next t →
    (codecMoves s ∧ s.h.phase = .dispatch ∧
      (decode s.h.op = .instr .cap ∨ decode s.h.op = .instr .embed ∨ decode s.h.op = .instr .extract) →
      CapacityLatched s t) ∧
    (capacityOf t.reg ≠ capacityOf s.reg →
      (∃ rest, pending s = .reset :: rest) ∨
      (codecMoves s ∧ s.h.phase = .dispatch ∧
        (decode s.h.op = .instr .cap ∨ decode s.h.op = .instr .embed ∨ decode s.h.op = .instr .extract)))

/-- R144: the product `3*w*h` never exceeds 12884508675 and no capacity result overflows its register: whichever
command latches it, each CAP_* register holds its figure exactly. -/
def Obligations.CapacityArithmeticIsExact : Prop :=
  ∀ (i : Instr) (s t : State), i = .cap ∨ i = .embed ∨ i = .extract → exec i s = .next t →
    3 * s.reg.width.toNat * s.reg.height.toNat ≤ 12884508675 ∧ CapacityLatched s t ∧
    t.reg.capBitsLo.toNat + 2 ^ 32 * t.reg.capBitsHi.toNat = 3 * s.reg.width.toNat * s.reg.height.toNat

/-- R145: the three capacity functions are non-decreasing in both dimensions. -/
def Obligations.CapacityIsMonotone : Prop :=
  ∀ w w' h h' : Nat, w ≤ w' → h ≤ h' →
    capBits w h ≤ capBits w' h' ∧ capBytes w h ≤ capBytes w' h' ∧ capChars w h ≤ capChars w' h'

/-- R146: the bit-level and the byte-level capacity checks agree. -/
def Obligations.BitsAndBytesAgree : Prop :=
  ∀ n w h : Nat, 8 * n ≤ capBits w h ↔ n ≤ capBytes w h

/-! ## EMBED -/

/-- R162 and R163: EMBED's DISPATCH step.  Too large a payload completes with PAYLOAD_TOO_LARGE and changes nothing
but the CAP_* registers and the flags; one that fits starts the run. -/
def Obligations.EmbedDispatch : Prop :=
  ∀ s : State,
    (8 * (s.reg.payLen.toNat + 5) > 3 * s.reg.width.toNat * s.reg.height.toNat →
      ∃ t, exec .embed s = .next t ∧ CapacityLatched s t ∧
        t = { s with
          reg := { withCapacityOf s.reg t.reg with err := .payloadTooLarge, done := true }, h.phase := .idle }) ∧
    (8 * (s.reg.payLen.toNat + 5) ≤ 3 * s.reg.width.toNat * s.reg.height.toNat → embedProblem s.cfg s.reg = none →
      ∃ t, exec .embed s = .next t ∧ CapacityLatched s t ∧ 40 ≤ t.h.framedBits ∧
        t.h.framedBits ≤ 3 * s.reg.width.toNat * s.reg.height.toNat ∧
        t = { s with
          reg := withCapacityOf s.reg t.reg
          h := { s.h with framedBits := 8 * (s.reg.payLen.toNat + 5), k := 0, sr := 0, phase := .embRun } })

/-- R72, R73 and R75: the commands that are refused for the regions they reach.  (Where the refusal comes is the model's
reading, assumption log 5: at the DISPATCH step of an EMBED that fits and of an EXTRACT of a nonempty image, and, for
the bytes EXTRACT is about to write, at the end of its scan.) -/
def Obligations.UnfitRegionsAreRefused : Prop :=
  ∀ (s : State) (r : Refusal),
    (8 * (s.reg.payLen.toNat + 5) ≤ 3 * s.reg.width.toNat * s.reg.height.toNat → embedProblem s.cfg s.reg = some r →
      exec .embed s = .refused r) ∧
    (3 * s.reg.width.toNat * s.reg.height.toNat ≠ 0 → extractProblem s.cfg s.reg = some r →
      exec .extract s = .refused r) ∧
    (s.h.k = s.h.scanBits → s.h.found = true → s.h.idx ≠ 0 → outputProblem s.cfg s.reg s.h.idx = some r →
      endScan s = .refused r)

/-- R171, R172 and R173: the boundary of the capacity check.  An exact fit starts the run, anything less fails; the
largest PAY_LEN fails for every image, and a zero dimension fails for every payload. -/
def Obligations.EmbedCapacityBoundary : Prop :=
  ∀ s : State,
    (3 * s.reg.width.toNat * s.reg.height.toNat = 8 * (s.reg.payLen.toNat + 5) →
      embedProblem s.cfg s.reg = none →
      ∃ t, exec .embed s = .next t ∧ t.h.phase = .embRun) ∧
    (3 * s.reg.width.toNat * s.reg.height.toNat < 8 * (s.reg.payLen.toNat + 5) ∨ s.reg.payLen = 0xFFFFFFFF ∨
        s.reg.width = 0 ∨ s.reg.height = 0 →
      ∃ t, exec .embed s = .next t ∧ t.h.phase = .idle ∧ t.reg.done = true ∧ t.reg.err = .payloadTooLarge ∧
        t.mem = s.mem)

/-- R164, R165 and R166: one EMB_RUN step.  The framer loads the next framed byte at a byte boundary, one channel is read
and written, has its LSB replaced by the next bit and keeps bits 7:1, no other byte of memory changes, and the run
completes when `h.k` becomes `h.N`. -/
def Obligations.EmbedRunStep : Prop :=
  ∀ s : State, Inv s → s.h.phase = .embRun → pending s = [] → accessesAdmitted s →
    ∃ t, step s = .next t ∧ t.h.k = s.h.k + 1 ∧
      (∀ a, a = s.reg.pixBase + BitVec.ofNat 32 (4 * (s.h.k / 3) + s.h.k % 3) →
        codecAccesses s =
          (if s.h.k % 8 = 0 ∧ s.h.k / 8 < s.reg.payLen.toNat then
            [{ kind := .read, addr := s.reg.payBase + BitVec.ofNat 32 (s.h.k / 8) }] else []) ++
          [{ kind := .read, addr := a }, { kind := .write, addr := a }]) ∧
      (s.h.k % 8 ≠ 0 → t.h.sr = s.h.sr) ∧
      (s.h.k % 8 = 0 → s.h.k / 8 < s.reg.payLen.toNat →
        t.h.sr = memRead s.mem (s.reg.payBase + BitVec.ofNat 32 (s.h.k / 8))) ∧
      (s.h.k % 8 = 0 → s.reg.payLen.toNat ≤ s.h.k / 8 →
        s.cfg.marker.toList[s.h.k / 8 - s.reg.payLen.toNat]? = some t.h.sr) ∧
      (∀ a, a = s.reg.pixBase + BitVec.ofNat 32 (4 * (s.h.k / 3) + s.h.k % 3) →
        memRead t.mem a =
          ((memRead s.mem a &&& 0xFE) ||| (if t.h.sr.getLsbD (7 - s.h.k % 8) then 0x01 else 0x00)) ∧
        (∀ b, b ≠ a → memRead t.mem b = memRead s.mem b)) ∧
      (s.h.k + 1 = s.h.framedBits →
        t.h.phase = .idle ∧ t.reg = { s.reg with err := .none, done := true }) ∧
      (s.h.k + 1 ≠ s.h.framedBits → t.h.phase = .embRun ∧ t.reg = s.reg) ∧
      t.h = { s.h with k := t.h.k, sr := t.h.sr, phase := t.h.phase } ∧
      t.cfg = s.cfg ∧ t.owned = s.owned ∧ t.rdData = s.rdData

/-- R174, R169 and R125: run alone with its regions fit and admitted, EMBED takes `1 + N` steps, busy after each smaller
number of them, and leaves `embedF` of the buffer in the pixel region, every other byte as it was and STATUS 0x00000202;
a payload that is too large takes 1 step, changes no memory and leaves STATUS 0x00000212. -/
def Obligations.EmbedComputesEmbedF : Prop :=
  ∀ s : State, Inv s → Dispatching .embed s → EmbedPremises s →
    match embedF s.cfg.marker s.reg.width.toNat s.reg.height.toNat (regionBytes s.mem (pixRegion s.reg))
        (regionBytes s.mem (payRegion s.reg)) with
    | some px' =>
      (∀ m, m < 1 + 8 * (s.reg.payLen.toNat + 5) → ∃ u, stepN m s = .next u ∧ u.h.phase ≠ .idle) ∧
      ∃ t, stepN (1 + 8 * (s.reg.payLen.toNat + 5)) s = .next t ∧ EmbedDone px' t ∧ statusWord t = 0x00000202 ∧
        operandsOf t.reg = operandsOf s.reg ∧ t.reg.outLen = s.reg.outLen ∧ CapacityLatched s t ∧
        ∀ a, (pixRegion s.reg).contains a = false → memRead t.mem a = memRead s.mem a
    | none =>
      ∃ t, stepN 1 s = .next t ∧ t.h.phase = .idle ∧ t.reg.done = true ∧ t.reg.err = .payloadTooLarge ∧
        statusWord t = 0x00000212 ∧ t.mem = s.mem

/-- R174 with R81 and R238: while EMBED runs, whatever codec, host and other agents do next, and in whatever order,
the pixel region holds the buffer with the first `h.k` bits written, up to the step that completes the command with
`embedF` of the buffer in place. -/
def Obligations.EmbedProgressUnderEverySchedule : Prop :=
  ∀ (px p : List Byte) (s t : State), EmbedProgress px p s → noReset s → step s = .next t →
    EmbedProgress px p t ∨
      ∃ px', embedF t.cfg.marker t.reg.width.toNat t.reg.height.toNat px p = some px' ∧ EmbedDone px' t

/-- R160 and R89: what `embedF` leaves alone: the length, every alpha byte, every channel from bit number
`8*(len(P)+5)` on, and bits 7:1 of every byte. -/
def Obligations.EmbedLeavesAlphaAndTailUnchanged : Prop :=
  ∀ (marker : Bytes5) (w h : Nat) (px p px' : List Byte), embedF marker w h px p = some px' →
    px'.length = px.length ∧
    ∀ a, (a % 4 = 3 ∨ 8 * (p.length + 5) ≤ 3 * (a / 4) + a % 4 → px'.getD a 0 = px.getD a 0) ∧
      px'.getD a 0 >>> 1 = px.getD a 0 >>> 1

/-- R175: embedding the same payload again leaves the buffer unchanged. -/
def Obligations.EmbeddingAgainChangesNothing : Prop :=
  ∀ (marker : Bytes5) (w h : Nat) (px p px' : List Byte), px.length = 4 * (w * h) →
    embedF marker w h px p = some px' → embedF marker w h px' p = some px'

/-! ## EXTRACT -/

/-- R193: EXTRACT's DISPATCH step. -/
def Obligations.ExtractDispatch : Prop :=
  ∀ s : State, 3 * s.reg.width.toNat * s.reg.height.toNat = 0 ∨ extractProblem s.cfg s.reg = none →
    ∃ t, exec .extract s = .next t ∧ CapacityLatched s t ∧ t.h.win.toList = [0, 0, 0, 0, 0] ∧
      t = { s with
        reg := { withCapacityOf s.reg t.reg with outLen := 0, err := t.reg.err, done := t.reg.done }
        h := { s.h with
          scanBits := 3 * s.reg.width.toNat * s.reg.height.toNat, k := 0, sr := 0, nbytes := 0, win := t.h.win
          wcnt := 0, found := false, idx := 0, phase := t.h.phase } } ∧
      (3 * s.reg.width.toNat * s.reg.height.toNat = 0 →
        t.h.phase = .idle ∧ t.reg.done = true ∧ t.reg.err = .noPayloadFound) ∧
      (3 * s.reg.width.toNat * s.reg.height.toNat ≠ 0 →
        t.h.phase = .extScan ∧ t.reg.done = s.reg.done ∧ t.reg.err = s.reg.err)

/-- R192 with R194, R195 and R196: one EXT_SCAN step that is not the last.  It makes one access, the read of channel
`h.k`, whose LSB enters `h.sr`; a completed byte enters the window of the last five bytes unless a match is latched; a
window equal to MARKER latches the index of its first byte; no register and no memory changes. -/
def Obligations.ExtractScanStep : Prop :=
  ∀ s : State, Inv s → s.h.phase = .extScan → pending s = [] → accessesAdmitted s → s.h.k + 1 ≠ s.h.scanBits →
    codecAccesses s = [{ kind := .read, addr := s.reg.pixBase + BitVec.ofNat 32 (4 * (s.h.k / 3) + s.h.k % 3) }] ∧
    ∃ t, step s = .next t ∧
      t.h.sr = (s.h.sr <<< 1 |||
        (memRead s.mem (s.reg.pixBase + BitVec.ofNat 32 (4 * (s.h.k / 3) + s.h.k % 3)) &&& 0x01)) ∧
      t.h.k = s.h.k + 1 ∧ scanStepEffect s t t.h.sr ∧
      t = { s with h := { s.h with
        k := t.h.k, sr := t.h.sr, nbytes := t.h.nbytes, win := t.h.win, wcnt := t.h.wcnt, found := t.h.found
        idx := t.h.idx } }

/-- R199, R200 and R201: the EXT_SCAN step that reads the last channel, which is its one access (R192).  After
R194 to R196 the command fails with OUT_LEN 0, ends with the empty payload, or goes on to copy; no memory changes. -/
def Obligations.ExtractScanEnds : Prop :=
  ∀ s : State, Inv s → s.h.phase = .extScan → pending s = [] → accessesAdmitted s → s.h.k + 1 = s.h.scanBits →
    codecAccesses s = [{ kind := .read, addr := s.reg.pixBase + BitVec.ofNat 32 (4 * (s.h.k / 3) + s.h.k % 3) }] ∧
    ∃ u : State,
      u.h.k = s.h.k + 1 ∧
      u.h.sr = (s.h.sr <<< 1 |||
        (memRead s.mem (s.reg.pixBase + BitVec.ofNat 32 (4 * (s.h.k / 3) + s.h.k % 3)) &&& 0x01)) ∧
      scanStepEffect s u u.h.sr ∧
      u = { s with h := { s.h with
        k := u.h.k, sr := u.h.sr, nbytes := u.h.nbytes, win := u.h.win, wcnt := u.h.wcnt, found := u.h.found
        idx := u.h.idx } } ∧
      (u.h.found = false → u.reg.outLen = 0 ∧
        step s = .next { u with reg.err := .noPayloadFound, reg.done := true, h.phase := .idle }) ∧
      (u.h.found = true → u.h.idx = 0 →
        step s = .next { u with reg.outLen := 0, reg.err := .none, reg.done := true, h.phase := .idle }) ∧
      (u.h.found = true → u.h.idx ≠ 0 → outputProblem s.cfg s.reg u.h.idx = none →
        step s = .next { u with h.k := 0, h.sr := 0, h.phase := .extCopy })

/-- R202 and R203: one EXT_COPY step.  One channel is read and its LSB enters `h.sr`; a completed byte, and nothing
else, is written to the output buffer; the copy completes when `h.k` becomes `8 * h.idx`. -/
def Obligations.ExtractCopyStep : Prop :=
  ∀ s : State, Inv s → s.h.phase = .extCopy → pending s = [] → accessesAdmitted s →
    ∃ t, step s = .next t ∧ t.h.k = s.h.k + 1 ∧
      t.h.sr = (s.h.sr <<< 1 |||
        (memRead s.mem (s.reg.pixBase + BitVec.ofNat 32 (4 * (s.h.k / 3) + s.h.k % 3)) &&& 0x01)) ∧
      codecAccesses s =
        { kind := .read, addr := s.reg.pixBase + BitVec.ofNat 32 (4 * (s.h.k / 3) + s.h.k % 3) } ::
          (if t.h.k % 8 = 0 then [{ kind := .write, addr := s.reg.outBase + BitVec.ofNat 32 (t.h.k / 8 - 1) }]
            else []) ∧
      (t.h.k % 8 ≠ 0 → t.mem = s.mem) ∧
      (t.h.k % 8 = 0 → ∀ a, a = s.reg.outBase + BitVec.ofNat 32 (t.h.k / 8 - 1) →
        memRead t.mem a = t.h.sr ∧ ∀ b, b ≠ a → memRead t.mem b = memRead s.mem b) ∧
      (t.h.k = 8 * s.h.idx →
        t.h.phase = .idle ∧ t.reg = { s.reg with outLen := t.reg.outLen, err := .none, done := true } ∧
        t.reg.outLen.toNat = s.h.idx) ∧
      (t.h.k ≠ 8 * s.h.idx → t.h.phase = .extCopy ∧ t.reg = s.reg) ∧
      t.h = { s.h with k := t.h.k, sr := t.h.sr, phase := t.h.phase } ∧
      t.cfg = s.cfg ∧ t.owned = s.owned ∧ t.rdData = s.rdData

/-- R206, R205 and R125: run alone with its regions fit and admitted, EXTRACT ends with `extractF` of the buffer: it
takes `1 + capBits + 8i` steps and leaves the payload of length `i` at OUT_BASE, every other byte as it was and STATUS
0x00000302, or `1 + capBits` steps and leaves STATUS 0x00000322 (NO_PAYLOAD_FOUND) and memory unchanged; it is busy after
each smaller number of steps. -/
def Obligations.ExtractComputesExtractF : Prop :=
  ∀ (s : State) (r : Option (List Byte)), Inv s → Dispatching .extract s →
    r = extractF s.cfg.marker s.reg.width.toNat s.reg.height.toNat (regionBytes s.mem (pixRegion s.reg)) →
    ExtractPremises (r.getD []).length s →
    ∀ n, n = 1 + 3 * s.reg.width.toNat * s.reg.height.toNat + 8 * (r.getD []).length →
      (∀ m, m < n → ∃ u, stepN m s = .next u ∧ u.h.phase ≠ .idle) ∧
      ∃ t, stepN n s = .next t ∧ ExtractDone r t ∧
        statusWord t = (if r = none then 0x00000322 else 0x00000302) ∧
        operandsOf t.reg = operandsOf s.reg ∧ CapacityLatched s t ∧
        (r = none → t.mem = s.mem) ∧
        ∀ a, (∀ j, j < (r.getD []).length → a ≠ s.reg.outBase + BitVec.ofNat 32 j) →
          memRead t.mem a = memRead s.mem a

/-- R206 with R81 and R238: while EXTRACT runs, whatever codec, host and other agents do next, and in whatever order,
the scan has latched the first occurrence of MARKER among the bytes decoded so far and the copy has written the
payload's first bytes, up to the step that completes the command with `extractF` of the buffer. -/
def Obligations.ExtractProgressUnderEverySchedule : Prop :=
  ∀ (px : List Byte) (s t : State), noReset s → step s = .next t →
    (ScanProgress px s → ScanProgress px t ∨ CopyProgress px t ∨
      ExtractDone (extractF t.cfg.marker t.reg.width.toNat t.reg.height.toNat px) t) ∧
    (CopyProgress px s → CopyProgress px t ∨
      ExtractDone (extractF t.cfg.marker t.reg.width.toNat t.reg.height.toNat px) t)

/-- R210: EXTRACT run alone on a buffer that holds `embedF(PX, P)`, where MARKER does not occur in `P ++ MARKER` below
`len(P)`, returns `P`. -/
def Obligations.RoundTripReturnsThePayload : Prop :=
  ∀ (px p : List Byte) (s : State), Inv s → Dispatching .extract s → ExtractPremises p.length s →
    embedF s.cfg.marker s.reg.width.toNat s.reg.height.toNat px p = some (regionBytes s.mem (pixRegion s.reg)) →
    (∀ i, i < p.length → markerAt s.cfg.marker (p ++ s.cfg.marker.toList) i = false) →
    ∃ n t, stepN n s = .next t ∧ ExtractDone (some p) t

/-- R209: where MARKER occurs in `P ++ MARKER` below `len(P)`, extraction returns the bytes before its first
occurrence, a proper prefix of `P`. -/
def Obligations.MarkerCollisionTruncates : Prop :=
  ∀ (marker : Bytes5) (w h : Nat) (px p px' : List Byte) (i : Nat), px.length = 4 * (w * h) →
    embedF marker w h px p = some px' → i < p.length → markerAt marker (p ++ marker.toList) i = true →
    (∀ j, j < i → markerAt marker (p ++ marker.toList) j = false) →
    extractF marker w h px' = some (p.take i) ∧ (p.take i).length < p.length

/-- R208: the buffers on which extraction always fails: fewer than 40 channels; every channel LSB 0 and a marker that
is not all zero; every channel LSB 1 and a marker that is not all 0xFF. -/
def Obligations.ExtractionGuaranteedFailures : Prop :=
  ∀ (marker : Bytes5) (w h : Nat) (px : List Byte),
    (3 * w * h < 40 → extractF marker w h px = none) ∧
    ((∀ k, k < 3 * w * h → (px.getD (4 * (k / 3) + k % 3) 0).getLsbD 0 = false) →
      marker.toList ≠ [0, 0, 0, 0, 0] → extractF marker w h px = none) ∧
    ((∀ k, k < 3 * w * h → (px.getD (4 * (k / 3) + k % 3) 0).getLsbD 0 = true) →
      marker.toList ≠ [0xFF, 0xFF, 0xFF, 0xFF, 0xFF] → extractF marker w h px = none)

/-! ## Registers and the host -/

/-- R115: command acceptance.  Every word is accepted while idle; nothing of SLC changes but `h.op`, LAST_OP, DONE,
ERR and the phase, and memory does not change. -/
def Obligations.CommandAcceptance : Prop :=
  ∀ (s : State) (v : Word) (rest : List Input), s.h.phase = .idle → pending s = .regWrite 0x04 4 v :: rest →
    ∃ t, step s = .next t ∧
      t = { s with
        inputs := rest, h.op := v, reg.lastOp := v.setWidth 8, reg.done := false, reg.err := .none
        h.phase := .dispatch, owned := t.owned }

/-- R113 and R114: a register write while a command runs is dropped, whichever the register. -/
def Obligations.BusyWritesAreDropped : Prop :=
  ∀ (s : State) (r : Reg) (v : Word) (rest : List Input), s.h.phase ≠ .idle →
    pending s = .regWrite (regOffset r) 4 v :: rest → step s = .next { s with inputs := rest }

/-- R112: a write to a register other than CMD while idle. -/
def Obligations.IdleRegisterWrites : Prop :=
  ∀ (s : State) (r : Reg) (v : Word) (rest : List Input), s.h.phase = .idle → r ≠ .cmd →
    pending s = .regWrite (regOffset r) 4 v :: rest →
    ∃ t, step s = .next t ∧ t = { s with inputs := rest, reg := t.reg } ∧
      t.reg = match r with
        | .width => { s.reg with width := v.setWidth 16 }
        | .height => { s.reg with height := v.setWidth 16 }
        | .pixBase => { s.reg with pixBase := v }
        | .payBase => { s.reg with payBase := v }
        | .payLen => { s.reg with payLen := v }
        | .outBase => { s.reg with outBase := v }
        | _ => s.reg

/-- R111 with R24 to R42 and R231: a register read returns the register's value, STATUS with the error codes 0 to 3 in
bits 6:4, and changes no state of SLC and no memory. -/
def Obligations.RegisterReadsReturnTheirValues : Prop :=
  ∀ (s : State) (r : Reg) (rest : List Input), pending s = .regRead (regOffset r) 4 :: rest →
    ∃ (t : State) (v : Word) (errCode : Nat), step s = .next t ∧
      t = { s with inputs := rest, rdData := some v, owned := t.owned } ∧
      errCode = (match s.reg.err with
        | .none => 0
        | .payloadTooLarge => 1
        | .noPayloadFound => 2
        | .illegalCommand => 3) ∧
      v.toNat = match r with
        | .id => 0x53544701
        | .cmd => 0
        | .status => (if s.h.phase = .idle then 0 else 1) + 2 * s.reg.done.toNat + 16 * errCode +
            256 * s.reg.lastOp.toNat
        | .width => s.reg.width.toNat
        | .height => s.reg.height.toNat
        | .pixBase => s.reg.pixBase.toNat
        | .payBase => s.reg.payBase.toNat
        | .payLen => s.reg.payLen.toNat
        | .outBase => s.reg.outBase.toNat
        | .outLen => s.reg.outLen.toNat
        | .capBitsLo => s.reg.capBitsLo.toNat
        | .capBitsHi => s.reg.capBitsHi.toNat
        | .capBytes => s.reg.capBytes.toNat
        | .capChars => s.reg.capChars.toNat
        | .markerLo => s.cfg.marker.b0.toNat + 2 ^ 8 * s.cfg.marker.b1.toNat + 2 ^ 16 * s.cfg.marker.b2.toNat +
            2 ^ 24 * s.cfg.marker.b3.toNat
        | .markerHi => s.cfg.marker.b4.toNat

/-- R58: STATUS reads one of three shapes. -/
def Obligations.StatusHasThreeShapes : Prop :=
  ∀ s : State, Inv s →
    (s.h.phase = .idle ∧ s.reg.done = false ∧ (statusWord s).toNat = 256 * s.reg.lastOp.toNat) ∨
    (s.h.phase ≠ .idle ∧ (statusWord s).toNat = 256 * s.reg.lastOp.toNat + 1) ∨
    (s.h.phase = .idle ∧ s.reg.done = true ∧
      ∃ e, e ≤ 3 ∧ (statusWord s).toNat = 256 * s.reg.lastOp.toNat + 16 * e + 2)

/-- R69 and R70: an access to the register window that is not 32 bits wide or not 4-aligned is refused, and so is a
one-byte access of any agent to an address in the window. -/
def Obligations.UnalignedRegisterAccessIsRefused : Prop :=
  ∀ (s : State) (off : BitVec 6) (bytes : Nat) (v : Word) (a : Word) (b : Byte) (rest : List Input),
    (¬(bytes = 4 ∧ off.toNat % 4 = 0) →
      (pending s = .regRead off bytes :: rest → step s = .refused .registerAccess) ∧
      (pending s = .regWrite off bytes v :: rest → step s = .refused .registerAccess)) ∧
    ((a - regBase s.cfg).toNat < 64 →
      (pending s = .memRead a :: rest → step s = .refused .registerAccess) ∧
      (pending s = .memWrite a b :: rest → step s = .refused .registerAccess))

/-- R59: each operand register keeps its value until the host writes that register while idle or reset clears it, and
no step of a command writes one. -/
def Obligations.OperandsChangeOnlyByHostOrReset : Prop :=
  ∀ s t : State, step s = .next t →
    (∀ r, r = .width ∨ r = .height ∨ r = .pixBase ∨ r = .payBase ∨ r = .payLen ∨ r = .outBase →
      regValue r t ≠ regValue r s →
      (∃ rest, pending s = .reset :: rest) ∨
      (s.h.phase = .idle ∧ ∃ v rest, pending s = .regWrite (regOffset r) 4 v :: rest)) ∧
    (codecMoves s → operandsOf t.reg = operandsOf s.reg)

/-- R54: STATUS changes only by the acceptance of a command, by the codec step that completes one, and by reset. -/
def Obligations.StatusChangesOnlyByCommandOrReset : Prop :=
  ∀ s t : State, step s = .next t → statusWord t ≠ statusWord s →
    (∃ rest, pending s = .reset :: rest) ∨
    (s.h.phase = .idle ∧ ∃ v rest, pending s = .regWrite 0x04 4 v :: rest) ∨
    (codecMoves s ∧ s.h.phase ≠ .idle ∧ t.h.phase = .idle ∧ t.reg.done = true)

/-- R37: OUT_LEN changes only by a step of EXTRACT, to 0 or to the index of the marker, or by reset. -/
def Obligations.OutLenChangesOnlyByExtract : Prop :=
  ∀ s t : State, step s = .next t → t.reg.outLen ≠ s.reg.outLen →
    (∃ rest, pending s = .reset :: rest) ∨
    (codecMoves s ∧
      ((s.h.phase = .dispatch ∧ decode s.h.op = .instr .extract ∧ t.reg.outLen = 0) ∨
       (s.h.phase = .extScan ∧ t.h.phase = .idle ∧ t.reg.outLen = 0) ∨
       (s.h.phase = .extCopy ∧ t.h.phase = .idle ∧ t.reg.outLen = BitVec.ofNat 32 s.h.idx)))

/-- R42: MARKER_LO, MARKER_HI and ID are constants: no step changes what they read as, reset included. -/
def Obligations.BuiltConstantsNeverChange : Prop :=
  ∀ s t : State, step s = .next t →
    t.cfg = s.cfg ∧ regValue .markerLo t = regValue .markerLo s ∧ regValue .markerHi t = regValue .markerHi s ∧
      regValue .id t = 0x53544701 ∧
      (regValue .markerLo t).toNat = t.cfg.marker.b0.toNat + 2 ^ 8 * t.cfg.marker.b1.toNat +
        2 ^ 16 * t.cfg.marker.b2.toNat + 2 ^ 24 * t.cfg.marker.b3.toNat ∧
      (regValue .markerHi t).toNat = t.cfg.marker.b4.toNat

/-! ## Memory and ownership -/

/-- R12: the channel of bit `k` of an image stands in the pixel region, two bits never share a channel, and no bit
stands in an alpha byte. -/
def Obligations.ChannelMapAvoidsAlpha : Prop :=
  ∀ r : Regs, 4 * (r.width.toNat * r.height.toNat) ≤ 2 ^ 32 →
    ∀ k, k < 3 * r.width.toNat * r.height.toNat →
      chanAddr r k = r.pixBase + BitVec.ofNat 32 (4 * (k / 3) + k % 3) ∧
      (pixRegion r).contains (chanAddr r k) = true ∧
      (∀ j, j < 3 * r.width.toNat * r.height.toNat → chanAddr r j = chanAddr r k → j = k) ∧
      (∀ p, p < r.width.toNat * r.height.toNat → chanAddr r k ≠ r.pixBase + BitVec.ofNat 32 (4 * p + 3))

/-- R61: where a run step's accesses lie.  EMBED reads and writes the pixel region and reads the payload region;
EXTRACT reads the pixel region and writes the output region; a DISPATCH step makes no access (R118). -/
def Obligations.AccessesStayInTheCommandsRegions : Prop :=
  ∀ s : State, Inv s →
    (s.h.phase = .idle ∨ s.h.phase = .dispatch → codecAccesses s = []) ∧
    (∀ acc ∈ codecAccesses s,
      (s.h.phase = .embRun →
        ((pixRegion s.reg).contains acc.addr = true ∨
          (acc.kind = .read ∧ (payRegion s.reg).contains acc.addr = true))) ∧
      (s.h.phase = .extScan → acc.kind = .read ∧ (pixRegion s.reg).contains acc.addr = true) ∧
      (s.h.phase = .extCopy →
        ((acc.kind = .read ∧ (pixRegion s.reg).contains acc.addr = true) ∨
          (acc.kind = .write ∧
            (writtenRegion s.reg s.h.idx).contains acc.addr = true ∧
            (outRegion s.reg).contains acc.addr = true))))

/-- R88 and R89: a byte of memory changes only by a write access of the codec's step or by another agent's write. -/
def Obligations.MemoryChangesOnlyByAWriteAccess : Prop :=
  ∀ (s t : State) (a : Word), step s = .next t → memRead t.mem a ≠ memRead s.mem a →
    (codecMoves s ∧ { kind := .write, addr := a } ∈ codecAccesses s) ∨
    (∃ v rest, pending s = .memWrite a v :: rest)

/-- R88, R89 and R124: what a codec step does depends on no byte of memory but those it reads: with these alike, it
takes the same step of registers and hidden state, and leaves the same byte at every address it accesses. -/
def Obligations.CodecStepDependsOnlyOnBytesItReads : Prop :=
  ∀ (s t : State) (m : Memory), Memory.wf s.mem = true → Memory.wf m = true → pending s = [] →
    (∀ acc ∈ codecAccesses s, acc.kind = .read → memRead m acc.addr = memRead s.mem acc.addr) → step s = .next t →
    ∃ u, step { s with mem := m } = .next u ∧ u.reg = t.reg ∧ u.h = t.h ∧
      ∀ acc ∈ codecAccesses s, memRead u.mem acc.addr = memRead t.mem acc.addr

/-- R72, R73 and R75: what makes the regions of EMBED, of EXTRACT before its scan, and of EXTRACT's output of `i` bytes
fit.  R75 is about the owned regions: the pixel region is at most 2^32 bytes and shares no address with the other (for
EXTRACT the output bounded as R74 says).  R72 and R73 are about the bytes a command reaches: no address of theirs lies in
the register window or in memory that is not plain.  (Which regions are looked at when is assumption log 5.) -/
def Obligations.RegionsFitExactlyWhenDisjointAndPlain : Prop :=
  ∀ (cfg : Config) (r : Regs) (pixels clear : Word → Prop),
    (∀ a, pixels a ↔ (a - r.pixBase).toNat < 4 * (r.width.toNat * r.height.toNat)) →
    (∀ a, clear a ↔ ¬((a - regBase cfg).toNat < 64) ∧ ∀ q ∈ cfg.notPlain, ¬((a - q.base).toNat < q.len)) →
    (embedProblem cfg r = none ↔
      4 * (r.width.toNat * r.height.toNat) ≤ 2 ^ 32 ∧
      (∀ a, ¬(pixels a ∧ (a - r.payBase).toNat < r.payLen.toNat)) ∧
      (∀ a, pixels a ∨ (a - r.payBase).toNat < r.payLen.toNat → clear a)) ∧
    (extractProblem cfg r = none ↔
      4 * (r.width.toNat * r.height.toNat) ≤ 2 ^ 32 ∧
      (∀ a, ¬(pixels a ∧ (a - r.outBase).toNat < 3 * (r.width.toNat * r.height.toNat) / 8 - 5)) ∧
      (∀ a, pixels a → clear a)) ∧
    (∀ i, outputProblem cfg r i = none ↔ ∀ a : Word, (a - r.outBase).toNat < i → clear a)

/-- R73 and R72: no access of SLC is ever to its own register window or to memory that is not plain. -/
def Obligations.CodecNeverReachesItsRegisters : Prop :=
  ∀ s : State, Inv s → ∀ acc ∈ codecAccesses s,
    (registerWindow s.cfg).contains acc.addr = false ∧ ∀ q ∈ s.cfg.notPlain, q.contains acc.addr = false

/-- R81: a write of another agent to an owned region, and a read of an owned region that its command writes, is
refused as a race.  (An address in the register window is refused as such, R70.) -/
def Obligations.AccessToAnOwnedRegionIsRefused : Prop :=
  ∀ (s : State) (o : Owned) (a : Word) (v : Byte) (rest : List Input), o ∈ s.owned →
    o.region.contains a = true → (registerWindow s.cfg).contains a = false →
    (pending s = .memWrite a v :: rest → step s = .refused .race) ∧
    (o.written = true → pending s = .memRead a :: rest → step s = .refused .race)

/-- R110: an access of the host or another agent to memory that is not in the register window, is plain and is in no
owned region it must not touch happens: a read returns the byte and changes nothing, a write stores its byte and changes
no other. -/
def Obligations.AgentAccessToFreeMemoryHappens : Prop :=
  ∀ (s : State) (a : Word) (v : Byte) (rest : List Input), Memory.wf s.mem = true →
    64 ≤ (a - regBase s.cfg).toNat → (∀ q ∈ s.cfg.notPlain, q.len ≤ (a - q.base).toNat) →
    (pending s = .memRead a :: rest →
      (∀ o ∈ s.owned, o.written = true → o.region.len ≤ (a - o.region.base).toNat) →
      ∃ w : Word, w.toNat = (memRead s.mem a).toNat ∧ step s = .next { s with inputs := rest, rdData := some w }) ∧
    (pending s = .memWrite a v :: rest → (∀ o ∈ s.owned, o.region.len ≤ (a - o.region.base).toNat) →
      ∃ t, step s = .next t ∧ t = { s with inputs := rest, mem := t.mem } ∧ memRead t.mem a = v ∧
        ∀ b, b ≠ a → memRead t.mem b = memRead s.mem b)

/-- R74 and R78: the regions of EMBED and EXTRACT are owned from acceptance until a STATUS read returns BUSY = 0, which
ends all ownership; nothing else ends it, and nothing but an acceptance begins it.  (That regions stay owned over a reset
is the model's reading, assumption log 7; that the read may be any agent's, and ends the ownership of every command's
regions, is the model's choice, assumption log 15.) -/
def Obligations.OwnershipFromAcceptanceToObservation : Prop :=
  (∀ (s t : State) (i : Instr) (rest : List Input), s.h.phase = .idle →
    pending s = .regWrite 0x04 4 (encode i) :: rest → step s = .next t →
    (i = .nop ∨ i = .cap → t.owned = s.owned) ∧
    (i = .embed → { region := pixRegion s.reg, written := true } ∈ t.owned ∧
      { region := payRegion s.reg, written := false } ∈ t.owned) ∧
    (i = .extract → { region := pixRegion s.reg, written := false } ∈ t.owned ∧
      { region := outRegion s.reg, written := true } ∈ t.owned)) ∧
  (∀ (s : State) (rest : List Input), s.h.phase = .idle → pending s = .regRead 0x08 4 :: rest →
    ∃ t, step s = .next t ∧ t.owned = []) ∧
  (∀ (s t : State) (o : Owned), step s = .next t → o ∈ s.owned → o ∉ t.owned →
    s.h.phase = .idle ∧ ∃ rest, pending s = .regRead 0x08 4 :: rest) ∧
  (∀ (s t : State) (o : Owned), step s = .next t → o ∉ s.owned → o ∈ t.owned →
    s.h.phase = .idle ∧ ∃ v rest, pending s = .regWrite 0x04 4 v :: rest ∧ o ∈ wordRegions v s.reg)

/-- R81, R113 and R114: while a command runs, whatever the host or another agent does short of reset leaves SLC's
state as it was, and every byte of the command's regions that its steps read or write. -/
def Obligations.AgentsCannotDisturbARunningCommand : Prop :=
  ∀ (s t : State) (i : Input) (rest : List Input), Inv s → s.h.phase ≠ .idle → pending s = i :: rest →
    i ≠ .codec → i ≠ .reset → step s = .next t →
    t.reg = s.reg ∧ t.h = s.h ∧
      ∀ o ∈ wordRegions s.h.op s.reg, ∀ a, o.region.contains a = true → memRead t.mem a = memRead s.mem a

/-! ## Invariants and whole-machine rules -/

/-- R57: the numbered invariants, from every state that meets them, over every step. -/
def Obligations.PhaseInvariantsKeptByEveryStep : Prop :=
  ∀ s t : State, PhaseInv s → step s = .next t →
    PhaseInv t ∧ ((statusWord t).getLsbD 0 = true ↔ t.h.phase ≠ .idle)

/-- The whole invariant, from every state that meets it, over every step: memory stays canonical, a running command
keeps what it latched from its operands, its regions stay owned and fit. -/
def Obligations.InvariantKeptByEveryStep : Prop :=
  ∀ s t : State, Inv s → step s = .next t → Inv t

/-- R37, R44, R46, R47, R50 and R51: each counter fits the width the spec gives it. -/
def Obligations.CountersFitTheirWidths : Prop :=
  ∀ s : State, Inv s →
    s.h.k < 2 ^ 35 ∧ s.h.framedBits < 2 ^ 36 ∧ s.h.scanBits < 2 ^ 34 ∧ s.h.nbytes < 2 ^ 31 ∧ s.h.idx < 2 ^ 32 ∧
      s.reg.outLen.toNat < 2 ^ 31

/-- R124 with R43: no command reads a value left over from an earlier command.  Two machines that dispatch the same
command word with the same operands, memory and parameters, and any hidden state besides, agree after every number of
steps on registers, memory and phase, and stop alike. -/
def Obligations.LeftoverStateDoesNotLeak : Prop :=
  ∀ (s : State) (g : Hidden) (n : Nat), s.h.phase = .dispatch → g.phase = .dispatch → g.op = s.h.op →
    pending s = [] →
    match stepN n s, stepN n { s with h := g } with
    | .next t, .next u => u.reg = t.reg ∧ u.mem = t.mem ∧ u.h.phase = t.h.phase
    | .fault r, .fault q => q = r
    | .refused r, .refused q => q = r
    | _, _ => False

/-- R123 with R274: under fairness, and with every access admitted, every command ends: no run stays busy for ever or
gets stuck, unless it was refused before.  Where the codec takes every step, that is after a bounded number of steps, and
the refusal is one of a DISPATCH step or, for an output R72 or R73 forbids, of the end of a scan. -/
def Obligations.EveryRunEnds : Prop :=
  ∀ s : State, Inv s → Fair s → (∀ m u, stepN m s = .next u → accessesAdmitted u) →
    (∃ n, (∃ t, stepN n s = .next t ∧ t.h.phase = .idle) ∨ ∃ r, stepN n s = .refused r) ∧
    (pending s = [] → ∃ n, n ≤ 2 ^ 36 ∧
      ((∃ t, stepN n s = .next t ∧ t.h.phase = .idle) ∨
        (s.h.phase = .dispatch ∧ ∃ r, stepN n s = .refused r) ∨
        (s.h.phase = .extScan ∧
          ∃ r, (r = .regionInRegisterWindow ∨ r = .regionNotPlainMemory) ∧ stepN n s = .refused r)))

/-- R123 and R274, for every order of steps: the bound on the codec steps that a command may still take is 0 exactly in
IDLE and at most 2^36, falls at every codec step of a running command, and is unchanged by what host and other agents do
meanwhile.  So a command ends under every order that gives the codec its steps. -/
def Obligations.CodecStepsLeftFallAtEveryCodecStep : Prop :=
  ∀ s : State, Inv s →
    (codecStepsLeft s = 0 ↔ s.h.phase = .idle) ∧ codecStepsLeft s ≤ 2 ^ 36 ∧
    ∀ t, step s = .next t → s.h.phase ≠ .idle →
      (codecMoves s → codecStepsLeft t < codecStepsLeft s) ∧
      (¬codecMoves s → noReset s → codecStepsLeft t = codecStepsLeft s)

/-- R274: without fairness a run in which the host polls for ever while the codec never steps is possible: a command
stays where it is after every number of polls, and each poll reads BUSY = 1. -/
def Obligations.HostMayPollForever : Prop :=
  ∀ s : State, s.h.phase ≠ .idle → s.inputs = [] → s.cycle = [.regRead 0x08 4] →
    ∀ n, ∃ t, stepN n s = .next t ∧ t = { s with rdData := t.rdData } ∧ pending t = [.regRead 0x08 4] ∧
      (0 < n → ∃ w, t.rdData = some w ∧ w.getLsbD 0 = true)
end

