-- ==== Sys2Proof/Laws/State.lean ====
section
/-! SUPPORT. One lemma per field of State per update: what each named operation leaves in it.  Later proofs cite
these and unfold no record update. -/

namespace Sys2Proof.Machine

@[simp] theorem complete_cfg (e : ErrCode) (s : State) : (complete e s).cfg = s.cfg := rfl
@[simp] theorem complete_mem (e : ErrCode) (s : State) : (complete e s).mem = s.mem := rfl
@[simp] theorem complete_inputs (e : ErrCode) (s : State) : (complete e s).inputs = s.inputs := rfl
@[simp] theorem complete_cycle (e : ErrCode) (s : State) : (complete e s).cycle = s.cycle := rfl
@[simp] theorem complete_owned (e : ErrCode) (s : State) : (complete e s).owned = s.owned := rfl
@[simp] theorem complete_rdData (e : ErrCode) (s : State) : (complete e s).rdData = s.rdData := rfl
@[simp] theorem complete_reg (e : ErrCode) (s : State) :
    (complete e s).reg = { s.reg with err := e, done := true } := rfl
@[simp] theorem complete_h (e : ErrCode) (s : State) : (complete e s).h = { s.h with phase := .idle } := rfl

@[simp] theorem latchCap_cfg (s : State) : (latchCap s).cfg = s.cfg := rfl
@[simp] theorem latchCap_mem (s : State) : (latchCap s).mem = s.mem := rfl
@[simp] theorem latchCap_inputs (s : State) : (latchCap s).inputs = s.inputs := rfl
@[simp] theorem latchCap_cycle (s : State) : (latchCap s).cycle = s.cycle := rfl
@[simp] theorem latchCap_owned (s : State) : (latchCap s).owned = s.owned := rfl
@[simp] theorem latchCap_rdData (s : State) : (latchCap s).rdData = s.rdData := rfl
@[simp] theorem latchCap_h (s : State) : (latchCap s).h = s.h := rfl

/-- latchCap changes no register but the CAP_* registers. -/
theorem latchCap_reg (s : State) :
    (latchCap s).reg =
      { s.reg with
        capBitsLo := (latchCap s).reg.capBitsLo, capBitsHi := (latchCap s).reg.capBitsHi
        capBytes := (latchCap s).reg.capBytes, capChars := (latchCap s).reg.capChars } := rfl

@[simp] theorem acceptCommand_cfg (v : Word) (s : State) : (acceptCommand v s).cfg = s.cfg := rfl
@[simp] theorem acceptCommand_mem (v : Word) (s : State) : (acceptCommand v s).mem = s.mem := rfl
@[simp] theorem acceptCommand_inputs (v : Word) (s : State) : (acceptCommand v s).inputs = s.inputs := rfl
@[simp] theorem acceptCommand_cycle (v : Word) (s : State) : (acceptCommand v s).cycle = s.cycle := rfl
@[simp] theorem acceptCommand_owned (v : Word) (s : State) :
    (acceptCommand v s).owned = wordRegions v s.reg ++ s.owned := rfl
@[simp] theorem acceptCommand_rdData (v : Word) (s : State) : (acceptCommand v s).rdData = s.rdData := rfl
@[simp] theorem acceptCommand_reg (v : Word) (s : State) :
    (acceptCommand v s).reg = { s.reg with lastOp := cmdOp v, done := false, err := .none } := rfl
@[simp] theorem acceptCommand_h (v : Word) (s : State) :
    (acceptCommand v s).h = { s.h with op := v, phase := .dispatch } := rfl

@[simp] theorem startEmbed_cfg (s : State) : (startEmbed s).cfg = s.cfg := rfl
@[simp] theorem startEmbed_mem (s : State) : (startEmbed s).mem = s.mem := rfl
@[simp] theorem startEmbed_inputs (s : State) : (startEmbed s).inputs = s.inputs := rfl
@[simp] theorem startEmbed_cycle (s : State) : (startEmbed s).cycle = s.cycle := rfl
@[simp] theorem startEmbed_owned (s : State) : (startEmbed s).owned = s.owned := rfl
@[simp] theorem startEmbed_rdData (s : State) : (startEmbed s).rdData = s.rdData := rfl
@[simp] theorem startEmbed_reg (s : State) : (startEmbed s).reg = s.reg := rfl
@[simp] theorem startEmbed_h (s : State) :
    (startEmbed s).h = { s.h with framedBits := framedBitCount s.reg, k := 0, sr := 0, phase := .embRun } := rfl

@[simp] theorem writeChannel_cfg (s : State) : (writeChannel s).cfg = s.cfg := rfl
@[simp] theorem writeChannel_inputs (s : State) : (writeChannel s).inputs = s.inputs := rfl
@[simp] theorem writeChannel_cycle (s : State) : (writeChannel s).cycle = s.cycle := rfl
@[simp] theorem writeChannel_owned (s : State) : (writeChannel s).owned = s.owned := rfl
@[simp] theorem writeChannel_rdData (s : State) : (writeChannel s).rdData = s.rdData := rfl
@[simp] theorem writeChannel_reg (s : State) : (writeChannel s).reg = s.reg := rfl
@[simp] theorem writeChannel_h (s : State) : (writeChannel s).h = { s.h with sr := framerByte s } := rfl

@[simp] theorem initExtract_cfg (s : State) : (initExtract s).cfg = s.cfg := rfl
@[simp] theorem initExtract_mem (s : State) : (initExtract s).mem = s.mem := rfl
@[simp] theorem initExtract_inputs (s : State) : (initExtract s).inputs = s.inputs := rfl
@[simp] theorem initExtract_cycle (s : State) : (initExtract s).cycle = s.cycle := rfl
@[simp] theorem initExtract_owned (s : State) : (initExtract s).owned = s.owned := rfl
@[simp] theorem initExtract_rdData (s : State) : (initExtract s).rdData = s.rdData := rfl
@[simp] theorem initExtract_reg (s : State) : (initExtract s).reg = { (latchCap s).reg with outLen := 0 } := rfl

@[simp] theorem countChannel_cfg (s : State) : (countChannel s).cfg = s.cfg := rfl
@[simp] theorem countChannel_mem (s : State) : (countChannel s).mem = s.mem := rfl
@[simp] theorem countChannel_inputs (s : State) : (countChannel s).inputs = s.inputs := rfl
@[simp] theorem countChannel_cycle (s : State) : (countChannel s).cycle = s.cycle := rfl
@[simp] theorem countChannel_owned (s : State) : (countChannel s).owned = s.owned := rfl
@[simp] theorem countChannel_rdData (s : State) : (countChannel s).rdData = s.rdData := rfl
@[simp] theorem countChannel_reg (s : State) : (countChannel s).reg = s.reg := rfl
@[simp] theorem countChannel_h (s : State) : (countChannel s).h = { s.h with k := s.h.k + 1 } := rfl

@[simp] theorem startScan_cfg (s : State) : (startScan s).cfg = s.cfg := rfl
@[simp] theorem startScan_mem (s : State) : (startScan s).mem = s.mem := rfl
@[simp] theorem startScan_inputs (s : State) : (startScan s).inputs = s.inputs := rfl
@[simp] theorem startScan_cycle (s : State) : (startScan s).cycle = s.cycle := rfl
@[simp] theorem startScan_owned (s : State) : (startScan s).owned = s.owned := rfl
@[simp] theorem startScan_rdData (s : State) : (startScan s).rdData = s.rdData := rfl
@[simp] theorem startScan_reg (s : State) : (startScan s).reg = { (latchCap s).reg with outLen := 0 } := rfl
@[simp] theorem startScan_h (s : State) : (startScan s).h = { (initExtract s).h with phase := .extScan } := rfl

@[simp] theorem countByte_cfg (s : State) : (countByte s).cfg = s.cfg := rfl
@[simp] theorem countByte_mem (s : State) : (countByte s).mem = s.mem := rfl
@[simp] theorem countByte_inputs (s : State) : (countByte s).inputs = s.inputs := rfl
@[simp] theorem countByte_cycle (s : State) : (countByte s).cycle = s.cycle := rfl
@[simp] theorem countByte_owned (s : State) : (countByte s).owned = s.owned := rfl
@[simp] theorem countByte_rdData (s : State) : (countByte s).rdData = s.rdData := rfl
@[simp] theorem countByte_reg (s : State) : (countByte s).reg = s.reg := rfl
@[simp] theorem countByte_h (s : State) : (countByte s).h = { s.h with nbytes := s.h.nbytes + 1 } := rfl

@[simp] theorem setOutLen_cfg (n : Nat) (s : State) : (setOutLen n s).cfg = s.cfg := rfl
@[simp] theorem setOutLen_mem (n : Nat) (s : State) : (setOutLen n s).mem = s.mem := rfl
@[simp] theorem setOutLen_inputs (n : Nat) (s : State) : (setOutLen n s).inputs = s.inputs := rfl
@[simp] theorem setOutLen_cycle (n : Nat) (s : State) : (setOutLen n s).cycle = s.cycle := rfl
@[simp] theorem setOutLen_owned (n : Nat) (s : State) : (setOutLen n s).owned = s.owned := rfl
@[simp] theorem setOutLen_rdData (n : Nat) (s : State) : (setOutLen n s).rdData = s.rdData := rfl
@[simp] theorem setOutLen_reg (n : Nat) (s : State) :
    (setOutLen n s).reg = { s.reg with outLen := BitVec.ofNat 32 n } := rfl
@[simp] theorem setOutLen_h (n : Nat) (s : State) : (setOutLen n s).h = s.h := rfl

@[simp] theorem startCopy_cfg (s : State) : (startCopy s).cfg = s.cfg := rfl
@[simp] theorem startCopy_mem (s : State) : (startCopy s).mem = s.mem := rfl
@[simp] theorem startCopy_inputs (s : State) : (startCopy s).inputs = s.inputs := rfl
@[simp] theorem startCopy_cycle (s : State) : (startCopy s).cycle = s.cycle := rfl
@[simp] theorem startCopy_owned (s : State) : (startCopy s).owned = s.owned := rfl
@[simp] theorem startCopy_rdData (s : State) : (startCopy s).rdData = s.rdData := rfl
@[simp] theorem startCopy_reg (s : State) : (startCopy s).reg = s.reg := rfl
@[simp] theorem startCopy_h (s : State) : (startCopy s).h = { s.h with k := 0, sr := 0, phase := .extCopy } := rfl

@[simp] theorem readBit_cfg (s : State) : (readBit s).cfg = s.cfg := rfl
@[simp] theorem readBit_mem (s : State) : (readBit s).mem = s.mem := rfl
@[simp] theorem readBit_inputs (s : State) : (readBit s).inputs = s.inputs := rfl
@[simp] theorem readBit_cycle (s : State) : (readBit s).cycle = s.cycle := rfl
@[simp] theorem readBit_owned (s : State) : (readBit s).owned = s.owned := rfl
@[simp] theorem readBit_rdData (s : State) : (readBit s).rdData = s.rdData := rfl
@[simp] theorem readBit_reg (s : State) : (readBit s).reg = s.reg := rfl
@[simp] theorem readBit_h (s : State) :
    (readBit s).h = { s.h with sr := shiftInLsb s.h.sr (memRead s.mem (chanAddr s.reg s.h.k)), k := s.h.k + 1 } := rfl

@[simp] theorem resetSlc_cfg (s : State) : (resetSlc s).cfg = s.cfg := rfl
@[simp] theorem resetSlc_mem (s : State) : (resetSlc s).mem = s.mem := rfl
@[simp] theorem resetSlc_inputs (s : State) : (resetSlc s).inputs = s.inputs := rfl
@[simp] theorem resetSlc_cycle (s : State) : (resetSlc s).cycle = s.cycle := rfl
@[simp] theorem resetSlc_owned (s : State) : (resetSlc s).owned = s.owned := rfl
@[simp] theorem resetSlc_rdData (s : State) : (resetSlc s).rdData = s.rdData := rfl
@[simp] theorem resetSlc_reg (s : State) : (resetSlc s).reg = Regs.reset := rfl
@[simp] theorem resetSlc_h (s : State) : (resetSlc s).h = Hidden.reset := rfl

@[simp] theorem advanceEmbed_cfg (s : State) : (advanceEmbed s).cfg = s.cfg := by
  simp only [advanceEmbed]; split <;> rfl
@[simp] theorem advanceEmbed_mem (s : State) : (advanceEmbed s).mem = s.mem := by
  simp only [advanceEmbed]; split <;> rfl
@[simp] theorem advanceEmbed_inputs (s : State) : (advanceEmbed s).inputs = s.inputs := by
  simp only [advanceEmbed]; split <;> rfl
@[simp] theorem advanceEmbed_cycle (s : State) : (advanceEmbed s).cycle = s.cycle := by
  simp only [advanceEmbed]; split <;> rfl
@[simp] theorem advanceEmbed_owned (s : State) : (advanceEmbed s).owned = s.owned := by
  simp only [advanceEmbed]; split <;> rfl
@[simp] theorem advanceEmbed_rdData (s : State) : (advanceEmbed s).rdData = s.rdData := by
  simp only [advanceEmbed]; split <;> rfl

@[simp] theorem enterWindow_cfg (b : Byte) (s : State) : (enterWindow b s).cfg = s.cfg := by
  simp only [enterWindow]; split <;> rfl
@[simp] theorem enterWindow_mem (b : Byte) (s : State) : (enterWindow b s).mem = s.mem := by
  simp only [enterWindow]; split <;> rfl
@[simp] theorem enterWindow_inputs (b : Byte) (s : State) : (enterWindow b s).inputs = s.inputs := by
  simp only [enterWindow]; split <;> rfl
@[simp] theorem enterWindow_cycle (b : Byte) (s : State) : (enterWindow b s).cycle = s.cycle := by
  simp only [enterWindow]; split <;> rfl
@[simp] theorem enterWindow_owned (b : Byte) (s : State) : (enterWindow b s).owned = s.owned := by
  simp only [enterWindow]; split <;> rfl
@[simp] theorem enterWindow_rdData (b : Byte) (s : State) : (enterWindow b s).rdData = s.rdData := by
  simp only [enterWindow]; split <;> rfl
@[simp] theorem enterWindow_reg (b : Byte) (s : State) : (enterWindow b s).reg = s.reg := by
  simp only [enterWindow]; split <;> rfl

@[simp] theorem latchMatch_cfg (s : State) : (latchMatch s).cfg = s.cfg := by
  simp only [latchMatch]; split <;> rfl
@[simp] theorem latchMatch_mem (s : State) : (latchMatch s).mem = s.mem := by
  simp only [latchMatch]; split <;> rfl
@[simp] theorem latchMatch_inputs (s : State) : (latchMatch s).inputs = s.inputs := by
  simp only [latchMatch]; split <;> rfl
@[simp] theorem latchMatch_cycle (s : State) : (latchMatch s).cycle = s.cycle := by
  simp only [latchMatch]; split <;> rfl
@[simp] theorem latchMatch_owned (s : State) : (latchMatch s).owned = s.owned := by
  simp only [latchMatch]; split <;> rfl
@[simp] theorem latchMatch_rdData (s : State) : (latchMatch s).rdData = s.rdData := by
  simp only [latchMatch]; split <;> rfl
@[simp] theorem latchMatch_reg (s : State) : (latchMatch s).reg = s.reg := by
  simp only [latchMatch]; split <;> rfl

@[simp] theorem detectMarker_cfg (b : Byte) (s : State) : (detectMarker b s).cfg = s.cfg := by simp [detectMarker]
@[simp] theorem detectMarker_mem (b : Byte) (s : State) : (detectMarker b s).mem = s.mem := by simp [detectMarker]
@[simp] theorem detectMarker_inputs (b : Byte) (s : State) :
    (detectMarker b s).inputs = s.inputs := by simp [detectMarker]
@[simp] theorem detectMarker_cycle (b : Byte) (s : State) :
    (detectMarker b s).cycle = s.cycle := by simp [detectMarker]
@[simp] theorem detectMarker_owned (b : Byte) (s : State) :
    (detectMarker b s).owned = s.owned := by simp [detectMarker]
@[simp] theorem detectMarker_rdData (b : Byte) (s : State) :
    (detectMarker b s).rdData = s.rdData := by simp [detectMarker]
@[simp] theorem detectMarker_reg (b : Byte) (s : State) : (detectMarker b s).reg = s.reg := by simp [detectMarker]

@[simp] theorem completeByte_cfg (s : State) : (completeByte s).cfg = s.cfg := by
  simp only [completeByte]; split
  · split <;> simp
  · rfl
@[simp] theorem completeByte_mem (s : State) : (completeByte s).mem = s.mem := by
  simp only [completeByte]; split
  · split <;> simp
  · rfl
@[simp] theorem completeByte_inputs (s : State) : (completeByte s).inputs = s.inputs := by
  simp only [completeByte]; split
  · split <;> simp
  · rfl
@[simp] theorem completeByte_cycle (s : State) : (completeByte s).cycle = s.cycle := by
  simp only [completeByte]; split
  · split <;> simp
  · rfl
@[simp] theorem completeByte_owned (s : State) : (completeByte s).owned = s.owned := by
  simp only [completeByte]; split
  · split <;> simp
  · rfl
@[simp] theorem completeByte_rdData (s : State) : (completeByte s).rdData = s.rdData := by
  simp only [completeByte]; split
  · split <;> simp
  · rfl
@[simp] theorem completeByte_reg (s : State) : (completeByte s).reg = s.reg := by
  simp only [completeByte]; split
  · split <;> simp
  · rfl

@[simp] theorem writeOutput_cfg (s : State) : (writeOutput s).cfg = s.cfg := by
  simp only [writeOutput]; split <;> rfl
@[simp] theorem writeOutput_inputs (s : State) : (writeOutput s).inputs = s.inputs := by
  simp only [writeOutput]; split <;> rfl
@[simp] theorem writeOutput_cycle (s : State) : (writeOutput s).cycle = s.cycle := by
  simp only [writeOutput]; split <;> rfl
@[simp] theorem writeOutput_owned (s : State) : (writeOutput s).owned = s.owned := by
  simp only [writeOutput]; split <;> rfl
@[simp] theorem writeOutput_rdData (s : State) : (writeOutput s).rdData = s.rdData := by
  simp only [writeOutput]; split <;> rfl
@[simp] theorem writeOutput_reg (s : State) : (writeOutput s).reg = s.reg := by
  simp only [writeOutput]; split <;> rfl
@[simp] theorem writeOutput_h (s : State) : (writeOutput s).h = s.h := by
  simp only [writeOutput]; split <;> rfl

@[simp] theorem endCopy_cfg (s : State) : (endCopy s).cfg = s.cfg := by
  simp only [endCopy]; split <;> rfl
@[simp] theorem endCopy_mem (s : State) : (endCopy s).mem = s.mem := by
  simp only [endCopy]; split <;> rfl
@[simp] theorem endCopy_inputs (s : State) : (endCopy s).inputs = s.inputs := by
  simp only [endCopy]; split <;> rfl
@[simp] theorem endCopy_cycle (s : State) : (endCopy s).cycle = s.cycle := by
  simp only [endCopy]; split <;> rfl
@[simp] theorem endCopy_owned (s : State) : (endCopy s).owned = s.owned := by
  simp only [endCopy]; split <;> rfl
@[simp] theorem endCopy_rdData (s : State) : (endCopy s).rdData = s.rdData := by
  simp only [endCopy]; split <;> rfl

@[simp] theorem observe_cfg (r : Reg) (s : State) : (observe r s).cfg = s.cfg := by
  simp only [observe]; split <;> rfl
@[simp] theorem observe_mem (r : Reg) (s : State) : (observe r s).mem = s.mem := by
  simp only [observe]; split <;> rfl
@[simp] theorem observe_inputs (r : Reg) (s : State) : (observe r s).inputs = s.inputs := by
  simp only [observe]; split <;> rfl
@[simp] theorem observe_cycle (r : Reg) (s : State) : (observe r s).cycle = s.cycle := by
  simp only [observe]; split <;> rfl
@[simp] theorem observe_rdData (r : Reg) (s : State) : (observe r s).rdData = s.rdData := by
  simp only [observe]; split <;> rfl
@[simp] theorem observe_reg (r : Reg) (s : State) : (observe r s).reg = s.reg := by
  simp only [observe]; split <;> rfl
@[simp] theorem observe_h (r : Reg) (s : State) : (observe r s).h = s.h := by
  simp only [observe]; split <;> rfl

@[simp] theorem readReg_cfg (r : Reg) (s : State) : (readReg r s).cfg = s.cfg := by simp [readReg]
@[simp] theorem readReg_mem (r : Reg) (s : State) : (readReg r s).mem = s.mem := by simp [readReg]
@[simp] theorem readReg_inputs (r : Reg) (s : State) : (readReg r s).inputs = s.inputs := by simp [readReg]
@[simp] theorem readReg_cycle (r : Reg) (s : State) : (readReg r s).cycle = s.cycle := by simp [readReg]
@[simp] theorem readReg_reg (r : Reg) (s : State) : (readReg r s).reg = s.reg := by simp [readReg]
@[simp] theorem readReg_h (r : Reg) (s : State) : (readReg r s).h = s.h := by simp [readReg]

@[simp] theorem writeIdleReg_cfg (r : Reg) (v : Word) (s : State) :
    (writeIdleReg r v s).cfg = s.cfg := by cases r <;> rfl
@[simp] theorem writeIdleReg_mem (r : Reg) (v : Word) (s : State) :
    (writeIdleReg r v s).mem = s.mem := by cases r <;> rfl
@[simp] theorem writeIdleReg_inputs (r : Reg) (v : Word) (s : State) :
    (writeIdleReg r v s).inputs = s.inputs := by cases r <;> rfl
@[simp] theorem writeIdleReg_cycle (r : Reg) (v : Word) (s : State) :
    (writeIdleReg r v s).cycle = s.cycle := by cases r <;> rfl
@[simp] theorem writeIdleReg_rdData (r : Reg) (v : Word) (s : State) :
    (writeIdleReg r v s).rdData = s.rdData := by cases r <;> rfl

@[simp] theorem writeReg_cfg (r : Reg) (v : Word) (s : State) : (writeReg r v s).cfg = s.cfg := by
  simp only [writeReg]; split
  · rfl
  · simp
@[simp] theorem writeReg_mem (r : Reg) (v : Word) (s : State) : (writeReg r v s).mem = s.mem := by
  simp only [writeReg]; split
  · rfl
  · simp
@[simp] theorem writeReg_inputs (r : Reg) (v : Word) (s : State) : (writeReg r v s).inputs = s.inputs := by
  simp only [writeReg]; split
  · rfl
  · simp
@[simp] theorem writeReg_cycle (r : Reg) (v : Word) (s : State) : (writeReg r v s).cycle = s.cycle := by
  simp only [writeReg]; split
  · rfl
  · simp
@[simp] theorem writeReg_rdData (r : Reg) (v : Word) (s : State) : (writeReg r v s).rdData = s.rdData := by
  simp only [writeReg]; split
  · rfl
  · simp

end Sys2Proof.Machine
end

