-- ==== Sys2Proof/Laws/Step.lean ====
section
/-! SUPPORT. What a step can do, said once: the inversion lemmas of the atomic codec step, the codec step, the input
step and the step of the machine.  Proofs about steps case on these and unfold no step function. -/

namespace Sys2Proof.Machine

theorem firstNotAdmitted_none (cfg : Config) (accs : List Access) :
    firstNotAdmitted cfg accs = none ↔ ∀ acc ∈ accs, admits cfg acc = true := by
  simp [firstNotAdmitted, List.find?_eq_none]

theorem firstNotAdmitted_some {cfg : Config} {accs : List Access} {acc : Access}
    (h : firstNotAdmitted cfg accs = some acc) : acc ∈ accs ∧ admits cfg acc = false := by
  have h1 := List.mem_of_find?_eq_some h
  have h2 := List.find?_some h
  exact ⟨h1, by simpa using h2⟩

/-- An atomic step happens exactly when every access is admitted, and then as a whole. -/
theorem atomicStep_next {cfg : Config} {accs : List Access} {r : Result} {u : State} :
    atomicStep cfg accs r = .next u ↔ (∀ acc ∈ accs, admits cfg acc = true) ∧ r = .next u := by
  rw [← firstNotAdmitted_none]
  unfold atomicStep
  cases firstNotAdmitted cfg accs <;> simp

/-- An atomic step is refused exactly when every access is admitted and its effect is refused. -/
theorem atomicStep_refused {cfg : Config} {accs : List Access} {r : Result} {p : Refusal} :
    atomicStep cfg accs r = .refused p ↔ (∀ acc ∈ accs, admits cfg acc = true) ∧ r = .refused p := by
  rw [← firstNotAdmitted_none]
  unfold atomicStep
  cases firstNotAdmitted cfg accs <;> simp

/-- The four ways a scan step can end in a next state. -/
inductive ScanEnd (s : State) : State → Prop
  | goesOn (h : s.h.k ≠ s.h.scanBits) : ScanEnd s s
  | absent (h : s.h.k = s.h.scanBits) (hf : s.h.found = false) : ScanEnd s (complete .noPayloadFound s)
  | empty (h : s.h.k = s.h.scanBits) (hf : s.h.found = true) (hi : s.h.idx = 0) :
      ScanEnd s (complete .none (setOutLen 0 s))
  | copies (h : s.h.k = s.h.scanBits) (hf : s.h.found = true) (hi : s.h.idx ≠ 0)
      (ho : outputProblem s.cfg s.reg s.h.idx = none) : ScanEnd s (startCopy s)

/-- The end of a scan step that answers a next state is one of `ScanEnd`'s cases. -/
theorem endScan_next {s t : State} (h : endScan s = .next t) : ScanEnd s t := by
  unfold endScan at h
  split at h
  · split at h
    · split at h
      · cases h; exact .empty ‹_› ‹_› ‹_›
      · split at h
        · cases h
        · cases h; exact .copies ‹_› ‹_› ‹_› ‹_›
    · rename_i hk hf
      cases h; exact .absent hk (by simpa using hf)
  · cases h; exact .goesOn ‹_›

/-- The end of a scan step is refused only where a match at an index above 0 has an output that is. -/
theorem endScan_refused {s : State} {r : Refusal} (h : endScan s = .refused r) :
    s.h.k = s.h.scanBits ∧ s.h.found = true ∧ s.h.idx ≠ 0 ∧ outputProblem s.cfg s.reg s.h.idx = some r := by
  unfold endScan at h
  split at h
  · split at h
    · split at h
      · cases h
      · split at h
        · cases h; exact ⟨‹_›, ‹_›, ‹_›, ‹_›⟩
        · cases h
    · cases h
  · cases h

/-- The end of a scan step touches nothing but the registers and the hidden state. -/
theorem ScanEnd.frame {s t : State} (h : ScanEnd s t) :
    t.cfg = s.cfg ∧ t.mem = s.mem ∧ t.inputs = s.inputs ∧ t.cycle = s.cycle ∧ t.owned = s.owned ∧
      t.rdData = s.rdData := by
  cases h <;> exact ⟨rfl, rfl, rfl, rfl, rfl, rfl⟩

/-- Every way a codec step can answer a next state. -/
inductive CodecMove (s : State) : State → Prop
  | idle (hp : s.h.phase = .idle) : CodecMove s s
  | illegal (hp : s.h.phase = .dispatch) (why : Illegal) (hd : decode s.h.op = .illegal why) :
      CodecMove s (complete .illegalCommand s)
  | nop (hp : s.h.phase = .dispatch) (hd : decode s.h.op = .instr .nop) : CodecMove s (complete .none s)
  | cap (hp : s.h.phase = .dispatch) (hd : decode s.h.op = .instr .cap) :
      CodecMove s (complete .none (latchCap s))
  | embedTooLarge (hp : s.h.phase = .dispatch) (hd : decode s.h.op = .instr .embed)
      (hc : framedBitCount s.reg > imageCapBits s) : CodecMove s (complete .payloadTooLarge (latchCap s))
  | embedStart (hp : s.h.phase = .dispatch) (hd : decode s.h.op = .instr .embed)
      (hc : framedBitCount s.reg ≤ imageCapBits s)
      (hr : embedProblem s.cfg s.reg = none) : CodecMove s (startEmbed (latchCap s))
  | extractEmpty (hp : s.h.phase = .dispatch) (hd : decode s.h.op = .instr .extract)
      (hc : imageCapBits s = 0) : CodecMove s (complete .noPayloadFound (initExtract s))
  | extractStart (hp : s.h.phase = .dispatch) (hd : decode s.h.op = .instr .extract)
      (hc : imageCapBits s ≠ 0)
      (hr : extractProblem s.cfg s.reg = none) :
      CodecMove s (startScan s)
  | embRun (hp : s.h.phase = .embRun) (ha : ∀ acc ∈ embedAccesses s, admits s.cfg acc = true) :
      CodecMove s (advanceEmbed (writeChannel s))
  | extScan (hp : s.h.phase = .extScan)
      (ha : admits s.cfg { kind := .read, addr := chanAddr s.reg s.h.k } = true) (t : State)
      (he : ScanEnd (completeByte (readBit s)) t) : CodecMove s t
  | extCopy (hp : s.h.phase = .extCopy) (ha : ∀ acc ∈ copyAccesses s, admits s.cfg acc = true) :
      CodecMove s (endCopy (writeOutput (readBit s)))

/-- A codec step that answers a next state is one of `CodecMove`'s cases. -/
theorem codecStep_next {s t : State} (h : codecStep s = .next t) : CodecMove s t := by
  unfold codecStep at h
  split at h <;> rename_i hp
  · cases h; exact .idle hp
  · unfold dispatchStep at h
    split at h <;> rename_i hd
    · rename_i i
      cases i <;> simp only [exec] at h
      · cases h; exact .nop hp hd
      · cases h; exact .cap hp hd
      · unfold execEmbed at h
        split at h
        · cases h; exact .embedTooLarge hp hd ‹_›
        · split at h
          · cases h
          · cases h; exact .embedStart hp hd (by omega) ‹_›
      · unfold execExtract at h
        split at h
        · cases h; exact .extractEmpty hp hd ‹_›
        · split at h
          · cases h
          · cases h; exact .extractStart hp hd ‹_› ‹_›
    · rename_i why
      cases h; exact .illegal hp why hd
  · obtain ⟨ha, h⟩ := atomicStep_next.1 h
    cases h; exact .embRun hp ha
  · obtain ⟨ha, h⟩ := atomicStep_next.1 h
    exact .extScan hp (ha _ (List.mem_singleton.2 rfl)) t (endScan_next h)
  · obtain ⟨ha, h⟩ := atomicStep_next.1 h
    cases h; exact .extCopy hp ha

/-- Every way a pending entry other than a codec turn can be answered with a next state. -/
inductive OutsideMove (s : State) : Input → State → Prop
  | regRead (off : BitVec 6) (bytes : Nat) (r : Reg) (hd : decodeReg off bytes = some r) :
      OutsideMove s (.regRead off bytes) (readReg r s)
  | regWrite (off : BitVec 6) (bytes : Nat) (v : Word) (r : Reg) (hd : decodeReg off bytes = some r) :
      OutsideMove s (.regWrite off bytes v) (writeReg r v s)
  | memRead (a : Word) (hp : agentProblem .read a s = none) :
      OutsideMove s (.memRead a) { s with rdData := some ((memRead s.mem a).setWidth 32) }
  | memWrite (a : Word) (v : Byte) (hp : agentProblem .write a s = none) :
      OutsideMove s (.memWrite a v) { s with mem := memWrite s.mem a v }
  | reset : OutsideMove s .reset (resetSlc s)

/-- An input step that answers a next state is a codec turn or one of `OutsideMove`'s cases. -/
theorem inputStep_next {i : Input} {s t : State} (h : inputStep i s = .next t) :
    (i = .codec ∧ CodecMove s t) ∨ OutsideMove s i t := by
  cases i with
  | codec => exact .inl ⟨rfl, codecStep_next h⟩
  | regRead off bytes =>
    simp only [inputStep, hostReadReg] at h
    split at h
    · cases h; exact .inr (.regRead off bytes _ ‹_›)
    · cases h
  | regWrite off bytes v =>
    simp only [inputStep, hostWriteReg] at h
    split at h
    · cases h; exact .inr (.regWrite off bytes v _ ‹_›)
    · cases h
  | memRead a =>
    simp only [inputStep, agentRead] at h
    split at h
    · cases h
    · cases h; exact .inr (.memRead a ‹_›)
  | memWrite a v =>
    simp only [inputStep, agentWrite] at h
    split at h
    · cases h
    · cases h; exact .inr (.memWrite a v ‹_›)
  | reset => cases h; exact .inr .reset

/-- While the list is not exhausted, what is pending is the list. -/
theorem pending_of_inputs {s : State} {i : Input} {rest : List Input} (h : s.inputs = i :: rest) :
    pending s = i :: rest := by
  simp only [pending, h]

/-- Once the list is exhausted, what is pending is the cycle. -/
theorem pending_of_exhausted {s : State} (h : s.inputs = []) : pending s = s.cycle := by
  simp only [pending, h]

/-- Nothing is pending exactly when both the list and the cycle are empty. -/
theorem pending_eq_nil {s : State} : pending s = [] ↔ s.inputs = [] ∧ s.cycle = [] := by
  unfold pending
  cases s.inputs <;> simp

/-- What is pending depends on the list and the cycle alone. -/
theorem pending_congr {s t : State} (hi : t.inputs = s.inputs) (hc : t.cycle = s.cycle) : pending t = pending s := by
  simp only [pending, hi, hc]

/-- A step of the machine that answers a next state: the codec moves, unasked or at its turn in what is pending, or
the first pending entry is something from outside. -/
theorem step_next {s t : State} (h : step s = .next t) :
    (pending s = [] ∧ CodecMove s t) ∨
      (∃ rest, pending s = .codec :: rest ∧ CodecMove { s with inputs := rest } t) ∨
      ∃ i rest, pending s = i :: rest ∧ OutsideMove { s with inputs := rest } i t := by
  unfold step nextMove at h
  split at h
  · exact .inl ⟨‹_›, codecStep_next h⟩
  · rename_i i rest hin
    rcases inputStep_next h with ⟨rfl, hm⟩ | hm
    · exact .inr (.inl ⟨rest, hin, hm⟩)
    · exact .inr (.inr ⟨i, rest, hin, hm⟩)

/-- With nothing pending from outside, the machine's step is the codec's. -/
theorem step_of_no_inputs {s : State} (h : pending s = []) : step s = codecStep s := by
  unfold step nextMove
  rw [h]

/-- With an entry pending, the machine's step is that entry's. -/
theorem step_of_input {s : State} {i : Input} {rest : List Input} (h : pending s = i :: rest) :
    step s = inputStep i { s with inputs := rest } := by
  unfold step nextMove
  rw [h]

end Sys2Proof.Machine

namespace Sys2Proof

open Machine

@[simp] theorem stepN_zero (s : State) : stepN 0 s = .next s := rfl

theorem stepN_succ (n : Nat) (s t : State) (h : step s = .next t) : stepN (n + 1) s = stepN n t := by
  simp only [stepN, h]

/-- A run of `m + n` steps is a run of `m` and then a run of `n`. -/
theorem stepN_add {m n : Nat} {s t : State} (h : stepN m s = .next t) : stepN (m + n) s = stepN n t := by
  induction m generalizing s with
  | zero => cases h; rw [Nat.zero_add]
  | succ m ih =>
    rw [Nat.succ_add]
    cases hs : step s with
    | next u =>
      rw [stepN_succ _ _ _ hs] at h ⊢
      exact ih h
    | fault r => simp [stepN, hs] at h
    | refused r => simp [stepN, hs] at h

end Sys2Proof
end

