-- ==== Sys2Proof/Laws/Bus.lean ====
section
/-! SUPPORT. What register transactions do: the decoder of offsets, a write while busy and while idle, and what STATUS
depends on. -/

namespace Sys2Proof.Machine

@[simp] theorem decodeReg_regOffset (r : Reg) : decodeReg (regOffset r) 4 = some r := by
  cases r <;> rfl

theorem busy_eq_true {s : State} : busy s = true ↔ s.h.phase ≠ .idle := by
  simp [busy]

theorem busy_eq_false {s : State} : busy s = false ↔ s.h.phase = .idle := by
  simp [busy]

/-- A register write while a command runs changes nothing. -/
theorem writeReg_of_busy {s : State} (h : s.h.phase ≠ .idle) (r : Reg) (v : Word) : writeReg r v s = s := by
  rw [writeReg, if_pos (busy_eq_true.2 h)]

/-- A register write while idle. -/
theorem writeReg_of_idle {s : State} (h : s.h.phase = .idle) (r : Reg) (v : Word) :
    writeReg r v s = writeIdleReg r v s := by
  rw [writeReg, if_neg (by rw [busy_eq_false.2 h]; decide)]

/-- STATUS depends on DONE, ERR, LAST_OP and the phase alone. -/
theorem statusWord_congr {s t : State} (hf : flagsOf t.reg = flagsOf s.reg)
    (hp : t.h.phase = .idle ↔ s.h.phase = .idle) : statusWord t = statusWord s := by
  simp only [flagsOf, Prod.mk.injEq] at hf
  have hb : busy t = busy s := by simp [busy, hp]
  simp [statusWord, hf.1, hf.2.1, hf.2.2, hb]

/-- What an access that `agentProblem` finds nothing wrong with reaches: no register, no owned region it must not
touch, and plain memory. -/
theorem agentProblem_none {kind : AccessKind} {a : Word} {s : State} (h : agentProblem kind a s = none) :
    (registerWindow s.cfg).contains a = false ∧
      (∀ o ∈ s.owned, kind = .write ∨ o.written = true → o.region.contains a = false) ∧
      ∀ r ∈ s.cfg.notPlain, r.contains a = false := by
  unfold agentProblem at h
  split at h
  · cases h
  · rename_i hw
    split at h
    · cases h
    · rename_i ho
      split at h
      · cases h
      · rename_i hn
        refine ⟨by simpa using hw, fun o hm hk => ?_, fun r hr => ?_⟩
        · rw [← Bool.not_eq_true]
          intro hc
          exact ho (List.any_eq_true.2 ⟨o, hm, by rcases hk with hk | hk <;> simp [hk, hc]⟩)
        · rw [← Bool.not_eq_true]
          intro hc
          exact hn (List.any_eq_true.2 ⟨r, hr, hc⟩)

/-- The step after `withFetchWord` is the DISPATCH step of the word. -/
theorem step_withFetchWord (s : State) (nbits w : Nat) :
    step (s.withFetchWord nbits w) = dispatchStep (s.withFetchWord nbits w) :=
  step_of_no_inputs rfl

/-- latchCap latches the exact figures: none of them overflows its register (R144). -/
theorem latchCap_capacity (s : State) : CapacityLatched s (latchCap s) := by
  have hw := s.reg.width.isLt
  have hh := s.reg.height.isLt
  have hb : 3 * s.reg.width.toNat * s.reg.height.toNat ≤ 3 * 65535 * 65535 :=
    Nat.mul_le_mul (Nat.mul_le_mul_left _ (by omega)) (by omega)
  constructor <;>
    simp only [latchCap, imageCapBits, capBits, imageWidth, imageHeight, BitVec.toNat_ofNat] <;>
    omega

end Sys2Proof.Machine
end

