-- ==== Sys2Proof/Laws/Codec.lean ====
section
/-! SUPPORT. What the parts of a codec step do to the hidden state, field by field, and the cases of the steps that can
end a phase. -/

namespace Sys2Proof.Machine

/-- The marker detector changes nothing of the hidden state but the window, its count and the match. -/
theorem detectMarker_h (b : Byte) (s : State) :
    (detectMarker b s).h =
      { s.h with win := (detectMarker b s).h.win, wcnt := (detectMarker b s).h.wcnt
                 found := (detectMarker b s).h.found, idx := (detectMarker b s).h.idx } := by
  simp only [detectMarker, latchMatch, enterWindow]
  split <;> split <;> rfl

/-- Entering the window changes nothing of the hidden state but the window and its count. -/
theorem enterWindow_h (b : Byte) (s : State) :
    (enterWindow b s).h = { s.h with win := (enterWindow b s).h.win, wcnt := (enterWindow b s).h.wcnt } := by
  simp only [enterWindow]; split <;> rfl

/-- The comparison changes nothing of the hidden state but the latch. -/
theorem latchMatch_h (s : State) :
    (latchMatch s).h = { s.h with found := (latchMatch s).h.found, idx := (latchMatch s).h.idx } := by
  simp only [latchMatch]; split <;> rfl

theorem detectMarker_window (b : Byte) (s : State) :
    (detectMarker b s).h.wcnt = (enterWindow b s).h.wcnt ∧ (detectMarker b s).h.win = (enterWindow b s).h.win := by
  rw [detectMarker, latchMatch_h]; exact ⟨rfl, rfl⟩

/-- The marker detector's window and count after a byte enters a full window. -/
theorem detectMarker_full (b : Byte) {s : State} (h : s.h.wcnt = 5) :
    (detectMarker b s).h.wcnt = 5 ∧ (detectMarker b s).h.win = s.h.win.push b := by
  rw [(detectMarker_window b s).1, (detectMarker_window b s).2, enterWindow, if_pos h]
  exact ⟨h, rfl⟩

/-- The marker detector's window and count after a byte enters a window that is not full. -/
theorem detectMarker_filling (b : Byte) {s : State} (h : s.h.wcnt ≠ 5) :
    (detectMarker b s).h.wcnt = s.h.wcnt + 1 ∧ (detectMarker b s).h.win = s.h.win.put s.h.wcnt b := by
  rw [(detectMarker_window b s).1, (detectMarker_window b s).2, enterWindow, if_neg h]
  exact ⟨rfl, rfl⟩

/-- The marker detector latches the index of a full window that equals MARKER. -/
theorem detectMarker_match {b : Byte} {s : State} (hc : (detectMarker b s).h.wcnt = 5)
    (hw : (detectMarker b s).h.win = s.cfg.marker) :
    (detectMarker b s).h.found = true ∧ (detectMarker b s).h.idx = s.h.nbytes - 5 := by
  rw [(detectMarker_window b s).1] at hc
  rw [(detectMarker_window b s).2] at hw
  rw [detectMarker, latchMatch, if_pos ⟨hc, by rw [hw, enterWindow_cfg]⟩]
  exact ⟨rfl, by rw [enterWindow_h]⟩

/-- The marker detector leaves the latch alone where the window is not full or differs from MARKER. -/
theorem detectMarker_noMatch {b : Byte} {s : State}
    (h : ¬((detectMarker b s).h.wcnt = 5 ∧ (detectMarker b s).h.win = s.cfg.marker)) :
    (detectMarker b s).h.found = s.h.found ∧ (detectMarker b s).h.idx = s.h.idx := by
  rw [(detectMarker_window b s).1, (detectMarker_window b s).2] at h
  rw [detectMarker, latchMatch, if_neg (by rwa [enterWindow_cfg]), enterWindow_h]
  exact ⟨rfl, rfl⟩

@[simp] theorem completeByte_phase (s : State) : (completeByte s).h.phase = s.h.phase := by
  simp only [completeByte]; split
  · split
    · rfl
    · rw [detectMarker_h]; rfl
  · rfl

@[simp] theorem completeByte_op (s : State) : (completeByte s).h.op = s.h.op := by
  simp only [completeByte]; split
  · split
    · rfl
    · rw [detectMarker_h]; rfl
  · rfl

@[simp] theorem completeByte_k (s : State) : (completeByte s).h.k = s.h.k := by
  simp only [completeByte]; split
  · split
    · rfl
    · rw [detectMarker_h]; rfl
  · rfl

@[simp] theorem completeByte_sr (s : State) : (completeByte s).h.sr = s.h.sr := by
  simp only [completeByte]; split
  · split
    · rfl
    · rw [detectMarker_h]; rfl
  · rfl

@[simp] theorem completeByte_scanBits (s : State) : (completeByte s).h.scanBits = s.h.scanBits := by
  simp only [completeByte]; split
  · split
    · rfl
    · rw [detectMarker_h]; rfl
  · rfl

@[simp] theorem completeByte_framedBits (s : State) : (completeByte s).h.framedBits = s.h.framedBits := by
  simp only [completeByte]; split
  · split
    · rfl
    · rw [detectMarker_h]; rfl
  · rfl

theorem completeByte_nbytes_of_boundary {s : State} (h : s.h.k % 8 = 0) :
    (completeByte s).h.nbytes = s.h.nbytes + 1 := by
  simp only [completeByte, if_pos h]; split
  · rfl
  · rw [detectMarker_h]; rfl

theorem completeByte_of_no_boundary {s : State} (h : s.h.k % 8 ≠ 0) : completeByte s = s := by
  simp only [completeByte, if_neg h]

/-- Between byte boundaries, and once a match is latched, byte completion leaves window, count and match alone. -/
theorem completeByte_of_no_detect {s : State} (h : s.h.k % 8 ≠ 0 ∨ s.h.found = true) :
    (completeByte s).h.win = s.h.win ∧ (completeByte s).h.wcnt = s.h.wcnt ∧
      (completeByte s).h.found = s.h.found ∧ (completeByte s).h.idx = s.h.idx := by
  simp only [completeByte]; split
  · split
    · exact ⟨rfl, rfl, rfl, rfl⟩
    · rcases h with h | h <;> contradiction
  · exact ⟨rfl, rfl, rfl, rfl⟩

/-- At a byte boundary with no match latched, byte completion is the marker detector on the completed byte. -/
theorem completeByte_of_detect {s : State} (hk : s.h.k % 8 = 0) (hf : s.h.found = false) :
    completeByte s = detectMarker s.h.sr (countByte s) := by
  simp only [completeByte]
  rw [if_pos hk, if_neg (by simp [hf])]

/-- The two ways a copy step can end. -/
inductive CopyEnd (s : State) : State → Prop
  | goesOn (h : s.h.k ≠ 8 * s.h.idx) : CopyEnd s s
  | done (h : s.h.k = 8 * s.h.idx) : CopyEnd s (complete .none (setOutLen s.h.idx s))

theorem endCopy_cases (s : State) : CopyEnd s (endCopy s) := by
  simp only [endCopy]; split
  · exact .done ‹_›
  · exact .goesOn ‹_›

/-- The two ways an EMB_RUN step can end. -/
inductive EmbedEnd (s : State) : State → Prop
  | goesOn (h : s.h.k + 1 ≠ s.h.framedBits) : EmbedEnd s (countChannel s)
  | done (h : s.h.k + 1 = s.h.framedBits) : EmbedEnd s (complete .none (countChannel s))

theorem advanceEmbed_cases (s : State) : EmbedEnd s (advanceEmbed s) := by
  simp only [advanceEmbed]; split
  · exact .done ‹_›
  · exact .goesOn ‹_›

/-- No codec step changes the parameters, what is pending, what is owned or what the host last read. -/
theorem CodecMove.frame {s t : State} (h : CodecMove s t) :
    t.cfg = s.cfg ∧ t.inputs = s.inputs ∧ t.cycle = s.cycle ∧ t.owned = s.owned ∧ t.rdData = s.rdData := by
  cases h with
  | extScan hp ha t he =>
    obtain ⟨h1, _, h3, h4, h5, h6⟩ := he.frame
    exact ⟨by simp [h1], by simp [h3], by simp [h4], by simp [h5], by simp [h6]⟩
  | _ => simp

/-- Nothing from outside changes the parameters or what is repeated once the inputs are exhausted. -/
theorem OutsideMove.frame {i : Input} {s t : State} (h : OutsideMove s i t) : t.cfg = s.cfg ∧ t.cycle = s.cycle := by
  cases h <;> simp

/-- No step changes the parameters (R53) or what is repeated once the inputs are exhausted. -/
theorem step_frame {s t : State} (h : step s = .next t) : t.cfg = s.cfg ∧ t.cycle = s.cycle := by
  rcases step_next h with ⟨_, hm⟩ | ⟨_, _, hm⟩ | ⟨_, _, _, hm⟩
  · exact ⟨hm.frame.1, hm.frame.2.2.1⟩
  · exact ⟨hm.frame.1, hm.frame.2.2.1⟩
  · exact hm.frame

/-- No codec step changes an operand register (R59, R95). -/
theorem CodecMove.operands {s t : State} (h : CodecMove s t) : operandsOf t.reg = operandsOf s.reg := by
  cases h with
  | embRun hp ha =>
    have he := advanceEmbed_cases (writeChannel s)
    generalize advanceEmbed (writeChannel s) = t at he
    cases he <;> rfl
  | extScan hp ha t he => cases he <;> simp [operandsOf]
  | extCopy hp ha =>
    have he := endCopy_cases (writeOutput (readBit s))
    generalize endCopy (writeOutput (readBit s)) = t at he
    cases he <;> simp [operandsOf]
  | _ => rfl

end Sys2Proof.Machine

namespace Sys2Proof

open Machine

/-- No run changes the parameters (R53). -/
theorem stepN_cfg {n : Nat} {s t : State} (h : stepN n s = .next t) : t.cfg = s.cfg := by
  induction n generalizing s with
  | zero => cases h; rfl
  | succ n ih =>
    cases hs : step s with
    | next u => rw [stepN_succ _ _ _ hs] at h; rw [ih h, (step_frame hs).1]
    | fault r => simp [stepN, hs] at h
    | refused r => simp [stepN, hs] at h

end Sys2Proof
end

