-- ==== Sys2Proof/Laws/PerInstr.lean ====
section
/-! SUPPORT. Statements made once per command: the shape of a command word. -/

namespace Sys2Proof.Laws.WordShape

/-- The command word of `i` has a zero RSV field, its opcode in `CMD[7:0]`, and decodes to `i` and to nothing else
that is well-formed (R90 to R92). -/
def Statement (i : Instr) : Prop :=
  cmdRsv (encode i) = 0 ∧ cmdOp (encode i) = opcode i ∧ decode (encode i) = .instr i ∧
    ∀ j, encode j = encode i → j = i

theorem nop : Statement .nop :=
  ⟨by decide, by decide, by decide, fun j h => by cases j <;> first | rfl | exact absurd h (by decide)⟩

theorem cap : Statement .cap :=
  ⟨by decide, by decide, by decide, fun j h => by cases j <;> first | rfl | exact absurd h (by decide)⟩

theorem embed : Statement .embed :=
  ⟨by decide, by decide, by decide, fun j h => by cases j <;> first | rfl | exact absurd h (by decide)⟩

theorem extract : Statement .extract :=
  ⟨by decide, by decide, by decide, fun j h => by cases j <;> first | rfl | exact absurd h (by decide)⟩

end Sys2Proof.Laws.WordShape
end

