-- ==== Sys2Proof/Laws/Region.lean ====
section
/-! SUPPORT. Address ranges mod 2^32: what membership and disjointness say, and what a fit pair of regions is. -/

namespace Sys2Proof.Machine

theorem Region.contains_iff (r : Region) (a : Word) : r.contains a = true ↔ (a - r.base).toNat < r.len := by
  simp [Region.contains]

/-- The byte at offset `j` of a range is in the range. -/
theorem Region.contains_offset (r : Region) {j : Nat} (h : j < r.len) :
    r.contains (r.base + BitVec.ofNat 32 j) = true := by
  rw [Region.contains_iff, BitVec.add_comm, BitVec.add_sub_cancel, BitVec.toNat_ofNat]
  exact lt_of_le_of_lt (Nat.mod_le _ _) h

/-- Disjointness as the model computes it says that no address lies in both ranges. -/
theorem Region.disjoint_iff (r q : Region) :
    r.disjoint q = true ↔ ∀ a, ¬(r.contains a = true ∧ q.contains a = true) := by
  constructor
  · intro h a ⟨hr, hq⟩
    rw [Region.contains_iff] at hr hq
    simp only [Region.disjoint, Bool.or_eq_true, beq_iff_eq, Bool.and_eq_true, Bool.not_eq_true',
      ← Bool.not_eq_true, Region.contains_iff] at h
    rcases h with (h | h) | ⟨h1, h2⟩
    · omega
    · omega
    · bv_omega
  · intro h
    simp only [Region.disjoint, Bool.or_eq_true, beq_iff_eq, Bool.and_eq_true, Bool.not_eq_true',
      ← Bool.not_eq_true, Region.contains_iff]
    by_cases hr : r.len = 0
    · exact .inl (.inl hr)
    by_cases hq : q.len = 0
    · exact .inl (.inr hq)
    refine .inr ⟨fun hc => h q.base ⟨?_, ?_⟩, fun hc => h r.base ⟨?_, ?_⟩⟩ <;>
      simp_all [Region.contains_iff] <;> omega

theorem clearOf_iff (rs qs : List Region) :
    clearOf rs qs = true ↔ ∀ r ∈ rs, ∀ q ∈ qs, ∀ a, ¬(r.contains a = true ∧ q.contains a = true) := by
  simp only [clearOf, List.all_eq_true, List.mem_filter, bne_iff_ne, ne_eq, and_imp]
  constructor
  · intro h r hr q hq a hc
    by_cases hl : r.len = 0
    · have := (Region.contains_iff r a).1 hc.1; omega
    · exact (Region.disjoint_iff r q).1 (h r hr hl q hq) a hc
  · intro h r hr _ q hq
    exact (Region.disjoint_iff r q).2 (h r hr q hq)

/-- What `reachProblem` finds nothing wrong with: no reached region meets the register window or memory that is not
plain. -/
theorem reachProblem_none {cfg : Config} {reached : List Region} :
    reachProblem cfg reached = none ↔
      clearOf reached [registerWindow cfg] = true ∧ clearOf reached cfg.notPlain = true := by
  unfold reachProblem
  cases clearOf reached [registerWindow cfg] <;> cases clearOf reached cfg.notPlain <;> simp

/-- What `overlapProblem` finds nothing wrong with: a pixel region that fits the address space and is disjoint from
the other region. -/
theorem overlapProblem_none {pix other : Region} :
    overlapProblem pix other = none ↔ pix.len ≤ memorySize ∧ pix.disjoint other = true := by
  unfold overlapProblem
  by_cases h : pix.len > memorySize
  · simp [h]
  · cases pix.disjoint other <;> simp [h, Nat.not_lt.1 h]

theorem embedProblem_none {cfg : Config} {r : Regs} :
    embedProblem cfg r = none ↔
      overlapProblem (pixRegion r) (payRegion r) = none ∧ reachProblem cfg [pixRegion r, payRegion r] = none := by
  unfold embedProblem
  cases overlapProblem (pixRegion r) (payRegion r) <;> simp

theorem extractProblem_none {cfg : Config} {r : Regs} :
    extractProblem cfg r = none ↔
      overlapProblem (pixRegion r) (outRegion r) = none ∧ reachProblem cfg [pixRegion r] = none := by
  unfold extractProblem
  cases overlapProblem (pixRegion r) (outRegion r) <;> simp

/-- Regions that `overlapProblem` finds nothing wrong with share no address. -/
theorem overlapProblem_none_disjoint {pix other : Region} (h : overlapProblem pix other = none) (a : Word)
    (hp : pix.contains a = true) (ho : other.contains a = true) : False :=
  (Region.disjoint_iff pix other).1 (overlapProblem_none.1 h).2 a ⟨hp, ho⟩

/-- Channel `k` of an image stands in its pixel buffer, and not in an alpha byte (R12). -/
theorem chanIndex_lt {k w h : Nat} (hk : k < 3 * w * h) : chanIndex k < 4 * (w * h) ∧ chanIndex k % 4 ≠ 3 := by
  rw [Nat.mul_assoc] at hk
  unfold chanIndex
  generalize w * h = n at *
  omega

end Sys2Proof.Machine
end

