-- ==== Sys2Proof/Tests/Slice0.lean ====
section
/-! SUPPORT. The model's own tests: words written out from the spec's encoding, ill-formed transactions, one step of
each command against the vectors of spec/95_test_vectors.md, and for every statement with hypotheses a witness that
meets them. -/

namespace Sys2Proof.Tests

open Machine

/-! ## Small states -/

/-- MARKER_T of the vectors: 3C 45 4F 4D 3E (92_eei_decisions.md D12). -/
def markerT : Bytes5 := { b0 := 0x3C, b1 := 0x45, b2 := 0x4F, b3 := 0x4D, b4 := 0x3E }

/-- Hardware with MARKER_T and its window at 0x40000000, every access admitted, all memory plain. -/
def cfgT : Config := { marker := markerT, regBlock := 0x1000000, barred := [], notPlain := [] }

/-- Power-on of that hardware. -/
def s0 : State := State.powerOn cfgT

/-- `s` with a `w` by `h` image, a payload of `n` bytes and the buffers of the vectors. -/
def withImage (w h : BitVec 16) (n : Word) (s : State) : State :=
  { s with
    reg.width := w, reg.height := h, reg.payLen := n
    reg.pixBase := 0x2000, reg.payBase := 0x1000, reg.outBase := 0x3000 }

/-- `s` with the input list `l`. -/
def withInputs (l : List Input) (s : State) : State := { s with inputs := l }

/-- `s` with memory holding the bytes `l` from `a` on. -/
def withBytes (a : Word) (l : List Byte) (s : State) : State :=
  { s with mem := l.zipIdx.foldl (fun m b => memWrite m (a + BitVec.ofNat 32 b.2) b.1) s.mem }

/-- The 4 by 4 image and one payload byte: 48 channels, an exact fit. -/
def exact : State := withImage 4 4 1 s0

/-- `i` accepted on `s`, the DISPATCH step next. -/
def accepted (i : Instr) (s : State) : State := acceptCommand (encode i) s

/-- EMBED running on `exact`, before bit `k`. -/
def embedding (k : Nat) : State :=
  { accepted .embed exact with h.phase := .embRun, h.framedBits := 48, h.k := k }

/-- EXTRACT scanning `exact`, before channel `k`, with the window `w` of `c` bytes and the shift register `sr`. -/
def scanning (k c : Nat) (w : Bytes5) (sr : Byte) : State :=
  { accepted .extract exact with
    h.phase := .extScan, h.scanBits := 48, h.k := k, h.nbytes := k / 8, h.win := w, h.wcnt := c, h.sr := sr }

/-- EXTRACT copying one payload byte out of `exact`, before channel `k`. -/
def copying (k : Nat) : State :=
  { accepted .extract exact with
    h.phase := .extCopy, h.scanBits := 48, h.k := k, h.nbytes := 6, h.win := markerT, h.wcnt := 5
    h.found := true, h.idx := 1 }

/-- Four zero bytes and a window about to be completed by 0x3E. -/
def almost : Bytes5 := { b0 := 0x3C, b1 := 0x45, b2 := 0x4F, b3 := 0x4D, b4 := 0x00 }

/-- The 4 by 4 buffer of zeros with the byte 0x41 embedded. -/
def embedded : List Byte := (embedF markerT 4 4 (List.replicate 64 0) [0x41]).getD []

/-- Whether `r` is a next state that passes `p`. -/
def nextIs (r : Result) (p : State → Bool) : Bool :=
  match r with
  | .next t => p t
  | .fault _ => false
  | .refused _ => false

/-- Whether `r` is the refusal `q`. -/
def refusesWith (r : Result) (q : Refusal) : Bool :=
  match r with
  | .next _ => false
  | .fault _ => false
  | .refused p => decide (p = q)

theorem nextIs_exists {r : Result} {p : State → Bool} (h : nextIs r p = true) : ∃ t, r = .next t ∧ p t = true := by
  cases r with
  | next t => exact ⟨t, rfl, h⟩
  | fault _ => cases h
  | refused _ => cases h

theorem noReset_of_empty {s : State} (h : pending s = []) : noReset s := by
  intro r hr
  rw [h] at hr
  cases hr

/-- The whole invariant as one decidable conjunction, for the witnesses. -/
theorem inv_of_checks {s : State}
    (hp : (busy s = true → s.reg.done = false ∧ s.reg.err = .none) ∧
      (s.h.phase = .embRun → s.h.k < s.h.framedBits) ∧ (s.h.phase = .extScan → s.h.k < s.h.scanBits) ∧
      (s.h.phase = .extCopy → s.h.k < 8 * s.h.idx) ∧ s.h.wcnt ≤ 5 ∧ (s.h.found = true → s.h.wcnt = 5))
    (hc : s.reg.lastOp = cmdOp s.h.op ∧
      (s.h.phase = .embRun → decode s.h.op = .instr .embed ∧ s.h.framedBits = 8 * (s.reg.payLen.toNat + 5) ∧
        s.h.framedBits ≤ 3 * s.reg.width.toNat * s.reg.height.toNat) ∧
      (s.h.phase = .extScan → decode s.h.op = .instr .extract ∧
        s.h.scanBits = 3 * s.reg.width.toNat * s.reg.height.toNat ∧ s.h.nbytes = s.h.k / 8) ∧
      (s.h.phase = .extCopy → decode s.h.op = .instr .extract ∧
        s.h.scanBits = 3 * s.reg.width.toNat * s.reg.height.toNat ∧ s.h.found = true))
    (hn : s.h.k ≤ 2 ^ 34 ∧ s.h.framedBits < 2 ^ 36 ∧ s.h.scanBits < 2 ^ 34 ∧ 8 * s.h.nbytes ≤ s.h.scanBits ∧
      s.h.wcnt ≤ s.h.nbytes ∧ s.h.idx ≤ s.h.nbytes ∧
      (s.h.found = true → s.h.idx + 5 ≤ s.h.nbytes ∧ s.h.win = s.cfg.marker) ∧ s.reg.outLen.toNat < 2 ^ 31 ∧
      (s.reg.done = false → s.reg.err = .none) ∧
      (s.h.phase = .extScan ∨ s.h.phase = .extCopy → s.reg.outLen = 0))
    (ho : (busy s = true → ∀ o ∈ wordRegions s.h.op s.reg, o ∈ s.owned) ∧
      (s.h.phase = .embRun → embedProblem s.cfg s.reg = none) ∧
      (s.h.phase = .extScan ∨ s.h.phase = .extCopy → extractProblem s.cfg s.reg = none) ∧
      (s.h.phase = .extCopy → outputProblem s.cfg s.reg s.h.idx = none))
    (hm : Memory.wf s.mem = true) : Inv s :=
  { phase := ⟨hp.1, hp.2.1, hp.2.2.1, hp.2.2.2.1, hp.2.2.2.2.1, hp.2.2.2.2.2⟩
    command := ⟨hc.1, hc.2.1, hc.2.2.1, hc.2.2.2⟩
    counter := ⟨hn.1, hn.2.1, hn.2.2.1, hn.2.2.2.1, hn.2.2.2.2.1, hn.2.2.2.2.2.1, hn.2.2.2.2.2.2.1,
      hn.2.2.2.2.2.2.2.1, hn.2.2.2.2.2.2.2.2.1, hn.2.2.2.2.2.2.2.2.2⟩
    ownership := ⟨ho.1, ho.2.1, ho.2.2.1, ho.2.2.2⟩
    mem := hm }

theorem inv_embedding : ∀ k, k = 0 ∨ k = 1 ∨ k = 8 ∨ k = 40 ∨ k = 47 → Inv (embedding k) := by
  rintro k (rfl | rfl | rfl | rfl | rfl) <;>
    exact inv_of_checks (by decide) (by decide) (by decide) (by decide) (by decide)

theorem inv_scan_start : Inv (scanning 0 0 markerT 0) :=
  inv_of_checks (by decide) (by decide) (by decide) (by decide) (by decide)

theorem inv_scan_match : Inv (scanning 39 4 almost 0x1F) :=
  inv_of_checks (by decide) (by decide) (by decide) (by decide) (by decide)

theorem inv_copying : ∀ k, k = 0 ∨ k = 7 → Inv (copying k) := by
  rintro k (rfl | rfl) <;> exact inv_of_checks (by decide) (by decide) (by decide) (by decide) (by decide)

theorem inv_accepted : ∀ i, Inv (accepted i exact) := fun i => by
  cases i <;> exact inv_of_checks (by decide) (by decide) (by decide) (by decide) (by decide)

/-! ## Encoding (spec/30_encoding.md, R90 to R92) -/

theorem test_decode_nop : decode (0b000000000000000000000000#24 ++ 0b00000000#8) = .instr .nop := by decide

theorem test_decode_cap : decode (0b000000000000000000000000#24 ++ 0b00000001#8) = .instr .cap := by decide

theorem test_decode_embed : decode (0b000000000000000000000000#24 ++ 0b00000010#8) = .instr .embed := by decide

theorem test_decode_extract : decode (0b000000000000000000000000#24 ++ 0b00000011#8) = .instr .extract := by decide

/-- Vectors 2.2: reserved opcodes and nonzero RSV. -/
theorem test_decode_rejects :
    decode 0x00000004 = .illegal (.reservedOpcode 0x04) ∧ decode 0x000000FF = .illegal (.reservedOpcode 0xFF) ∧
      decode 0x00000102 = .illegal (.reservedBits 0x000001) ∧ decode 0x80000000 = .illegal (.reservedBits 0x800000) := by
  decide

theorem test_decodeTableWord :
    decodeTableWord 32 0x2 = some .embed ∧ decodeTableWord 32 0x102 = none ∧ decodeTableWord 32 0x4 = none := by
  decide

/-! ## Well-formedness: what R69 does not allow is ill-formed, and refused (R70) -/

theorem test_wf_commands : Instr.wf .nop && Instr.wf .cap && Instr.wf .embed && Instr.wf .extract = true := by decide

theorem test_wf_narrow_read : Input.wf (.regRead 0x08 1) = false := by decide

theorem test_wf_wide_write : Input.wf (.regWrite 0x08 8 0) = false := by decide

theorem test_wf_unaligned_read : Input.wf (.regRead 0x06 4) = false := by decide

theorem test_wf_unaligned_write : Input.wf (.regWrite 0x3F 4 0) = false := by decide

theorem test_wf_refused :
    refusesWith (step (withInputs [.regRead 0x08 1] s0)) .registerAccess &&
      refusesWith (step (withInputs [.regWrite 0x3F 4 0] s0)) .registerAccess = true := by decide

/-! ## One step of each command (spec/95_test_vectors.md section 2) -/

/-- Vectors 2.2: STATUS 0x00000002 after NOP. -/
theorem test_nop : nextIs (step (State.reset.withFetchWord 32 0x0)) (fun t => statusWord t == 0x00000002) = true := by decide

/-- Vectors 2.1: the largest image. -/
theorem test_cap_largest :
    nextIs (step ((withImage 65535 65535 0 s0).withFetchWord 32 0x1)) (fun t =>
      regValue .capBitsLo t == 0xFFFA0003 && regValue .capBitsHi t == 2 && regValue .capBytes t == 0x5FFF4000 &&
        regValue .capChars t == 0x0BFFE800 && statusWord t == 0x00000102) = true := by decide

/-- Vectors 2.1: 30000 by 30000. -/
theorem test_cap_large :
    nextIs (step ((withImage 30000 30000 0 s0).withFetchWord 32 0x1)) (fun t =>
      regValue .capBitsLo t == 0xA0EEBB00 && regValue .capBitsHi t == 0 && regValue .capBytes t == 0x141DD760 &&
        regValue .capChars t == 0x0283BAEC) = true := by decide

/-- V-EMB-7: the largest PAY_LEN does not fit, in one step. -/
theorem test_embed_too_large :
    nextIs (step ((withImage 8 8 0xFFFFFFFF s0).withFetchWord 32 0x2)) (fun t => statusWord t == 0x00000212) = true := by
  decide

/-- V-EMB-9: bit 1 of the byte 0x48 is 1, so channel 1 of the pattern buffer, 0x30, becomes 0x31. -/
theorem test_embed_bit :
    nextIs (step { embedding 1 with h.sr := 0x48, mem := memWrite [] 0x2001 0x30 })
      (fun t => memRead t.mem 0x2001 == 0x31 && t.h.k == 2) = true := by decide

/-- Vectors 2.2: EXTRACT with no image fails in one step. -/
theorem test_extract_empty :
    nextIs (step (State.reset.withFetchWord 32 0x3)) (fun t => statusWord t == 0x00000322) = true := by decide

/-- R196 by hand: the fifth byte of MARKER_T completes the window at byte 5, so the payload has length 0. -/
theorem test_extract_match :
    nextIs (step (scanning 39 4 almost 0x1F)) (fun t => t.h.found && t.h.idx == 0 && t.h.nbytes == 5) = true := by decide

/-- Vectors 2.2: a reserved opcode, and RSV nonzero. -/
theorem test_illegal_words :
    nextIs (step (s0.withFetchWord 32 0xFF)) (fun t => statusWord t == 0x0000FF32) &&
      nextIs (step (s0.withFetchWord 32 0x80000000)) (fun t => statusWord t == 0x00000032) = true := by decide

/-- Vectors 2.3: register reads. -/
theorem test_register_reads :
    regValue .id s0 = 0x53544701 ∧ regValue .markerLo s0 = 0x4D4F453C ∧ regValue .markerHi s0 = 0x0000003E ∧
      statusWord (accepted .cap s0) = 0x00000101 := by decide

/-- Vectors 2.3: WIDTH drops bits 31:16. -/
theorem test_width_drops_high_bits :
    nextIs (step (withInputs [wrReg .width 0x00010008] s0)) (fun t => regValue .width t == 8) = true := by decide

/-- R99: RUN is the CMD write, then polls of STATUS. -/
theorem test_script_run :
    script [.run .cap 1] = [.regWrite 0x04 4 1, .regRead 0x08 4, .regRead 0x08 4] := by decide

/-! ## Witnesses: for each statement with hypotheses, concrete values that meet them -/

theorem witness_DecodeAndEncodeAgree : Instr.wf .embed = true := by decide

theorem witness_DecodeIsTotalByFields :
    (0x100#32).toNat / 256 ≠ 0 ∧ (0xFFFFFFFF#32).toNat / 256 ≠ 0 ∧
      ((0x0#32).toNat / 256 = 0 ∧ (0x0#32).toNat % 256 = 0x00) ∧ ((0x3#32).toNat / 256 = 0 ∧ (0x3#32).toNat % 256 = 0x03) ∧
      ((0x4#32).toNat / 256 = 0 ∧ 0x04 ≤ (0x4#32).toNat % 256) ∧
      ((0xFF#32).toNat / 256 = 0 ∧ 0x04 ≤ (0xFF#32).toNat % 256) := by decide

theorem witness_RegisterWindowLayout :
    (0x3C#6).toNat % 4 = 0 ∧ decodeReg 0x3C 4 = some .markerHi ∧
      (registerWindow cfgT).contains 0x4000003F = true ∧ (registerWindow cfgT).contains 0x40000040 = false := by decide

theorem witness_ResetSetsEveryPieceOfState :
    ∃ s t rest, pending s = .reset :: rest ∧ step s = .next t :=
  ⟨withInputs [.reset] (embedding 8), _, [], rfl, rfl⟩

theorem witness_StepRunsDispatchedCommand :
    (accepted .cap s0).h.phase = .dispatch ∧ codecMoves (accepted .cap s0) ∧
      codecMoves (withInputs [.codec] (accepted .cap s0)) ∧ decode (accepted .cap s0).h.op = .instr .cap ∧
      (acceptCommand 0x04 s0).h.phase = .dispatch ∧ decode (acceptCommand 0x04 s0).h.op = .illegal (.reservedOpcode 0x04) :=
  ⟨rfl, .inl rfl, .inr ⟨[], rfl⟩, by decide, rfl, by decide⟩

/-- `embedding 1` on a platform that does not admit reads of the pixel buffer. -/
def barredRead : State :=
  { embedding 1 with cfg := { cfgT with barred := [{ kind := .read, region := { base := 0x2000, len := 64 } }] } }

theorem witness_RunStepHappensWhenAdmitted :
    (embedding 1).h.phase = .embRun ∧ codecMoves (embedding 1) ∧ accessesAdmitted (embedding 1) ∧
      barredRead.h.phase = .embRun ∧ codecMoves barredRead ∧ ¬accessesAdmitted barredRead :=
  ⟨rfl, .inl rfl, by unfold accessesAdmitted; decide, rfl, .inl rfl, by unfold accessesAdmitted; decide⟩

theorem witness_OnlyACommandLeavesIdle :
    s0.h.phase = .idle ∧ pending s0 = [] ∧
      ∃ t, step (withInputs [.regWrite 0x04 4 7] s0) = .next t ∧ t.h.phase ≠ .idle :=
  ⟨rfl, rfl, by
    obtain ⟨t, h, hp⟩ := nextIs_exists (r := step (withInputs [.regWrite 0x04 4 7] s0))
      (p := fun t => decide (t.h.phase ≠ .idle)) (by decide)
    exact ⟨t, h, by simpa using hp⟩⟩

theorem witness_NopOnlyClearsStatus :
    (withInputs [.regWrite 0x04 4 0x00000000] exact).h.phase = .idle ∧
      (withInputs [.regWrite 0x04 4 0x00000000] exact).inputs = [.regWrite 0x04 4 0x00000000] ∧
      (withInputs [.regWrite 0x04 4 0x00000000] exact).cycle = [] := ⟨rfl, rfl, rfl⟩

theorem witness_CapLatchesCapacity :
    (withInputs [.regWrite 0x04 4 0x00000001] exact).h.phase = .idle ∧
      (withInputs [.regWrite 0x04 4 0x00000001] exact).inputs = [.regWrite 0x04 4 0x00000001] ∧
      (withInputs [.regWrite 0x04 4 0x00000001] exact).cycle = [] := ⟨rfl, rfl, rfl⟩

theorem witness_IllegalWordCompletesWithItsCode :
    (withInputs [.regWrite 0x04 4 0x100] s0).h.phase = .idle ∧
      (withInputs [.regWrite 0x04 4 0x100] s0).inputs = [.regWrite 0x04 4 0x100] ∧
      (withInputs [.regWrite 0x04 4 0x100] s0).cycle = [] ∧
      (0x100#32).toNat / 256 ≠ 0 ∧ 4 ≤ (0x4#32).toNat % 256 ∧ 4 ≤ (0xFF#32).toNat % 256 :=
  ⟨rfl, rfl, rfl, by decide, by decide, by decide⟩

theorem witness_CapacityHeldUntilLatchOrReset :
    ∃ t, step (accepted .cap exact) = .next t ∧ capacityOf t.reg ≠ capacityOf (accepted .cap exact).reg ∧
      codecMoves (accepted .cap exact) ∧ (accepted .cap exact).h.phase = .dispatch ∧
      decode (accepted .cap exact).h.op = .instr .cap := by
  obtain ⟨t, h, hp⟩ := nextIs_exists (r := step (accepted .cap exact))
    (p := fun t => decide (capacityOf t.reg ≠ capacityOf (accepted .cap exact).reg)) (by decide)
  exact ⟨t, h, by simpa using hp, .inl rfl, rfl, by decide⟩

theorem witness_CapacityArithmeticIsExact : ∃ t, exec .cap (withImage 65535 65535 0 s0) = .next t := ⟨_, rfl⟩

theorem witness_CapacityIsMonotone : (3 : Nat) ≤ 4 ∧ (5 : Nat) ≤ 5 := by decide

theorem witness_EmbedDispatch :
    8 * ((withImage 13 1 0 s0).reg.payLen.toNat + 5) >
        3 * (withImage 13 1 0 s0).reg.width.toNat * (withImage 13 1 0 s0).reg.height.toNat ∧
      8 * (exact.reg.payLen.toNat + 5) ≤ 3 * exact.reg.width.toNat * exact.reg.height.toNat ∧
      embedProblem exact.cfg exact.reg = none := by decide

/-- A payload buffer that meets the last pixel byte, a pixel buffer that meets the register window, and an output byte
in the register window; the first two fit the image and it is not empty. -/
theorem witness_UnfitRegionsAreRefused :
    8 * (exact.reg.payLen.toNat + 5) ≤ 3 * exact.reg.width.toNat * exact.reg.height.toNat ∧
      embedProblem cfgT { exact.reg with payBase := 0x203F } = some .regionsOverlap ∧
      3 * exact.reg.width.toNat * exact.reg.height.toNat ≠ 0 ∧
      extractProblem cfgT { exact.reg with pixBase := 0x3FFFFFC1 } = some .regionInRegisterWindow ∧
      outputProblem cfgT { exact.reg with outBase := 0x4000003F } 1 = some .regionInRegisterWindow := by decide

theorem witness_EmbedCapacityBoundary :
    (3 * exact.reg.width.toNat * exact.reg.height.toNat = 8 * (exact.reg.payLen.toNat + 5) ∧
      embedProblem exact.cfg exact.reg = none) ∧
      3 * (withImage 13 1 0 s0).reg.width.toNat * (withImage 13 1 0 s0).reg.height.toNat + 1 =
        8 * ((withImage 13 1 0 s0).reg.payLen.toNat + 5) ∧
      (withImage 8 8 0xFFFFFFFF s0).reg.payLen = 0xFFFFFFFF ∧ (withImage 0 8 1 s0).reg.width = 0 ∧
      (withImage 8 0 1 s0).reg.height = 0 := by decide

/-- A payload byte is loaded at bit 0, marker bytes at bits 8 and 40, and bit 47 is the last. -/
theorem witness_EmbedRunStep :
    ∀ k, k = 0 ∨ k = 1 ∨ k = 8 ∨ k = 40 ∨ k = 47 →
      Inv (embedding k) ∧ (embedding k).h.phase = .embRun ∧ pending (embedding k) = [] ∧ accessesAdmitted (embedding k) :=
  fun k hk => ⟨inv_embedding k hk, rfl, rfl, fun _ _ => rfl⟩

theorem embedPremises_exact : EmbedPremises (accepted .embed exact) :=
  ⟨by decide, fun _ _ _ => rfl, fun _ _ => rfl⟩

/-- The payload of `exact` fits, and one byte more does not. -/
theorem witness_EmbedComputesEmbedF :
    Inv (accepted .embed exact) ∧ Dispatching .embed (accepted .embed exact) ∧ EmbedPremises (accepted .embed exact) ∧
      8 * ([0x00#8].length + 5) ≤ capBits 4 4 ∧
      Inv (accepted .embed (withImage 4 4 2 s0)) ∧ Dispatching .embed (accepted .embed (withImage 4 4 2 s0)) ∧
      EmbedPremises (accepted .embed (withImage 4 4 2 s0)) ∧ 8 * ([0x00#8, 0x00#8].length + 5) > capBits 4 4 :=
  ⟨inv_accepted .embed, ⟨rfl, rfl, rfl⟩, embedPremises_exact, by decide,
    inv_of_checks (by decide) (by decide) (by decide) (by decide) (by decide), ⟨rfl, rfl, rfl⟩,
    ⟨by decide, fun _ _ _ => rfl, fun _ _ => rfl⟩, by decide⟩

theorem witness_EmbedProgressUnderEverySchedule :
    EmbedProgress (List.replicate 64 0) [0] (embedding 0) ∧ noReset (embedding 0) ∧
      ∃ t, step (embedding 0) = .next t :=
  ⟨⟨inv_embedding 0 (by decide), rfl, by decide, by decide, by decide⟩, noReset_of_empty rfl, _, rfl⟩

theorem witness_EmbedLeavesAlphaAndTailUnchanged :
    ∃ px', embedF markerT 4 4 (List.replicate 64 0) [0x41] = some px' := ⟨_, rfl⟩

theorem witness_EmbeddingAgainChangesNothing :
    (List.replicate 64 (0 : Byte)).length = 4 * (4 * 4) ∧
      ∃ px', embedF markerT 4 4 (List.replicate 64 0) [0x41] = some px' := ⟨rfl, _, rfl⟩

theorem witness_ExtractDispatch :
    3 * s0.reg.width.toNat * s0.reg.height.toNat = 0 ∧
      (3 * exact.reg.width.toNat * exact.reg.height.toNat ≠ 0 ∧
        extractProblem exact.cfg exact.reg = none) := by decide

/-- Mid-byte, a byte that completes the marker, and a byte after the match. -/
theorem witness_ExtractScanStep :
    ∀ s, s = scanning 0 0 markerT 0 ∨ s = scanning 39 4 almost 0x1F ∨
      s = { scanning 46 5 markerT 0 with h.found := true } →
      Inv s ∧ s.h.phase = .extScan ∧ pending s = [] ∧ accessesAdmitted s ∧ s.h.k + 1 ≠ s.h.scanBits := by
  rintro s (rfl | rfl | rfl)
  · exact ⟨inv_scan_start, rfl, rfl, fun _ _ => rfl, by decide⟩
  · exact ⟨inv_scan_match, rfl, rfl, fun _ _ => rfl, by decide⟩
  · exact ⟨inv_of_checks (by decide) (by decide) (by decide) (by decide) (by decide), rfl, rfl, fun _ _ => rfl, by decide⟩

/-- The last channel of a scan that finds the marker at index 1. -/
def scanEnd : State := scanning 47 5 { b0 := 0, b1 := 0x3C, b2 := 0x45, b3 := 0x4F, b4 := 0x4D } 0x1F

/-- The same with the output buffer in the register window. -/
def scanEndRefused : State := { scanEnd with reg.outBase := 0x4000003F, owned := [] }

/-- The last channel with no marker, with the marker at index 0 (found before) and at index 1 (found in this step). -/
theorem witness_ExtractScanEnds :
    ∀ s, s = scanning 47 5 almost 0x00 ∨ s = { scanning 47 5 markerT 0 with h.found := true } ∨ s = scanEnd →
      Inv s ∧ s.h.phase = .extScan ∧ pending s = [] ∧ accessesAdmitted s ∧ s.h.k + 1 = s.h.scanBits := by
  rintro s (rfl | rfl | rfl)
  · exact ⟨inv_of_checks (by decide) (by decide) (by decide) (by decide) (by decide), rfl, rfl, fun _ _ => rfl, rfl⟩
  · exact ⟨inv_of_checks (by decide) (by decide) (by decide) (by decide) (by decide), rfl, rfl, fun _ _ => rfl, rfl⟩
  · exact ⟨inv_of_checks (by decide) (by decide) (by decide) (by decide) (by decide), rfl, rfl, fun _ _ => rfl, rfl⟩

theorem test_output_refused : refusesWith (step scanEndRefused) .regionInRegisterWindow = true := by decide

/-- Mid-byte, and the step that completes the only byte and the copy. -/
theorem witness_ExtractCopyStep :
    ∀ k, k = 0 ∨ k = 7 →
      Inv (copying k) ∧ (copying k).h.phase = .extCopy ∧ pending (copying k) = [] ∧ accessesAdmitted (copying k) :=
  fun k hk => ⟨inv_copying k hk, rfl, rfl, fun _ _ => rfl⟩

theorem witness_ExtractComputesExtractF :
    Inv (accepted .extract exact) ∧ Dispatching .extract (accepted .extract exact) ∧
      none = extractF markerT 4 4 (regionBytes (accepted .extract exact).mem (pixRegion (accepted .extract exact).reg)) ∧
      ExtractPremises (Option.getD (none : Option (List Byte)) []).length (accepted .extract exact) :=
  ⟨inv_accepted .extract, ⟨rfl, rfl, rfl⟩, by decide +kernel, ⟨by decide, by decide, fun _ _ => rfl, fun _ _ => rfl⟩⟩

theorem witness_ExtractProgressUnderEverySchedule_scan :
    noReset (scanning 0 0 markerT 0) ∧ ScanProgress (List.replicate 64 0) (scanning 0 0 markerT 0) ∧
      ∃ t, step (scanning 0 0 markerT 0) = .next t :=
  ⟨noReset_of_empty rfl,
    ⟨inv_scan_start, rfl, by decide, fun m h => absurd h (Nat.not_lt_zero m), (fun h => nomatch h), fun _ i h => absurd h (Nat.not_le.2 (Nat.lt_add_left i (by decide))),
      fun _ => by decide +kernel⟩, _, rfl⟩

theorem witness_ExtractProgressUnderEverySchedule_copy :
    noReset (withBytes 0x2000 embedded (copying 0)) ∧
      CopyProgress embedded (withBytes 0x2000 embedded (copying 0)) ∧
      ∃ t, step (withBytes 0x2000 embedded (copying 0)) = .next t :=
  ⟨noReset_of_empty rfl,
    ⟨inv_of_checks (by decide +kernel) (by decide +kernel) (by decide +kernel) (by decide +kernel) (by decide +kernel),
      rfl, by decide +kernel, fun m h => absurd h (Nat.not_lt_zero m), by decide +kernel, fun j h => absurd h (Nat.not_lt_zero j)⟩, _, rfl⟩

/-- `exact` with the buffer that holds the byte 0x41, ready to extract. -/
def holding : State := accepted .extract (withBytes 0x2000 embedded exact)

theorem witness_RoundTripReturnsThePayload :
    Inv holding ∧ Dispatching .extract holding ∧ ExtractPremises [0x41#8].length holding ∧
      embedF holding.cfg.marker holding.reg.width.toNat holding.reg.height.toNat (List.replicate 64 0) [0x41] =
        some (regionBytes holding.mem (pixRegion holding.reg)) ∧
      ∀ i, i < [0x41#8].length → markerAt holding.cfg.marker ([0x41] ++ holding.cfg.marker.toList) i = false :=
  ⟨inv_of_checks (by decide +kernel) (by decide +kernel) (by decide +kernel) (by decide +kernel) (by decide +kernel),
    ⟨rfl, rfl, rfl⟩, ⟨by decide, by decide, fun _ _ => rfl, fun _ _ => rfl⟩, by decide +kernel, by decide +kernel⟩

theorem witness_ExtractComputesExtractF_found :
    Inv holding ∧ Dispatching .extract holding ∧ some [0x41#8] = extractF holding.cfg.marker holding.reg.width.toNat
        holding.reg.height.toNat (regionBytes holding.mem (pixRegion holding.reg)) ∧
      ExtractPremises ((some [0x41#8]).getD []).length holding :=
  ⟨witness_RoundTripReturnsThePayload.1, ⟨rfl, rfl, rfl⟩, by decide +kernel,
    ⟨by decide, by decide, fun _ _ => rfl, fun _ _ => rfl⟩⟩

/-- The payload is the marker itself: it occurs at index 0, below its length 5. -/
theorem witness_MarkerCollisionTruncates :
    (List.replicate 108 (0 : Byte)).length = 4 * (9 * 3) ∧
      (∃ px', embedF markerT 9 3 (List.replicate 108 0) markerT.toList = some px') ∧ 0 < markerT.toList.length ∧
      markerAt markerT (markerT.toList ++ markerT.toList) 0 = true := ⟨rfl, ⟨_, rfl⟩, by decide, by decide⟩

theorem witness_ExtractionGuaranteedFailures :
    3 * 13 * 1 < 40 ∧ markerT.toList ≠ [0, 0, 0, 0, 0] ∧ markerT.toList ≠ [0xFF, 0xFF, 0xFF, 0xFF, 0xFF] ∧
      (∀ k, k < 3 * 4 * 4 → ((List.replicate 64 (0 : Byte)).getD (4 * (k / 3) + k % 3) 0).getLsbD 0 = false) ∧
      (∀ k, k < 3 * 4 * 4 → ((List.replicate 64 (0xFF : Byte)).getD (4 * (k / 3) + k % 3) 0).getLsbD 0 = true) := by
  decide +kernel

theorem witness_CommandAcceptance :
    (withInputs [.regWrite 0x04 4 0xFFFFFFFF, .codec] s0).h.phase = .idle ∧
      pending (withInputs [.regWrite 0x04 4 0xFFFFFFFF, .codec] s0) = .regWrite 0x04 4 0xFFFFFFFF :: [.codec] := ⟨rfl, rfl⟩

theorem witness_BusyWritesAreDropped :
    (withInputs [wrReg .payLen 100] (embedding 0)).h.phase ≠ .idle ∧
      pending (withInputs [wrReg .payLen 100] (embedding 0)) = [.regWrite (regOffset .payLen) 4 100] :=
  ⟨by decide, rfl⟩

theorem witness_IdleRegisterWrites :
    (withInputs [wrReg .width 0x00010008] s0).h.phase = .idle ∧ Reg.width ≠ Reg.cmd ∧ Reg.outLen ≠ Reg.cmd ∧
      pending (withInputs [wrReg .width 0x00010008] s0) = [.regWrite (regOffset .width) 4 0x00010008] :=
  ⟨rfl, by decide, by decide, rfl⟩

theorem witness_RegisterReadsReturnTheirValues :
    pending (withInputs [rdReg .status] (embedding 0)) = [.regRead (regOffset .status) 4] := rfl

/-- The three shapes: reset, running, and after a command. -/
theorem witness_StatusHasThreeShapes :
    Inv s0 ∧ Inv (embedding 47) ∧ Inv (complete .noPayloadFound (embedding 47)) :=
  ⟨inv_of_checks (by decide) (by decide) (by decide) (by decide) (by decide), inv_embedding 47 (by decide),
    inv_of_checks (by decide) (by decide) (by decide) (by decide) (by decide)⟩

theorem witness_UnalignedRegisterAccessIsRefused :
    ¬((3 : Nat) = 4 ∧ (0x08#6).toNat % 4 = 0) ∧ ¬((4 : Nat) = 4 ∧ (0x3F#6).toNat % 4 = 0) ∧
      pending (withInputs [.regRead 0x3F 4] s0) = [.regRead 0x3F 4] ∧
      (0x4000003F#32 - regBase s0.cfg).toNat < 64 ∧ pending (withInputs [.memWrite 0x4000003F 1] s0) = [.memWrite 0x4000003F 1] := by
  decide

/-- A host write, a reset, and a codec step. -/
theorem witness_OperandsChangeOnlyByHostOrReset :
    (∃ t, step (withInputs [wrReg .payLen 1] s0) = .next t ∧
      regValue .payLen t ≠ regValue .payLen (withInputs [wrReg .payLen 1] s0)) ∧
    (∃ t, step (withInputs [.reset] exact) = .next t ∧
      regValue .width t ≠ regValue .width (withInputs [.reset] exact)) ∧
    (codecMoves (accepted .extract exact) ∧ ∃ t, step (accepted .extract exact) = .next t) :=
  ⟨⟨_, rfl, by decide⟩, ⟨_, rfl, by decide⟩, .inl rfl, _, rfl⟩

theorem witness_StatusChangesOnlyByCommandOrReset :
    ∃ t, step (embedding 47) = .next t ∧ statusWord t ≠ statusWord (embedding 47) := by
  obtain ⟨t, h, hp⟩ := nextIs_exists (r := step (embedding 47))
    (p := fun t => decide (statusWord t ≠ statusWord (embedding 47))) (by decide)
  exact ⟨t, h, by simpa using hp⟩

theorem witness_OutLenChangesOnlyByExtract :
    ∃ t, step (copying 7) = .next t ∧ t.reg.outLen ≠ (copying 7).reg.outLen := by
  obtain ⟨t, h, hp⟩ := nextIs_exists (r := step (copying 7))
    (p := fun t => decide (t.reg.outLen ≠ (copying 7).reg.outLen)) (by decide)
  exact ⟨t, h, by simpa using hp⟩

theorem witness_BuiltConstantsNeverChange : ∃ t, step (withInputs [.reset] s0) = .next t := ⟨_, rfl⟩

theorem witness_ChannelMapAvoidsAlpha :
    4 * (exact.reg.width.toNat * exact.reg.height.toNat) ≤ 2 ^ 32 ∧
      47 < 3 * exact.reg.width.toNat * exact.reg.height.toNat ∧ 15 < exact.reg.width.toNat * exact.reg.height.toNat := by
  decide

theorem witness_AccessesStayInTheCommandsRegions :
    Inv (accepted .embed exact) ∧ Inv (embedding 0) ∧ Inv (scanning 0 0 markerT 0) ∧ Inv (copying 7) ∧
      codecAccesses (embedding 0) ≠ [] ∧ codecAccesses (scanning 0 0 markerT 0) ≠ [] ∧
      { kind := .write, addr := 0x3000 } ∈ codecAccesses (copying 7) :=
  ⟨inv_accepted .embed, inv_embedding 0 (by decide), inv_scan_start, inv_copying 7 (by decide), by decide, by decide,
    by decide⟩

theorem witness_MemoryChangesOnlyByAWriteAccess :
    ∃ t, step (withInputs [.memWrite 0x10 7] s0) = .next t ∧
      memRead t.mem 0x10 ≠ memRead (withInputs [.memWrite 0x10 7] s0).mem 0x10 := by
  obtain ⟨t, h, hp⟩ := nextIs_exists (r := step (withInputs [.memWrite 0x10 7] s0))
    (p := fun t => decide (memRead t.mem 0x10 ≠ memRead (withInputs [.memWrite 0x10 7] s0).mem 0x10)) (by decide)
  exact ⟨t, h, by simpa using hp⟩

/-- Memories that differ in an alpha byte, and in the output byte that a copy step is about to write. -/
theorem witness_CodecStepDependsOnlyOnBytesItReads :
    (Memory.wf (embedding 0).mem = true ∧ Memory.wf (memWrite (embedding 0).mem 0x2003 7) = true ∧
      pending (embedding 0) = [] ∧
      (∀ acc ∈ codecAccesses (embedding 0), acc.kind = .read →
        memRead (memWrite (embedding 0).mem 0x2003 7) acc.addr = memRead (embedding 0).mem acc.addr) ∧
      ∃ t, step (embedding 0) = .next t) ∧
    (Memory.wf (copying 7).mem = true ∧ Memory.wf (memWrite (copying 7).mem 0x3000 7) = true ∧
      pending (copying 7) = [] ∧ { kind := .write, addr := 0x3000 } ∈ codecAccesses (copying 7) ∧
      (∀ acc ∈ codecAccesses (copying 7), acc.kind = .read →
        memRead (memWrite (copying 7).mem 0x3000 7) acc.addr = memRead (copying 7).mem acc.addr) ∧
      ∃ t, step (copying 7) = .next t) :=
  ⟨⟨by decide, by decide, rfl, by decide, _, rfl⟩, by decide, by decide, rfl, by decide, by decide, _, rfl⟩

/-- Regions that fit, and each way they do not: an overlap in the last pixel byte, an image of more than 2^32 bytes, an
output byte in the register window, and a last pixel byte that is not plain. -/
theorem witness_RegionsFitExactlyWhenDisjointAndPlain :
    (∃ pixels clear : Word → Prop,
      (∀ a, pixels a ↔ (a - exact.reg.pixBase).toNat < 4 * (exact.reg.width.toNat * exact.reg.height.toNat)) ∧
      (∀ a, clear a ↔ ¬((a - regBase cfgT).toNat < 64) ∧ ∀ q ∈ cfgT.notPlain, ¬((a - q.base).toNat < q.len))) ∧
      embedProblem cfgT exact.reg = none ∧ extractProblem cfgT exact.reg = none ∧ outputProblem cfgT exact.reg 1 = none ∧
      embedProblem cfgT { exact.reg with payBase := 0x203F } = some .regionsOverlap ∧
      extractProblem cfgT { exact.reg with outBase := 0x203F } = some .regionsOverlap ∧
      embedProblem cfgT { exact.reg with width := 0xFFFF, height := 0xFFFF } = some .pixelRegionTooLong ∧
      outputProblem cfgT scanEndRefused.reg 1 = some .regionInRegisterWindow ∧
      extractProblem { cfgT with notPlain := [{ base := 0x203F, len := 1 }] } exact.reg = some .regionNotPlainMemory :=
  ⟨⟨_, _, fun _ => Iff.rfl, fun _ => Iff.rfl⟩, by decide, by decide, by decide, by decide, by decide, by decide, by decide,
    by decide⟩

theorem witness_CodecNeverReachesItsRegisters :
    Inv (embedding 0) ∧ Inv (copying 7) ∧ codecAccesses (embedding 0) ≠ [] :=
  ⟨inv_embedding 0 (by decide), inv_copying 7 (by decide), by decide⟩

theorem witness_AccessToAnOwnedRegionIsRefused :
    (∃ o ∈ (withInputs [.memRead 0x203F] (embedding 0)).owned, o.region.contains 0x203F = true ∧ o.written = true) ∧
      (registerWindow cfgT).contains 0x203F = false ∧
      (∃ o ∈ (withInputs [.memWrite 0x1000 1] (embedding 0)).owned, o.region.contains 0x1000 = true) := by decide

/-- A read and a write of a free byte while EMBED runs, and a read of the payload buffer, which EMBED owns but only
reads. -/
theorem witness_AgentAccessToFreeMemoryHappens :
    Memory.wf (embedding 0).mem = true ∧
      (∀ a, a = 0x9000#32 ∨ a = 0x1000#32 →
        64 ≤ (a - regBase (embedding 0).cfg).toNat ∧
          (∀ q ∈ (embedding 0).cfg.notPlain, q.len ≤ (a - q.base).toNat) ∧
          pending (withInputs [.memRead a] (embedding 0)) = [.memRead a] ∧
          ∀ o ∈ (embedding 0).owned, o.written = true → o.region.len ≤ (a - o.region.base).toNat) ∧
      pending (withInputs [.memWrite 0x9000 1] (embedding 0)) = [.memWrite 0x9000 1] ∧
      ∀ o ∈ (embedding 0).owned, o.region.len ≤ (0x9000#32 - o.region.base).toNat := by
  refine ⟨by decide, ?_, by decide, by decide⟩
  rintro a (rfl | rfl) <;> decide

/-- Acceptance of EMBED and of EXTRACT, and the STATUS read that observes the completion of EMBED. -/
theorem witness_OwnershipFromAcceptanceToObservation :
    (exact.h.phase = .idle ∧
      (∃ t, step (withInputs [.regWrite 0x04 4 (encode .extract)] exact) = .next t) ∧
      ∃ t o, step (withInputs [.regWrite 0x04 4 (encode .embed)] exact) = .next t ∧ o ∉ exact.owned ∧ o ∈ t.owned) ∧
    ((complete .none (embedding 47)).h.phase = .idle ∧
      pending (withInputs [.regRead 0x08 4] (complete .none (embedding 47))) = [.regRead 0x08 4] ∧
      ∃ t o, step (withInputs [.regRead 0x08 4] (complete .none (embedding 47))) = .next t ∧
        o ∈ (complete .none (embedding 47)).owned ∧ o ∉ t.owned) :=
  ⟨⟨rfl, ⟨_, rfl⟩, _, { region := pixRegion exact.reg, written := true }, rfl, by decide, by decide⟩,
    rfl, rfl, _, { region := pixRegion exact.reg, written := true }, rfl, by decide, by decide⟩

theorem witness_AgentsCannotDisturbARunningCommand :
    Inv (withInputs [.memWrite 0x9000 1] (embedding 0)) ∧ (embedding 0).h.phase ≠ .idle ∧
      ∃ t, step (withInputs [.memWrite 0x9000 1] (embedding 0)) = .next t :=
  ⟨inv_of_checks (by decide) (by decide) (by decide) (by decide) (by decide), by decide, by
    obtain ⟨t, h, _⟩ := nextIs_exists (r := step (withInputs [.memWrite 0x9000 1] (embedding 0)))
      (p := fun _ => true) (by decide)
    exact ⟨t, h⟩⟩

/-- Each kind of step that can break the invariant: the last bit of EMBED, and the step that finds the marker. -/
theorem witness_InvariantKeptByEveryStep :
    (Inv (embedding 47) ∧ ∃ t, step (embedding 47) = .next t) ∧
      (Inv (scanning 39 4 almost 0x1F) ∧ ∃ t, step (scanning 39 4 almost 0x1F) = .next t) :=
  ⟨⟨inv_embedding 47 (by decide), _, rfl⟩, inv_scan_match, _, rfl⟩

theorem witness_PhaseInvariantsKeptByEveryStep :
    PhaseInv (embedding 47) ∧ ∃ t, step (embedding 47) = .next t :=
  ⟨(inv_embedding 47 (by decide)).phase, _, rfl⟩

theorem witness_CountersFitTheirWidths : Inv (scanning 39 4 almost 0x1F) := inv_scan_match

/-- The leftover state of a finished EXTRACT against the reset state's. -/
theorem witness_LeftoverStateDoesNotLeak :
    (accepted .embed exact).h.phase = .dispatch ∧
      ({ (copying 7).h with phase := .dispatch, op := encode .embed } : Hidden).op = (accepted .embed exact).h.op ∧
      pending (accepted .embed exact) = [] := ⟨rfl, rfl, rfl⟩

/-- Where the platform bars nothing, every access of every run is admitted. -/
theorem accessesAdmitted_of_run {s : State} (h : s.cfg.barred = []) (m : Nat) (u : State)
    (hu : stepN m s = .next u) : accessesAdmitted u := fun acc _ => by
  rw [stepN_cfg hu]
  simp [admits, h]

/-- EXTRACT run alone, and beside a host that polls STATUS before every codec step for ever. -/
theorem witness_EveryRunEnds :
    (Inv (accepted .extract exact) ∧ Fair (accepted .extract exact) ∧ pending (accepted .extract exact) = [] ∧
      ∀ m u, stepN m (accepted .extract exact) = .next u → accessesAdmitted u) ∧
    (Inv { accepted .extract exact with cycle := [rdReg .status, .codec] } ∧
      Fair { accepted .extract exact with cycle := [rdReg .status, .codec] } ∧
      ∀ m u, stepN m { accepted .extract exact with cycle := [rdReg .status, .codec] } = .next u → accessesAdmitted u) :=
  ⟨⟨inv_accepted .extract, .inl rfl, rfl, accessesAdmitted_of_run rfl⟩,
    inv_of_checks (by decide) (by decide) (by decide) (by decide) (by decide), .inr (by decide), accessesAdmitted_of_run rfl⟩

/-- A codec step in each run phase, and a poll while EMBED runs. -/
theorem witness_CodecStepsLeftFallAtEveryCodecStep :
    (∀ s, s = embedding 47 ∨ s = scanning 39 4 almost 0x1F ∨ s = copying 7 →
      Inv s ∧ s.h.phase ≠ .idle ∧ codecMoves s ∧ ∃ t, step s = .next t) ∧
    (Inv (withInputs [rdReg .status] (embedding 0)) ∧ ¬codecMoves (withInputs [rdReg .status] (embedding 0)) ∧
      noReset (withInputs [rdReg .status] (embedding 0)) ∧
      ∃ t, step (withInputs [rdReg .status] (embedding 0)) = .next t) := by
  refine ⟨?_, inv_of_checks (by decide) (by decide) (by decide) (by decide) (by decide), ?_, ?_, _, rfl⟩
  · rintro s (rfl | rfl | rfl)
    · exact ⟨inv_embedding 47 (by decide), by decide, .inl rfl, _, rfl⟩
    · exact ⟨inv_scan_match, by decide, .inl rfl, _, rfl⟩
    · exact ⟨inv_copying 7 (by decide), by decide, .inl rfl, _, rfl⟩
  · rintro (h | ⟨_, h⟩) <;> cases h
  · intro _ h
    cases h

/-- EMBED accepted, and a host that polls STATUS for ever before the codec takes a step. -/
theorem witness_HostMayPollForever :
    ({ accepted .embed exact with cycle := [.regRead 0x08 4] } : State).h.phase ≠ .idle ∧
      ({ accepted .embed exact with cycle := [.regRead 0x08 4] } : State).inputs = [] ∧
      ({ accepted .embed exact with cycle := [.regRead 0x08 4] } : State).cycle = [.regRead 0x08 4] :=
  ⟨by decide, rfl, rfl⟩

end Sys2Proof.Tests
end

-- The channel map of R12
section
/-! The channel map as addresses: offsets below 2^32 from one base are told apart by their addresses, so what
`chanIndex` keeps apart (bits, and bits from alpha bytes) `chanAddr` keeps apart. -/

namespace Sys2Proof.Machine

/-- Offsets below 2^32 from one base reach different bytes (R65). -/
theorem base_add_ofNat_inj {base : Word} {m n : Nat} (hm : m < 2 ^ 32) (hn : n < 2 ^ 32) :
    base + BitVec.ofNat 32 m = base + BitVec.ofNat 32 n ↔ m = n := by
  refine ⟨fun h => ?_, fun h => h ▸ rfl⟩
  have hoff := congrArg BitVec.toNat ((BitVec.add_right_inj base).1 h)
  rwa [BitVec.toNat_ofNat, BitVec.toNat_ofNat, Nat.mod_eq_of_lt hm, Nat.mod_eq_of_lt hn] at hoff

/-- A bit number is found again from its offset: pixel `i / 4`, channel `i % 4` (R12). -/
theorem chanIndex_leftInverse : Function.LeftInverse (fun i => 3 * (i / 4) + i % 4) chanIndex := fun k => by
  simp only [chanIndex]
  omega

theorem pixRegion_contains_chanAddr {r : Regs} {k : Nat} (hk : k < 3 * r.width.toNat * r.height.toNat) :
    (pixRegion r).contains (chanAddr r k) = true :=
  Region.contains_offset (pixRegion r) (chanIndex_lt hk).1

section
variable {r : Regs} {k : Nat} (hlen : 4 * (r.width.toNat * r.height.toNat) ≤ 2 ^ 32)
  (hk : k < 3 * r.width.toNat * r.height.toNat)
include hlen hk

/-- R75's length bound is what keeps an offset from wrapping. -/
theorem chanIndex_lt_two_pow : chanIndex k < 2 ^ 32 :=
  (chanIndex_lt hk).1.trans_le hlen

theorem chanAddr_inj {j : Nat} (hj : j < 3 * r.width.toNat * r.height.toNat) (h : chanAddr r j = chanAddr r k) :
    j = k :=
  chanIndex_leftInverse.injective
    ((base_add_ofNat_inj (chanIndex_lt_two_pow hlen hj) (chanIndex_lt_two_pow hlen hk)).1 h)

theorem chanAddr_ne_alpha {p : Nat} (hp : p < r.width.toNat * r.height.toNat) :
    chanAddr r k ≠ r.pixBase + BitVec.ofNat 32 (4 * p + 3) := fun h => by
  have halpha : 4 * p + 3 < 2 ^ 32 := by omega
  have hidx : chanIndex k = 4 * p + 3 := (base_add_ofNat_inj (chanIndex_lt_two_pow hlen hk) halpha).1 h
  have hchan : chanIndex k % 4 ≠ 3 := (chanIndex_lt hk).2
  omega

end

/-- Settles O44: `chanIndex` is injective and never 3 mod 4, and below R75's length bound no offset wraps. -/
theorem channelMapAvoidsAlpha : Obligations.ChannelMapAvoidsAlpha := by
  intro r hlen k hk
  exact ⟨rfl, pixRegion_contains_chanAddr hk, fun _ hj h => chanAddr_inj hlen hk hj h,
    fun _ hp => chanAddr_ne_alpha hlen hk hp⟩

end Sys2Proof.Machine
end

-- What a step does to SLC's own state
section
/-! The ways a step can change SLC, told apart by who caused it: the codec, reset, a register write that is taken, or
nobody.  Then the codec's moves by where they lead: what a step that ends in IDLE or in a run phase was. -/

namespace Sys2Proof.Machine

/-! ## Fields as numbers -/

theorem toNat_append_eq_add {m n : Nat} (x : BitVec m) (y : BitVec n) :
    (x ++ y).toNat = x.toNat * 2 ^ n + y.toNat := by
  rw [BitVec.toNat_append, ← Nat.shiftLeft_add_eq_or_of_lt y.isLt, Nat.shiftLeft_eq]

/-- STATUS as the number R30 lays out. -/
theorem statusWord_toNat (s : State) :
    (statusWord s).toNat =
      256 * s.reg.lastOp.toNat + 16 * (errBits s.reg.err).toNat + 2 * s.reg.done.toNat + (busy s).toNat := by
  simp only [statusWord, toNat_append_eq_add, BitVec.toNat_ofNat, BitVec.toNat_ofBool]
  omega

theorem errBits_le_three (e : ErrCode) : (errBits e).toNat ≤ 3 := by
  cases e <;> decide

/-- Bit 0 of STATUS is BUSY (R26, R30). -/
theorem statusWord_bit_zero (s : State) : (statusWord s).getLsbD 0 = busy s := by
  simp only [statusWord, BitVec.getLsbD_append]
  simp

/-! ## Register writes while idle -/

/-- An access names a register exactly at the register's own offset, as a whole word (R21, R69). -/
theorem decodeReg_eq_some {off : BitVec 6} {bytes : Nat} {r : Reg} :
    decodeReg off bytes = some r ↔ bytes = 4 ∧ off = regOffset r := by
  refine ⟨fun h => ?_, fun ⟨hb, ho⟩ => by rw [hb, ho, decodeReg_regOffset]⟩
  unfold decodeReg at h
  split at h
  · rename_i hb
    refine ⟨hb, ?_⟩
    split at h <;> cases h <;> exact BitVec.eq_of_toNat_eq ‹_›
  · cases h

/-- A register write other than to CMD starts no command, and leaves the flags alone. -/
theorem writeIdleReg_of_ne_cmd {r : Reg} (hr : r ≠ .cmd) (v : Word) (s : State) :
    (writeIdleReg r v s).h = s.h ∧ flagsOf (writeIdleReg r v s).reg = flagsOf s.reg := by
  cases r <;> simp_all [writeIdleReg, flagsOf]

theorem writeIdleReg_outLen (r : Reg) (v : Word) (s : State) :
    (writeIdleReg r v s).reg.outLen = s.reg.outLen := by
  cases r <;> rfl

/-- Reading STATUS while a command runs observes no completion (R78). -/
theorem observe_of_busy {s : State} (h : busy s = true) (r : Reg) : observe r s = s := by
  rw [observe, if_neg (by simp [h])]

/-! ## What latching the capacity leaves alone -/

@[simp] theorem latchCap_lastOp (s : State) : (latchCap s).reg.lastOp = s.reg.lastOp := rfl
@[simp] theorem latchCap_outLen (s : State) : (latchCap s).reg.outLen = s.reg.outLen := rfl
@[simp] theorem latchCap_done (s : State) : (latchCap s).reg.done = s.reg.done := rfl
@[simp] theorem latchCap_err (s : State) : (latchCap s).reg.err = s.reg.err := rfl

/-- What the DISPATCH step of EXTRACT clears (R193). -/
@[simp] theorem initExtract_h (s : State) :
    (initExtract s).h =
      { s.h with
        scanBits := imageCapBits s, k := 0, sr := 0, nbytes := 0, wcnt := 0, found := false, idx := 0
        win := { b0 := 0, b1 := 0, b2 := 0, b3 := 0, b4 := 0 } } := rfl

/-! ## The step of the machine, by who changes SLC -/

/-- What a step does to SLC's state.  A step that is neither the codec's, nor reset, nor a register write taken while
idle leaves registers and hidden state alone; it ends no ownership while a command runs, and keeps memory canonical. -/
inductive StepCase (s : State) : State → Prop
  | codec (hc : codecMoves s) (ins : List Input) (t : State) (hm : CodecMove { s with inputs := ins } t) : StepCase s t
  | reset (rest : List Input) (hp : pending s = .reset :: rest) : StepCase s (resetSlc { s with inputs := rest })
  | write (r : Reg) (v : Word) (rest : List Input) (hi : s.h.phase = .idle)
      (hp : pending s = .regWrite (regOffset r) 4 v :: rest) : StepCase s (writeIdleReg r v { s with inputs := rest })
  | quiet (t : State) (hr : t.reg = s.reg) (hh : t.h = s.h) (hc : t.cfg = s.cfg)
      (ho : busy s = true → t.owned = s.owned) (hm : Memory.wf s.mem = true → Memory.wf t.mem = true) : StepCase s t

theorem step_cases {s t : State} (h : step s = .next t) : StepCase s t := by
  rcases step_next h with ⟨hp, hm⟩ | ⟨rest, hp, hm⟩ | ⟨i, rest, hp, hm⟩
  · exact .codec (.inl hp) s.inputs t hm
  · exact .codec (.inr ⟨rest, hp⟩) rest t hm
  · cases hm with
    | regRead off bytes r hd =>
      refine .quiet _ (by simp) (by simp) (by simp) (fun hb => ?_) (by simp)
      have hb' : busy { s with inputs := rest } = true := hb
      rw [readReg, observe_of_busy hb']
    | regWrite off bytes v r hd =>
      obtain ⟨rfl, rfl⟩ := decodeReg_eq_some.1 hd
      by_cases hi : s.h.phase = .idle
      · rw [writeReg_of_idle (s := { s with inputs := rest }) hi]
        exact .write r v rest hi hp
      · rw [writeReg_of_busy (s := { s with inputs := rest }) hi]
        exact .quiet _ rfl rfl rfl (fun _ => rfl) id
    | memRead a ha => exact .quiet _ rfl rfl rfl (fun _ => rfl) id
    | memWrite a v ha => exact .quiet _ rfl rfl rfl (fun _ => rfl) fun hw => wf_memWrite hw a v
    | reset => exact .reset rest hp

/-- A step at which the codec moves is one of the codec's. -/
theorem codecMove_of_step {s t : State} (hc : codecMoves s) (h : step s = .next t) :
    ∃ ins, CodecMove { s with inputs := ins } t := by
  rcases hc with hp | ⟨rest, hp⟩
  · rw [step_of_no_inputs hp] at h
    exact ⟨s.inputs, codecStep_next h⟩
  · rw [step_of_input hp] at h
    exact ⟨rest, codecStep_next h⟩

/-! ## The codec's moves, sorted by how they leave the command -/

/-- What the last step of a command leaves before `complete` (R117). -/
inductive Ending (s : State) : State → Prop
  | dispatched (hp : s.h.phase = .dispatch) : Ending s s
  | latched (hp : s.h.phase = .dispatch) : Ending s (latchCap s)
  | noPixels (hp : s.h.phase = .dispatch) (hd : decode s.h.op = .instr .extract) : Ending s (initExtract s)
  | embedded (hp : s.h.phase = .embRun) (hk : s.h.k + 1 = s.h.framedBits) : Ending s (countChannel (writeChannel s))
  | absent (hp : s.h.phase = .extScan) (hk : s.h.k + 1 = s.h.scanBits) : Ending s (completeByte (readBit s))
  | empty (hp : s.h.phase = .extScan) (hk : s.h.k + 1 = s.h.scanBits) :
      Ending s (setOutLen 0 (completeByte (readBit s)))
  | copied (hp : s.h.phase = .extCopy) (hk : s.h.k + 1 = 8 * s.h.idx) :
      Ending s (setOutLen s.h.idx (writeOutput (readBit s)))

/-- The codec's moves again, those that complete a command taken together: they rest, end the command, start a run
phase or go on in one. -/
inductive CodecCase (s : State) : State → Prop
  | rests (hp : s.h.phase = .idle) : CodecCase s s
  | ends (e : ErrCode) (u : State) (hu : Ending s u) : CodecCase s (complete e u)
  | embedStarts (hp : s.h.phase = .dispatch) (hd : decode s.h.op = .instr .embed)
      (hc : framedBitCount s.reg ≤ imageCapBits s) (hr : embedProblem s.cfg s.reg = none) :
      CodecCase s (startEmbed (latchCap s))
  | embedGoesOn (hp : s.h.phase = .embRun) (hk : s.h.k + 1 ≠ s.h.framedBits) :
      CodecCase s (countChannel (writeChannel s))
  | scanStarts (hp : s.h.phase = .dispatch) (hd : decode s.h.op = .instr .extract) (hc : imageCapBits s ≠ 0)
      (hr : extractProblem s.cfg s.reg = none) : CodecCase s (startScan s)
  | scanGoesOn (hp : s.h.phase = .extScan) (hk : s.h.k + 1 ≠ s.h.scanBits) : CodecCase s (completeByte (readBit s))
  | copyStarts (hp : s.h.phase = .extScan) (hf : (completeByte (readBit s)).h.found = true)
      (hi : (completeByte (readBit s)).h.idx ≠ 0)
      (ho : outputProblem s.cfg s.reg (completeByte (readBit s)).h.idx = none) :
      CodecCase s (startCopy (completeByte (readBit s)))
  | copyGoesOn (hp : s.h.phase = .extCopy) (hk : s.h.k + 1 ≠ 8 * s.h.idx) : CodecCase s (writeOutput (readBit s))

theorem CodecMove.cases {s t : State} (hm : CodecMove s t) : CodecCase s t := by
  cases hm with
  | idle hp => exact .rests hp
  | illegal hp | nop hp => exact .ends _ _ (.dispatched hp)
  | cap hp | embedTooLarge hp => exact .ends _ _ (.latched hp)
  | embedStart hp hd hc hr => exact .embedStarts hp hd hc hr
  | extractEmpty hp hd => exact .ends _ _ (.noPixels hp hd)
  | extractStart hp hd hc hr => exact .scanStarts hp hd hc hr
  | embRun hp =>
    have he := advanceEmbed_cases (writeChannel s)
    generalize advanceEmbed (writeChannel s) = t at he
    cases he with
    | goesOn hk => exact .embedGoesOn hp hk
    | done hk => exact .ends _ _ (.embedded hp hk)
  | extScan hp ha t he =>
    cases he with
    | goesOn hk => exact .scanGoesOn hp (by simpa using hk)
    | absent hk => exact .ends _ _ (.absent hp (by simpa using hk))
    | empty hk => exact .ends _ _ (.empty hp (by simpa using hk))
    | copies hk hf hi ho => exact .copyStarts hp hf hi (by simpa using ho)
  | extCopy hp =>
    have he := endCopy_cases (writeOutput (readBit s))
    generalize endCopy (writeOutput (readBit s)) = t at he
    cases he with
    | goesOn hk => exact .copyGoesOn hp (by simpa using hk)
    | done hk =>
      rw [show (writeOutput (readBit s)).h.idx = s.h.idx by simp] at hk ⊢
      exact .ends _ _ (.copied hp (by simpa using hk))

theorem Ending.phase_ne_idle {s u : State} (hu : Ending s u) : s.h.phase ≠ .idle := by
  cases hu <;> simp_all

/-- Every step that ends a command leaves LAST_OP and `h.op` alone (R29, R45). -/
theorem Ending.word {s u : State} (hu : Ending s u) : u.reg.lastOp = s.reg.lastOp ∧ u.h.op = s.h.op := by
  cases hu <;> simp

namespace CodecCase

variable {s t : State}

/-- A codec step leaves LAST_OP and `h.op` alone (R29, R45). -/
theorem word (hm : CodecCase s t) : t.reg.lastOp = s.reg.lastOp ∧ t.h.op = s.h.op := by
  cases hm with
  | ends e u hu => exact hu.word
  | _ => simp

/-- A codec step from IDLE is none (R116); one of a command that goes on leaves the flags as they were; the last one of
a command sets DONE (R117). -/
theorem status (hm : CodecCase s t) :
    t = s ∨ s.h.phase ≠ .idle ∧
      (t.h.phase ≠ .idle ∧ flagsOf t.reg = flagsOf s.reg ∨ t.h.phase = .idle ∧ t.reg.done = true) := by
  cases hm with
  | rests => exact .inl rfl
  | ends e u hu => exact .inr ⟨hu.phase_ne_idle, .inr ⟨rfl, rfl⟩⟩
  | _ => simp_all [flagsOf]

end CodecCase

end Sys2Proof.Machine
end

-- The invariants of R57
section
/-! R57's invariants over every step: what the marker detector keeps of the window's clauses, then the codec's moves,
then the step of the machine. -/

namespace Sys2Proof

open Machine

variable {s t : State}

/-! ## The marker window -/

/-- The window holds one byte more, up to five (R196). -/
theorem detectMarker_wcnt (b : Byte) (h : s.h.wcnt ≤ 5) : (detectMarker b s).h.wcnt = min 5 (s.h.wcnt + 1) := by
  by_cases h5 : s.h.wcnt = 5
  · rw [(detectMarker_full b h5).1, h5]
    rfl
  · rw [(detectMarker_filling b h5).1]
    omega

/-- The marker detector leaves an unlatched match unlatched, or finds MARKER in a full window (R196). -/
theorem detectMarker_latch (b : Byte) (hf : s.h.found = false) :
    (detectMarker b s).h.found = false ∧ (detectMarker b s).h.idx = s.h.idx ∨
      (detectMarker b s).h.wcnt = 5 ∧ (detectMarker b s).h.win = s.cfg.marker ∧
        (detectMarker b s).h.idx = s.h.nbytes - 5 := by
  by_cases hm : (detectMarker b s).h.wcnt = 5 ∧ (detectMarker b s).h.win = s.cfg.marker
  · exact .inr ⟨hm.1, hm.2, (detectMarker_match hm.1 hm.2).2⟩
  · exact .inl ⟨(detectMarker_noMatch hm).1.trans hf, (detectMarker_noMatch hm).2⟩

/-- The window's clauses of R57. -/
structure WindowInv (s : State) : Prop where
  window : s.h.wcnt ≤ 5
  found : s.h.found = true → s.h.wcnt = 5

theorem PhaseInv.windowInv (hi : PhaseInv s) : WindowInv s :=
  ⟨hi.window, hi.found⟩

/-- Byte completion keeps the window's clauses: the detector runs only while nothing is latched (R195, R196). -/
theorem windowInv_completeByte (hi : WindowInv s) : WindowInv (completeByte s) := by
  by_cases hd : s.h.k % 8 = 0 ∧ s.h.found = false
  · obtain ⟨hk, hf⟩ := hd
    have hc := detectMarker_wcnt (s := countByte s) s.h.sr hi.window
    have hl := detectMarker_latch (s := countByte s) s.h.sr hf
    rw [completeByte_of_detect hk hf]
    refine ⟨by omega, fun h => ?_⟩
    rcases hl with ⟨hn, -⟩ | ⟨h5, -⟩
    · exact absurd h (by simp [hn])
    · exact h5
  · obtain ⟨-, hc, hf, -⟩ := completeByte_of_no_detect (s := s) (by simpa [or_iff_not_imp_left] using hd)
    exact ⟨hc ▸ hi.window, fun h => hc ▸ hi.found (hf ▸ h)⟩

theorem windowInv_of_ending {u : State} (hi : WindowInv s) (hu : Ending s u) : WindowInv u := by
  have hr : WindowInv (readBit s) := ⟨hi.window, hi.found⟩
  cases hu with
  | noPixels => exact ⟨by simp, by simp⟩
  | absent | empty => exact ⟨(windowInv_completeByte hr).window, (windowInv_completeByte hr).found⟩
  | _ => exact ⟨by simpa using hi.window, by simpa using hi.found⟩

/-! ## The numbered invariants -/

/-- The numbered invariants are about the flags and the hidden state alone. -/
theorem phaseInv_congr (hf : flagsOf t.reg = flagsOf s.reg) (hh : t.h = s.h) (hi : PhaseInv s) : PhaseInv t := by
  simp only [flagsOf, Prod.mk.injEq] at hf
  obtain ⟨hd, he, -⟩ := hf
  obtain ⟨h1, h2, h3, h4, h5, h6⟩ := hi
  constructor <;> simp_all [busy]

/-- In IDLE only the window's clauses say anything. -/
theorem phaseInv_of_idle (hp : s.h.phase = .idle) (hw : WindowInv s) : PhaseInv s :=
  { busyClean := by simp [busy, hp]
    embRun := by simp [hp]
    extScan := by simp [hp]
    extCopy := by simp [hp]
    window := hw.window
    found := hw.found }

/-- A codec step keeps the numbered invariants: a run phase is entered with `h.k` at 0 below its bound, and goes on only
while the bound is not reached. -/
theorem phaseInv_codecCase (hi : PhaseInv s) (hm : CodecCase s t) : PhaseInv t := by
  have hclean (hp : s.h.phase ≠ .idle) : s.reg.done = false ∧ s.reg.err = .none := hi.busyClean (busy_eq_true.2 hp)
  have hr : WindowInv (readBit s) := ⟨hi.window, hi.found⟩
  have hw := windowInv_completeByte hr
  cases hm with
  | rests => exact hi
  | ends e u hu =>
    have hu := windowInv_of_ending hi.windowInv hu
    exact phaseInv_of_idle rfl ⟨hu.window, hu.found⟩
  | embedStarts hp =>
    exact ⟨fun _ => hclean (by simp [hp]), by simp [framedBitCount], by simp, by simp, hi.window, hi.found⟩
  | embedGoesOn hp hk =>
    have hlt : s.h.k + 1 < s.h.framedBits := by have := hi.embRun hp; omega
    exact ⟨fun _ => hclean (by simp [hp]), fun _ => hlt, by simp [hp], by simp [hp], hi.window, hi.found⟩
  | scanStarts hp hd hc =>
    exact ⟨fun _ => hclean (by simp [hp]), by simp, by simp; omega, by simp, by simp, by simp⟩
  | scanGoesOn hp hk =>
    have hlt : s.h.k + 1 < s.h.scanBits := by have := hi.extScan hp; omega
    exact ⟨fun _ => by simpa using hclean (by simp [hp]), by simp [hp], by simpa using fun _ => hlt, by simp [hp],
      hw.window, hw.found⟩
  | copyStarts hp hf hne =>
    exact ⟨fun _ => by simpa using hclean (by simp [hp]), by simp, by simp, by simp; omega, hw.window, hw.found⟩
  | copyGoesOn hp hk =>
    have hlt : s.h.k + 1 < 8 * s.h.idx := by have := hi.extCopy hp; omega
    exact ⟨fun _ => by simpa using hclean (by simp [hp]), by simp [hp], by simp [hp], by simpa using fun _ => hlt,
      by simpa using hi.window, by simpa using hi.found⟩

/-- The reset state meets the numbered invariants (R55, R57). -/
theorem phaseInv_of_reset (hh : s.h = Hidden.reset) : PhaseInv s :=
  phaseInv_of_idle (by rw [hh]; rfl) ⟨by rw [hh]; decide, by rw [hh]; decide⟩

/-- The acceptance of a command clears DONE and ERR and enters no run phase (R115). -/
theorem phaseInv_acceptCommand (v : Word) (hi : PhaseInv s) : PhaseInv (acceptCommand v s) :=
  ⟨fun _ => ⟨rfl, rfl⟩, by simp, by simp, by simp, hi.window, hi.found⟩

theorem phaseInv_writeIdleReg (r : Reg) (v : Word) (hi : PhaseInv s) : PhaseInv (writeIdleReg r v s) := by
  by_cases hr : r = .cmd
  · rw [hr]
    exact phaseInv_acceptCommand v hi
  · exact phaseInv_congr (writeIdleReg_of_ne_cmd hr v s).2 (writeIdleReg_of_ne_cmd hr v s).1 hi

theorem phaseInv_step (hi : PhaseInv s) (h : step s = .next t) : PhaseInv t := by
  have hins (ins : List Input) : PhaseInv { s with inputs := ins } := phaseInv_congr (s := s) rfl rfl hi
  cases step_cases h with
  | codec hc ins t hm => exact phaseInv_codecCase (hins ins) hm.cases
  | reset => exact phaseInv_of_reset rfl
  | write r v rest => exact phaseInv_writeIdleReg r v (hins rest)
  | quiet t hr hh => exact phaseInv_congr (congrArg flagsOf hr) hh hi

/-- Settles O54, by who moves; BUSY is bit 0 of STATUS. -/
theorem phaseInvariantsKeptByEveryStep : Obligations.PhaseInvariantsKeptByEveryStep := by
  intro s t hi h
  exact ⟨phaseInv_step hi h, by rw [statusWord_bit_zero, busy_eq_true]⟩

end Sys2Proof
end

-- The invariant of the machine
section
/-! The whole invariant over every step, clause group by clause group: what a command latches, how far its counters
reach, and what it owns.  The regions of a command depend on its operands alone, and no codec step changes those. -/

namespace Sys2Proof

open Machine

variable {s t : State}

/-! ## Regions and operands -/

section
variable {r q : Regs} (h : operandsOf r = operandsOf q)
include h

theorem regions_congr : pixRegion r = pixRegion q ∧ payRegion r = payRegion q ∧ outRegion r = outRegion q ∧
    writtenRegion r = writtenRegion q := by
  simp only [operandsOf, Prod.mk.injEq] at h
  obtain ⟨hw, hh, hpix, hpay, hlen, hout⟩ := h
  simp [pixRegion, payRegion, outRegion, funext_iff, writtenRegion, hw, hh, hpix, hpay, hlen, hout]

theorem wordRegions_congr (v : Word) : wordRegions v r = wordRegions v q := by
  obtain ⟨hpix, hpay, hout, -⟩ := regions_congr h
  simp only [wordRegions, commandRegions, hpix, hpay, hout]

theorem embedProblem_congr (cfg : Config) : embedProblem cfg r = embedProblem cfg q := by
  obtain ⟨hpix, hpay, -⟩ := regions_congr h
  simp only [embedProblem, hpix, hpay]

theorem extractProblem_congr (cfg : Config) : extractProblem cfg r = extractProblem cfg q := by
  obtain ⟨hpix, -, hout, -⟩ := regions_congr h
  simp only [extractProblem, hpix, hout]

theorem outputProblem_congr (cfg : Config) : outputProblem cfg r = outputProblem cfg q := by
  obtain ⟨-, -, -, hwritten⟩ := regions_congr h
  simp only [outputProblem, hwritten, funext_iff, implies_true]

end

/-! ## What a running command has latched -/

/-- The byte count keeps up with the channels read (R195). -/
theorem nbytes_completeByte_readBit (h : s.h.nbytes = s.h.k / 8) :
    (completeByte (readBit s)).h.nbytes = (s.h.k + 1) / 8 := by
  by_cases hk : (s.h.k + 1) % 8 = 0
  · rw [completeByte_nbytes_of_boundary (s := readBit s) hk, readBit_h]
    simp only
    omega
  · rw [completeByte_of_no_boundary (s := readBit s) hk, readBit_h]
    simp only
    omega

theorem commandInv_of_idle (hp : s.h.phase = .idle) (hl : s.reg.lastOp = cmdOp s.h.op) : CommandInv s :=
  { lastOp := hl
    embRun := by simp [hp]
    extScan := by simp [hp]
    extCopy := by simp [hp] }

theorem commandInv_codecCase (hi : CommandInv s) (hm : CodecCase s t) : CommandInv t := by
  have hl : t.reg.lastOp = cmdOp t.h.op := by rw [hm.word.1, hm.word.2, hi.lastOp]
  cases hm with
  | rests => exact hi
  | ends => exact commandInv_of_idle rfl hl
  | embedStarts hp hd hc => exact ⟨hl, fun _ => ⟨hd, rfl, hc⟩, by simp, by simp⟩
  | embedGoesOn hp => exact ⟨hl, fun _ => hi.embRun hp, by simp [hp], by simp [hp]⟩
  | scanStarts hp hd => exact ⟨hl, by simp, fun _ => ⟨hd, rfl, by simp⟩, by simp⟩
  | scanGoesOn hp =>
    obtain ⟨hd, hs, hn⟩ := hi.extScan hp
    refine ⟨hl, by simp [hp], fun _ => ⟨by simpa using hd, by simpa using hs, ?_⟩, by simp [hp]⟩
    rw [nbytes_completeByte_readBit hn, completeByte_k, readBit_h]
  | copyStarts hp hf =>
    obtain ⟨hd, hs, -⟩ := hi.extScan hp
    exact ⟨hl, by simp, by simp, fun _ => ⟨by simpa using hd, by simpa using hs, hf⟩⟩
  | copyGoesOn hp => exact ⟨hl, by simp [hp], by simp [hp], fun _ => by simpa using hi.extCopy hp⟩

/-! ## The counters -/

theorem imageCapBits_lt (s : State) : imageCapBits s < 2 ^ 34 := by
  have hw : s.reg.width.toNat ≤ 65535 := by have := s.reg.width.isLt; omega
  have hh : s.reg.height.toNat ≤ 65535 := by have := s.reg.height.isLt; omega
  calc imageCapBits s ≤ 3 * 65535 * 65535 := Nat.mul_le_mul (Nat.mul_le_mul_left 3 hw) hh
    _ < 2 ^ 34 := by decide

theorem counterInv_congr (hc : t.cfg = s.cfg) (hf : flagsOf t.reg = flagsOf s.reg)
    (ho : t.reg.outLen = s.reg.outLen) (hh : t.h = s.h) (hi : CounterInv s) : CounterInv t := by
  simp only [flagsOf, Prod.mk.injEq] at hf
  obtain ⟨hd, he, -⟩ := hf
  exact
    { k := hh ▸ hi.k
      framedBits := hh ▸ hi.framedBits
      scanBits := hh ▸ hi.scanBits
      nbytes := hh ▸ hi.nbytes
      wcnt := hh ▸ hi.wcnt
      idx := hh ▸ hi.idx
      found := by rw [hh, hc]; exact hi.found
      outLen := ho ▸ hi.outLen
      err := by rw [hd, he]; exact hi.err
      outLenZero := by rw [hh, ho]; exact hi.outLenZero }

theorem counterInv_complete (e : ErrCode) (hi : CounterInv s) : CounterInv (complete e s) :=
  { hi with
    err := by simp
    outLenZero := by simp }

/-- Outside EXTRACT's run phases OUT_LEN may be any length that fits it (R37). -/
theorem counterInv_complete_setOutLen {n : Nat} (e : ErrCode) (hn : n < 2 ^ 31) (hi : CounterInv s) :
    CounterInv (complete e (setOutLen n s)) :=
  { counterInv_complete e hi with
    outLen := lt_of_le_of_lt (by simpa using Nat.mod_le _ _) hn
    err := by simp
    outLenZero := by simp }

theorem counterInv_initExtract (hi : CounterInv s) : CounterInv (initExtract s) :=
  { hi with
    k := by simp
    scanBits := imageCapBits_lt s
    nbytes := by simp
    wcnt := by simp
    idx := by simp
    found := by simp
    outLen := by simp
    outLenZero := by simp }

theorem framedBitCount_lt (r : Regs) : framedBitCount r < 2 ^ 36 := by
  have := r.payLen.isLt
  simp only [framedBitCount]
  omega

/-- In every run phase `h.k` stays below a bound that is at most 2^34 (R44). -/
theorem k_lt_of_run (hi : Inv s) (hp : s.h.phase = .embRun ∨ s.h.phase = .extScan ∨ s.h.phase = .extCopy) :
    s.h.k < 2 ^ 34 := by
  rcases hp with hp | hp | hp
  · have hk := hi.phase.embRun hp
    obtain ⟨-, -, hle⟩ := hi.command.embRun hp
    have hcap : s.h.framedBits < 2 ^ 34 := lt_of_le_of_lt hle (imageCapBits_lt s)
    omega
  · have hk := hi.phase.extScan hp
    have hcap := hi.counter.scanBits
    omega
  · have hk := hi.phase.extCopy hp
    have hidx := hi.counter.idx
    have hbytes := hi.counter.nbytes
    have hcap := hi.counter.scanBits
    omega

/-- The next channel of a run phase: `h.k` advances, and the shift register and memory may change. -/
theorem counterInv_countChannel_writeChannel (hi : Inv s) (hp : s.h.phase = .embRun) :
    CounterInv (countChannel (writeChannel s)) := by
  have hk : s.h.k < 2 ^ 34 := k_lt_of_run hi (.inl hp)
  exact { hi.counter with k := hk }

theorem counterInv_writeOutput_readBit (hi : Inv s) (hp : s.h.phase = .extCopy) :
    CounterInv (writeOutput (readBit s)) := by
  have hk : s.h.k < 2 ^ 34 := k_lt_of_run hi (.inr (.inr hp))
  have hr : CounterInv (readBit s) := { hi.counter with k := hk }
  exact counterInv_congr (by simp) (by simp) (by simp) (by simp) hr

/-- The detector latches an index only from a full window, so from at least five bytes (R196). -/
theorem counterInv_detectMarker (b : Byte) (hw : s.h.wcnt ≤ 5) (hf : s.h.found = false)
    (hn : s.h.wcnt + 1 ≤ s.h.nbytes) (hi : CounterInv s) : CounterInv (detectMarker b s) := by
  have hcnt := detectMarker_wcnt b hw
  have hbytes : (detectMarker b s).h.nbytes = s.h.nbytes := by rw [detectMarker_h]
  have hphase : (detectMarker b s).h.phase = s.h.phase := by rw [detectMarker_h]
  have hlatch := detectMarker_latch b hf
  have hidx := hi.idx
  exact
    { k := by rw [detectMarker_h]; exact hi.k
      framedBits := by rw [detectMarker_h]; exact hi.framedBits
      scanBits := by rw [detectMarker_h]; exact hi.scanBits
      nbytes := by rw [detectMarker_h]; exact hi.nbytes
      wcnt := by omega
      idx := by
        rcases hlatch with ⟨-, heq⟩ | ⟨-, -, heq⟩ <;> omega
      found := fun h => by
        rcases hlatch with ⟨hno, -⟩ | ⟨h5, hwin, heq⟩
        · exact absurd h (by simp [hno])
        · exact ⟨by omega, by rw [hwin, detectMarker_cfg]⟩
      outLen := by rw [detectMarker_reg]; exact hi.outLen
      err := by rw [detectMarker_reg]; exact hi.err
      outLenZero := by rw [detectMarker_reg, hphase]; exact hi.outLenZero }

/-- Byte completion keeps the counters' relations, as long as the byte completed is one of the scan's (R195, R196). -/
theorem counterInv_completeByte (hw : s.h.wcnt ≤ 5) (hn : s.h.k % 8 = 0 → 8 * (s.h.nbytes + 1) ≤ s.h.scanBits)
    (hi : CounterInv s) : CounterInv (completeByte s) := by
  by_cases hk : s.h.k % 8 = 0
  · have hc : CounterInv (countByte s) :=
      { hi with
        nbytes := hn hk
        wcnt := Nat.le_succ_of_le hi.wcnt
        idx := Nat.le_succ_of_le hi.idx
        found := fun hf => ⟨Nat.le_succ_of_le (hi.found hf).1, (hi.found hf).2⟩ }
    cases hf : s.h.found with
    | true => simpa [completeByte, hk, hf] using hc
    | false =>
      rw [completeByte_of_detect hk hf]
      exact counterInv_detectMarker (s := countByte s) _ hw hf (Nat.succ_le_succ hi.wcnt) hc
  · rwa [completeByte_of_no_boundary hk]

theorem counterInv_scan (hi : Inv s) (hp : s.h.phase = .extScan) : CounterInv (completeByte (readBit s)) := by
  have hk : s.h.k < 2 ^ 34 := k_lt_of_run hi (.inr (.inl hp))
  have hr : CounterInv (readBit s) := { hi.counter with k := hk }
  have hlt := hi.phase.extScan hp
  obtain ⟨-, -, hn⟩ := hi.command.extScan hp
  refine counterInv_completeByte hi.phase.window (fun (hb : (s.h.k + 1) % 8 = 0) => ?_) hr
  show 8 * (s.h.nbytes + 1) ≤ s.h.scanBits
  omega

theorem counterInv_of_ending {u : State} (e : ErrCode) (hi : Inv s) (hu : Ending s u) : CounterInv (complete e u) := by
  cases hu with
  | dispatched => exact counterInv_complete e hi.counter
  | latched => exact counterInv_complete e (counterInv_congr (s := s) rfl rfl rfl rfl hi.counter)
  | noPixels => exact counterInv_complete e (counterInv_initExtract hi.counter)
  | embedded hp => exact counterInv_complete e (counterInv_countChannel_writeChannel hi hp)
  | absent hp => exact counterInv_complete e (counterInv_scan hi hp)
  | empty hp => exact counterInv_complete_setOutLen e (by decide) (counterInv_scan hi hp)
  | copied hp =>
    have hidx := hi.counter.idx
    have hbytes := hi.counter.nbytes
    have hcap := hi.counter.scanBits
    exact counterInv_complete_setOutLen e (by omega) (counterInv_writeOutput_readBit hi hp)

theorem counterInv_codecCase (hi : Inv s) (hm : CodecCase s t) : CounterInv t := by
  cases hm with
  | rests => exact hi.counter
  | ends e u hu => exact counterInv_of_ending e hi hu
  | embedStarts =>
    exact { hi.counter with k := by simp, framedBits := framedBitCount_lt _, outLenZero := by simp }
  | embedGoesOn hp => exact counterInv_countChannel_writeChannel hi hp
  | scanStarts => exact { counterInv_initExtract hi.counter with outLenZero := by simp }
  | scanGoesOn hp => exact counterInv_scan hi hp
  | copyStarts hp =>
    have hzero : s.reg.outLen = 0 := hi.counter.outLenZero (.inl hp)
    exact { counterInv_scan hi hp with k := by simp, outLenZero := by simpa using hzero }
  | copyGoesOn hp => exact counterInv_writeOutput_readBit hi hp

/-! ## Ownership and fitness -/

theorem ownershipInv_of_idle (hp : s.h.phase = .idle) : OwnershipInv s :=
  { owned := by simp [busy, hp]
    embRun := by simp [hp]
    extract := by simp [hp]
    extCopy := by simp [hp] }

/-- What a command owns, and that its regions fit, is about its parameters, its operands, the hidden state and what is
owned. -/
theorem ownershipInv_congr (hc : t.cfg = s.cfg) (hr : operandsOf t.reg = operandsOf s.reg) (hh : t.h = s.h)
    (ho : busy s = true → t.owned = s.owned) (hi : OwnershipInv s) : OwnershipInv t :=
  { owned := fun hb => by
      have hb' : busy s = true := by rwa [busy, hh] at hb
      rw [hh, wordRegions_congr hr, ho hb']
      exact hi.owned hb'
    embRun := by rw [hh, hc, embedProblem_congr hr]; exact hi.embRun
    extract := by rw [hh, hc, extractProblem_congr hr]; exact hi.extract
    extCopy := by rw [hh, hc, outputProblem_congr hr]; exact hi.extCopy }

/-- A codec step that starts a run phase has found its regions fit (R72, R73, R75), and none gives up a region (R74). -/
theorem ownershipInv_codecMove (hi : OwnershipInv s) (hm : CodecMove s t) : OwnershipInv t := by
  obtain ⟨hcfg, -, -, howned, -⟩ := hm.frame
  have hr := hm.operands
  have ho : busy t = true → ∀ o ∈ wordRegions t.h.op t.reg, o ∈ t.owned := by
    intro hb
    rw [hm.cases.word.2, wordRegions_congr hr, howned]
    refine hi.owned ?_
    rcases hm.cases.status with rfl | ⟨hs, -⟩
    · exact hb
    · exact busy_eq_true.2 hs
  have hext (h : extractProblem s.cfg s.reg = none) : extractProblem t.cfg t.reg = none := by
    rw [hcfg, extractProblem_congr hr, h]
  cases hm.cases with
  | rests => exact hi
  | ends => exact ownershipInv_of_idle rfl
  | embedStarts hp hd hc hfit => exact ⟨ho, fun _ => hfit, by simp, by simp⟩
  | embedGoesOn hp => exact ⟨ho, fun _ => hi.embRun hp, by simp [hp], by simp [hp]⟩
  | scanStarts hp hd hc hfit => exact ⟨ho, by simp, fun _ => hext hfit, by simp⟩
  | scanGoesOn hp => exact ⟨ho, by simp [hp], fun _ => hext (hi.extract (.inl hp)), by simp [hp]⟩
  | copyStarts hp hf hne hfit =>
    exact ⟨ho, by simp, fun _ => hext (hi.extract (.inl hp)), fun _ => by simpa using hfit⟩
  | copyGoesOn hp =>
    exact ⟨ho, by simp [hp], fun _ => hext (hi.extract (.inr hp)), fun _ => by simpa using hi.extCopy hp⟩

/-! ## The whole invariant -/

theorem wf_mem_of_codecCase (hi : Memory.wf s.mem = true) (hm : CodecCase s t) : Memory.wf t.mem = true := by
  have hembed : Memory.wf (writeChannel s).mem = true := wf_memWrite hi _ _
  have hcopy : Memory.wf (writeOutput (readBit s)).mem = true := by
    rw [writeOutput]
    split
    · exact wf_memWrite hi _ _
    · exact hi
  cases hm with
  | ends e u hu => cases hu <;> simpa
  | _ => simpa

theorem inv_codecMove (hi : Inv s) (hm : CodecMove s t) : Inv t :=
  { phase := phaseInv_codecCase hi.phase hm.cases
    command := commandInv_codecCase hi.command hm.cases
    counter := counterInv_codecCase hi hm.cases
    ownership := ownershipInv_codecMove hi.ownership hm
    mem := wf_mem_of_codecCase hi.mem hm.cases }

/-- SLC's reset values meet the invariant, whatever the parameters and whatever is still owned (R55). -/
theorem inv_of_reset (hr : s.reg = Regs.reset) (hh : s.h = Hidden.reset) (hm : Memory.wf s.mem = true) : Inv s := by
  have hp : s.h.phase = .idle := by rw [hh]; rfl
  exact
    { phase := phaseInv_of_reset hh
      command := commandInv_of_idle hp (by rw [hr, hh]; decide)
      counter := by constructor <;> simp [hr, hh, Regs.reset, Hidden.reset]
      ownership := ownershipInv_of_idle hp
      mem := hm }

/-- The acceptance of a command makes LAST_OP name it and its regions owned (R74, R115). -/
theorem inv_acceptCommand (v : Word) (hi : Inv s) : Inv (acceptCommand v s) :=
  { phase := phaseInv_acceptCommand v hi.phase
    command := ⟨rfl, by simp, by simp, by simp⟩
    counter := { hi.counter with err := by simp, outLenZero := by simp }
    ownership := ⟨fun _ _ ho => List.mem_append_left _ ho, by simp, by simp, by simp⟩
    mem := hi.mem }

theorem inv_writeIdleReg (r : Reg) (v : Word) (hp : s.h.phase = .idle) (hi : Inv s) : Inv (writeIdleReg r v s) := by
  by_cases hr : r = .cmd
  · rw [hr]
    exact inv_acceptCommand v hi
  · obtain ⟨hh, hf⟩ := writeIdleReg_of_ne_cmd hr v s
    have hidle : (writeIdleReg r v s).h.phase = .idle := by rw [hh, hp]
    have hl : (writeIdleReg r v s).reg.lastOp = s.reg.lastOp := congrArg (·.2.2) hf
    exact
      { phase := phaseInv_writeIdleReg r v hi.phase
        command := commandInv_of_idle hidle (by rw [hl, hh, hi.command.lastOp])
        counter := counterInv_congr (writeIdleReg_cfg r v s) hf (writeIdleReg_outLen r v s) hh hi.counter
        ownership := ownershipInv_of_idle hidle
        mem := by rw [writeIdleReg_mem, hi.mem] }

/-- A step that leaves SLC's own state alone keeps the invariant. -/
theorem inv_congr (hr : t.reg = s.reg) (hh : t.h = s.h) (hc : t.cfg = s.cfg)
    (ho : busy s = true → t.owned = s.owned) (hm : Memory.wf s.mem = true → Memory.wf t.mem = true) (hi : Inv s) :
    Inv t :=
  { phase := phaseInv_congr (congrArg flagsOf hr) hh hi.phase
    command := ⟨by rw [hr, hh, hi.command.lastOp], by rw [hr, hh]; exact hi.command.embRun,
      by rw [hr, hh]; exact hi.command.extScan, by rw [hr, hh]; exact hi.command.extCopy⟩
    counter := counterInv_congr hc (congrArg flagsOf hr) (by rw [hr]) hh hi.counter
    ownership := ownershipInv_congr hc (congrArg operandsOf hr) hh ho hi.ownership
    mem := hm hi.mem }

/-- Settles O55, by who moves. -/
theorem invariantKeptByEveryStep : Obligations.InvariantKeptByEveryStep := by
  intro s t hi h
  have hins (ins : List Input) : Inv { s with inputs := ins } :=
    inv_congr (s := s) rfl rfl rfl (fun _ => rfl) id hi
  cases step_cases h with
  | codec hc ins t hm => exact inv_codecMove (hins ins) hm
  | reset => exact inv_of_reset rfl rfl hi.mem
  | write r v rest hp => exact inv_writeIdleReg r v hp (hins rest)
  | quiet t hr hh hc ho hm => exact inv_congr hr hh hc ho hm hi

/-- Settles O6: power-on is SLC's reset values with an empty memory. -/
theorem resetMeetsInvariant : Obligations.ResetMeetsInvariant :=
  ⟨inv_of_reset rfl rfl rfl, fun _ => inv_of_reset rfl rfl rfl⟩

/-- Settles O56: every width follows from the scan's length, which bounds the bytes and the index. -/
theorem countersFitTheirWidths : Obligations.CountersFitTheirWidths := by
  intro s hi
  obtain ⟨hk, hframed, hscan, hbytes, -, hidx, -, hout, -⟩ := hi.counter
  exact ⟨by omega, hframed, hscan, by omega, by omega, hout⟩

end Sys2Proof
end

-- The registers: layout, reset, STATUS and what changes which
section
/-! The register window's layout, the reset values, and which steps change which register. -/

namespace Sys2Proof

open Machine

variable {s t : State}

/-! ## Layout -/

theorem regBase_toNat (cfg : Config) : (regBase cfg).toNat = 64 * cfg.regBlock.toNat := by
  rw [regBase, toNat_append_eq_add, BitVec.toNat_ofNat]
  omega

/-- The window's addresses are the 64 that an offset reaches (R20). -/
theorem registerWindow_contains_iff (cfg : Config) (a : Word) :
    (registerWindow cfg).contains a = true ↔ ∃ off : BitVec 6, a = regBase cfg + off.setWidth 32 := by
  constructor
  · intro h
    have hlt : (a - regBase cfg).toNat < 64 := (Region.contains_iff _ _).1 h
    refine ⟨(a - regBase cfg).setWidth 6, ?_⟩
    have hoff : ((a - regBase cfg).setWidth 6).setWidth 32 = a - regBase cfg := by
      apply BitVec.eq_of_toNat_eq
      rw [BitVec.toNat_setWidth, BitVec.toNat_setWidth]
      omega
    rw [hoff, BitVec.add_comm, BitVec.sub_add_cancel]
  · rintro ⟨off, rfl⟩
    have h := Region.contains_offset (registerWindow cfg) (j := off.toNat) off.isLt
    rwa [BitVec.ofNat_toNat] at h

/-- Every 4-aligned offset of the window is a register's (R21, R69). -/
theorem decodeReg_isSome_of_aligned : ∀ off : BitVec 6, off.toNat % 4 = 0 → (decodeReg off 4).isSome = true := by
  decide

/-- Settles O4: the decoder of offsets is read off R21's table, and the window is what an offset reaches. -/
theorem registerWindowLayout : Obligations.RegisterWindowLayout :=
  ⟨fun cfg => ⟨by rw [regBase_toNat]; omega, registerWindow_contains_iff cfg⟩,
    fun off h => Option.isSome_iff_exists.1 (decodeReg_isSome_of_aligned off h),
    fun _ _ _ => decodeReg_eq_some, fun r => by cases r <;> rfl⟩

/-! ## Reset -/

/-- What reads as what once registers and hidden state have their reset values (R55). -/
theorem regValue_of_reset (hr : s.reg = Regs.reset) (hh : s.h = Hidden.reset) (r : Reg) :
    regValue r s = match r with
      | .id => 0x53544701
      | .markerLo => s.cfg.marker.b3 ++ s.cfg.marker.b2 ++ s.cfg.marker.b1 ++ s.cfg.marker.b0
      | .markerHi => s.cfg.marker.b4.setWidth 32
      | _ => 0 := by
  cases r <;> simp [regValue, statusWord, busy, hr, hh, Regs.reset, Hidden.reset, idValue, errBits]

/-- A reset that is pending is taken (R260). -/
theorem step_of_reset {rest : List Input} (h : pending s = .reset :: rest) :
    step s = .next (resetSlc { s with inputs := rest }) :=
  step_of_input h

/-- Settles O5: a reset step is `resetSlc`, and power-on has the same registers and hidden state. -/
theorem resetSetsEveryPieceOfState : Obligations.ResetSetsEveryPieceOfState := by
  refine ⟨fun s t h => ?_, fun s rest h => ⟨_, step_of_reset h, rfl, rfl, rfl, rfl⟩⟩
  have ht : t.reg = Regs.reset ∧ t.h = Hidden.reset := by
    rcases h with rfl | ⟨rest, hp, hs⟩
    · exact ⟨rfl, rfl⟩
    · rw [step_of_reset hp] at hs
      cases hs
      exact ⟨rfl, rfl⟩
  obtain ⟨hr, hh⟩ := ht
  refine ⟨fun r => regValue_of_reset hr hh r, ?_⟩
  rw [hr, hh]
  exact ⟨rfl, rfl, rfl, rfl, rfl, rfl, rfl, rfl, rfl, rfl, rfl, rfl, rfl, rfl⟩

/-! ## STATUS -/

/-- Settles O38: STATUS as a number, with DONE and ERR clean while busy, and ERR clean in IDLE until DONE is set. -/
theorem statusHasThreeShapes : Obligations.StatusHasThreeShapes := by
  intro s hi
  rw [statusWord_toNat]
  have hnone (h : s.reg.err = .none) : (errBits s.reg.err).toNat = 0 := by rw [h]; rfl
  by_cases hp : s.h.phase = .idle
  · have hb : busy s = false := busy_eq_false.2 hp
    cases hd : s.reg.done with
    | false =>
      refine .inl ⟨hp, rfl, ?_⟩
      rw [hb, hnone (hi.counter.err hd)]
      simp
    | true =>
      refine .inr (.inr ⟨hp, rfl, _, errBits_le_three s.reg.err, ?_⟩)
      simp [hb]
  · have hb : busy s = true := busy_eq_true.2 hp
    obtain ⟨hd, he⟩ := hi.phase.busyClean hb
    refine .inr (.inl ⟨hp, ?_⟩)
    rw [hb, hd, hnone he]
    simp

/-- Settles O41, by who moves: STATUS depends on the flags and BUSY, and of register writes only CMD's reaches those. -/
theorem statusChangesOnlyByCommandOrReset : Obligations.StatusChangesOnlyByCommandOrReset := by
  intro s t h hne
  cases step_cases h with
  | codec hc ins t hm =>
    rcases hm.cases.status with rfl | ⟨hs, ⟨ht, hf⟩ | ⟨ht, hd⟩⟩
    · exact absurd rfl hne
    · exact absurd (statusWord_congr hf (by simp [hs, ht])) hne
    · exact .inr (.inr ⟨hc, hs, ht, hd⟩)
  | reset rest hp => exact .inl ⟨rest, hp⟩
  | write r v rest hi hp =>
    by_cases hr : r = .cmd
    · subst hr
      exact .inr (.inl ⟨hi, v, rest, hp⟩)
    · obtain ⟨hh, hf⟩ := writeIdleReg_of_ne_cmd hr v { s with inputs := rest }
      exact absurd (statusWord_congr hf (by rw [hh])) hne
  | quiet t hr hh => exact absurd (statusWord_congr (congrArg flagsOf hr) (by rw [hh])) hne

/-! ## Operands -/

section
variable {r : Reg} (hr : r = .width ∨ r = .height ∨ r = .pixBase ∨ r = .payBase ∨ r = .payLen ∨ r = .outBase)
include hr

theorem regValue_congr_of_operand (ho : operandsOf t.reg = operandsOf s.reg) : regValue r t = regValue r s := by
  simp only [operandsOf, Prod.mk.injEq] at ho
  rcases hr with rfl | rfl | rfl | rfl | rfl | rfl <;> simp [regValue, ho]

/-- A register write changes no operand register but the one it names (R112). -/
theorem regValue_writeIdleReg_of_ne {q : Reg} (hq : r ≠ q) (v : Word) (s : State) :
    regValue r (writeIdleReg q v s) = regValue r s := by
  rcases hr with rfl | rfl | rfl | rfl | rfl | rfl <;> cases q <;> simp_all [regValue, writeIdleReg]

/-- What changed an operand register was reset, or a write to that register while idle (R59). -/
theorem operand_change_cause (h : step s = .next t) (hne : regValue r t ≠ regValue r s) :
    (∃ rest, pending s = .reset :: rest) ∨
      (s.h.phase = .idle ∧ ∃ v rest, pending s = .regWrite (regOffset r) 4 v :: rest) := by
  cases step_cases h with
  | codec hc ins t hm => exact absurd (regValue_congr_of_operand hr hm.operands) hne
  | reset rest hp => exact .inl ⟨rest, hp⟩
  | write q v rest hi hp =>
    by_cases hq : r = q
    · exact .inr ⟨hi, v, rest, hq ▸ hp⟩
    · exact absurd (regValue_writeIdleReg_of_ne hr hq v { s with inputs := rest }) hne
  | quiet t hreg => exact absurd (regValue_congr_of_operand hr (congrArg operandsOf hreg)) hne

end

/-- Settles O40, by who moves; no codec step changes an operand. -/
theorem operandsChangeOnlyByHostOrReset : Obligations.OperandsChangeOnlyByHostOrReset := by
  intro s t h
  refine ⟨fun r hr hne => operand_change_cause hr h hne, fun hc => ?_⟩
  obtain ⟨ins, hm⟩ := codecMove_of_step hc h
  exact hm.operands

/-! ## OUT_LEN -/

/-- A codec step changes OUT_LEN only in EXTRACT: to 0 at its DISPATCH step and at the end of its scan, to the index of
the marker at the end of its copy (R37). -/
theorem outLen_of_codecCase (hm : CodecCase s t) :
    t.reg.outLen = s.reg.outLen ∨
      (s.h.phase = .dispatch ∧ decode s.h.op = .instr .extract ∧ t.reg.outLen = 0) ∨
      (s.h.phase = .extScan ∧ t.h.phase = .idle ∧ t.reg.outLen = 0) ∨
      (s.h.phase = .extCopy ∧ t.h.phase = .idle ∧ t.reg.outLen = BitVec.ofNat 32 s.h.idx) := by
  cases hm with
  | ends e u hu =>
    cases hu with
    | noPixels hp hd => exact .inr (.inl ⟨hp, hd, rfl⟩)
    | empty hp => exact .inr (.inr (.inl ⟨hp, rfl, rfl⟩))
    | copied hp => exact .inr (.inr (.inr ⟨hp, rfl, rfl⟩))
    | _ => simp
  | scanStarts hp hd => exact .inr (.inl ⟨hp, hd, rfl⟩)
  | _ => simp

/-- Settles O42, by who moves; no register write reaches OUT_LEN. -/
theorem outLenChangesOnlyByExtract : Obligations.OutLenChangesOnlyByExtract := by
  intro s t h hne
  cases step_cases h with
  | codec hc ins t hm => exact .inr ⟨hc, (outLen_of_codecCase hm.cases).resolve_left hne⟩
  | reset rest hp => exact .inl ⟨rest, hp⟩
  | write r v rest => exact absurd (writeIdleReg_outLen r v { s with inputs := rest }) hne
  | quiet t hr => exact absurd (by rw [hr]) hne

/-! ## The built constants -/

theorem regValue_markerLo_toNat (s : State) :
    (regValue .markerLo s).toNat = s.cfg.marker.b0.toNat + 2 ^ 8 * s.cfg.marker.b1.toNat +
      2 ^ 16 * s.cfg.marker.b2.toNat + 2 ^ 24 * s.cfg.marker.b3.toNat := by
  simp only [regValue, toNat_append_eq_add]
  omega

theorem regValue_markerHi_toNat (s : State) : (regValue .markerHi s).toNat = s.cfg.marker.b4.toNat := by
  have := s.cfg.marker.b4.isLt
  simp only [regValue, BitVec.toNat_setWidth]
  omega

/-- Settles O43: the three registers are read off the parameters, which no step changes. -/
theorem builtConstantsNeverChange : Obligations.BuiltConstantsNeverChange := by
  intro s t h
  have hc : t.cfg = s.cfg := (step_frame h).1
  exact ⟨hc, by simp only [regValue, hc], by simp only [regValue, hc], rfl, regValue_markerLo_toNat t,
    regValue_markerHi_toNat t⟩

end Sys2Proof
end

-- Regions that fit, and where the codec's accesses lie
section
/-! What the fitness checks of R72, R73 and R75 say address by address; then each run phase's accesses, which stay in
the regions the checks were made of. -/

namespace Sys2Proof

open Machine

variable {s : State} {cfg : Config} {r : Regs}

/-! ## The fitness checks -/

/-- An address that a command may reach: no register of SLC (R73), and plain memory (R72). -/
def MayReach (cfg : Config) (a : Word) : Prop :=
  (registerWindow cfg).contains a = false ∧ ∀ q ∈ cfg.notPlain, q.contains a = false

theorem mayReach_iff {a : Word} :
    MayReach cfg a ↔ ¬((a - regBase cfg).toNat < 64) ∧ ∀ q ∈ cfg.notPlain, ¬((a - q.base).toNat < q.len) := by
  simp only [MayReach, ← Bool.not_eq_true, Region.contains_iff, registerWindow]

/-- `reachProblem` finds nothing wrong exactly with regions whose every address may be reached. -/
theorem reachProblem_none_iff {rs : List Region} :
    reachProblem cfg rs = none ↔ ∀ q ∈ rs, ∀ a, q.contains a = true → MayReach cfg a := by
  simp only [reachProblem_none, clearOf_iff, List.mem_singleton, forall_eq, MayReach, ← Bool.not_eq_true, not_and]
  exact ⟨fun ⟨hw, hn⟩ q hq a ha => ⟨hw q hq a ha, fun p hp => hn q hq p hp a ha⟩,
    fun h => ⟨fun q hq a ha => (h q hq a ha).1, fun q hq p hp a ha => (h q hq a ha).2 p hp⟩⟩

/-- A region that may not be reached is refused for the register window or for memory that is not plain. -/
theorem reachProblem_some {rs : List Region} {p : Refusal} (h : reachProblem cfg rs = some p) :
    p = .regionInRegisterWindow ∨ p = .regionNotPlainMemory := by
  unfold reachProblem at h
  split at h
  · exact .inl (Option.some.inj h).symm
  · split at h
    · exact .inr (Option.some.inj h).symm
    · cases h

/-- `overlapProblem` finds nothing wrong exactly with a pixel region of at most 2^32 bytes and no shared address. -/
theorem overlapProblem_none_iff {pix other : Region} :
    overlapProblem pix other = none ↔
      pix.len ≤ 2 ^ 32 ∧ ∀ a, ¬(pix.contains a = true ∧ other.contains a = true) := by
  rw [overlapProblem_none, Region.disjoint_iff, memorySize]

/-- What makes EMBED's regions fit (R72, R73, R75). -/
theorem embedProblem_none_iff :
    embedProblem cfg r = none ↔
      (pixRegion r).len ≤ 2 ^ 32 ∧
      (∀ a, ¬((pixRegion r).contains a = true ∧ (payRegion r).contains a = true)) ∧
      ∀ a, (pixRegion r).contains a = true ∨ (payRegion r).contains a = true → MayReach cfg a := by
  rw [embedProblem_none, overlapProblem_none_iff, reachProblem_none_iff, and_assoc]
  simp only [List.forall_mem_cons, List.not_mem_nil, false_implies, implies_true, and_true, or_imp, forall_and]

/-- What makes EXTRACT's regions fit before its scan (R72, R73, R75). -/
theorem extractProblem_none_iff :
    extractProblem cfg r = none ↔
      (pixRegion r).len ≤ 2 ^ 32 ∧
      (∀ a, ¬((pixRegion r).contains a = true ∧ (outRegion r).contains a = true)) ∧
      ∀ a, (pixRegion r).contains a = true → MayReach cfg a := by
  rw [extractProblem_none, overlapProblem_none_iff, reachProblem_none_iff, and_assoc]
  simp only [List.mem_singleton, forall_eq]

/-- What makes EXTRACT's output fit (R72, R73). -/
theorem outputProblem_none_iff {i : Nat} :
    outputProblem cfg r i = none ↔ ∀ a, (writtenRegion r i).contains a = true → MayReach cfg a := by
  rw [outputProblem, reachProblem_none_iff]
  simp only [List.mem_singleton, forall_eq]

/-- Settles O48: the three checks address by address, with each range's membership as a number. -/
theorem regionsFitExactlyWhenDisjointAndPlain : Obligations.RegionsFitExactlyWhenDisjointAndPlain := by
  intro cfg r pixels clear hpixels hclear
  have hpix (a : Word) : (pixRegion r).contains a = true ↔ pixels a :=
    (Region.contains_iff _ a).trans (hpixels a).symm
  have hreach (a : Word) : MayReach cfg a ↔ clear a := mayReach_iff.trans (hclear a).symm
  refine ⟨?_, ?_, fun i => ?_⟩
  · rw [embedProblem_none_iff]
    simp only [hpix, hreach, Region.contains_iff]
    rfl
  · rw [extractProblem_none_iff]
    simp only [hpix, hreach, Region.contains_iff]
    rfl
  · rw [outputProblem_none_iff]
    simp only [hreach, Region.contains_iff]
    rfl

/-- Settles O18: past the capacity check, the empty image and the empty payload the regions decide. -/
theorem unfitRegionsAreRefused : Obligations.UnfitRegionsAreRefused := by
  intro s p
  refine ⟨fun hfits hp => ?_, fun hpixels hp => ?_, fun hk hf hi hp => ?_⟩
  · have hcap : ¬framedBitCount s.reg > imageCapBits s := Nat.not_lt.2 hfits
    simp only [exec, execEmbed, if_neg hcap, hp]
  · have hcap : imageCapBits s ≠ 0 := hpixels
    simp only [exec, execExtract, if_neg hcap, hp]
  · simp only [endScan, if_pos hk, if_pos hf, if_neg hi, hp]

/-! ## Where the accesses of a run phase lie -/

/-- In every run phase the next channel is one of the image's (R12, R162, R194, R202). -/
theorem k_lt_channels (hi : Inv s) (hp : s.h.phase = .embRun ∨ s.h.phase = .extScan ∨ s.h.phase = .extCopy) :
    s.h.k < 3 * s.reg.width.toNat * s.reg.height.toNat := by
  rcases hp with hp | hp | hp
  · obtain ⟨-, -, hle⟩ := hi.command.embRun hp
    exact (hi.phase.embRun hp).trans_le hle
  · obtain ⟨-, hscan, -⟩ := hi.command.extScan hp
    exact hscan ▸ hi.phase.extScan hp
  · obtain ⟨-, hscan, -⟩ := hi.command.extCopy hp
    have hk := hi.phase.extCopy hp
    have hidx := hi.counter.idx
    have hbytes := hi.counter.nbytes
    omega

theorem codecAccesses_of_no_run (hp : s.h.phase = .idle ∨ s.h.phase = .dispatch) : codecAccesses s = [] := by
  rcases hp with hp | hp <;> simp only [codecAccesses, hp]

theorem codecAccesses_of_embRun (hp : s.h.phase = .embRun) : codecAccesses s = embedAccesses s := by
  simp only [codecAccesses, hp]

theorem codecAccesses_of_extScan (hp : s.h.phase = .extScan) :
    codecAccesses s = [{ kind := .read, addr := chanAddr s.reg s.h.k }] := by
  simp only [codecAccesses, hp]

theorem codecAccesses_of_extCopy (hp : s.h.phase = .extCopy) : codecAccesses s = copyAccesses s := by
  simp only [codecAccesses, hp]

/-- The accesses of an EMB_RUN step: channel `h.k`, and at a byte boundary within the payload its next byte. -/
theorem mem_embedAccesses {acc : Access} (h : acc ∈ embedAccesses s) :
    acc.addr = chanAddr s.reg s.h.k ∨
      acc = { kind := .read, addr := payAddr s.reg (s.h.k / 8) } ∧ s.h.k % 8 = 0 ∧ s.h.k / 8 < s.reg.payLen.toNat := by
  rcases List.mem_append.1 h with h | h
  · split at h
    · rename_i hload
      obtain rfl := List.mem_singleton.1 h
      exact .inr ⟨rfl, by simpa [loadsPayload] using hload⟩
    · cases h
  · left
    simp only [List.mem_cons, List.not_mem_nil, or_false] at h
    rcases h with rfl | rfl <;> rfl

/-- The accesses of an EXT_COPY step: channel `h.k`, and the output byte that the step completes, if it does. -/
theorem mem_copyAccesses {acc : Access} (h : acc ∈ copyAccesses s) :
    acc = { kind := .read, addr := chanAddr s.reg s.h.k } ∨
      acc = { kind := .write, addr := outAddr s.reg ((s.h.k + 1) / 8 - 1) } ∧ (s.h.k + 1) % 8 = 0 := by
  rcases List.mem_cons.1 h with h | h
  · exact .inl h
  · split at h
    · rename_i hwrites
      exact .inr ⟨List.mem_singleton.1 h, by simpa [copyWrites] using hwrites⟩
    · cases h

/-- The byte that an EXT_COPY step completes is one of the `h.idx` that R61 gives the output, which the bound of R74
covers. -/
theorem outAddr_in_output (hi : Inv s) (hp : s.h.phase = .extCopy) (hk : (s.h.k + 1) % 8 = 0) :
    (writtenRegion s.reg s.h.idx).contains (outAddr s.reg ((s.h.k + 1) / 8 - 1)) = true ∧
      (outRegion s.reg).contains (outAddr s.reg ((s.h.k + 1) / 8 - 1)) = true := by
  obtain ⟨-, hscan, hfound⟩ := hi.command.extCopy hp
  have hlt := hi.phase.extCopy hp
  have hidx := (hi.counter.found hfound).1
  have hbytes := hi.counter.nbytes
  rw [Nat.mul_assoc] at hscan
  have hj : (s.h.k + 1) / 8 - 1 < s.h.idx := by omega
  have hj' : (s.h.k + 1) / 8 - 1 < 3 * (s.reg.width.toNat * s.reg.height.toNat) / 8 - 5 := by omega
  exact ⟨Region.contains_offset (writtenRegion s.reg s.h.idx) hj, Region.contains_offset (outRegion s.reg) hj'⟩

/-- Settles O45, phase by phase. -/
theorem accessesStayInTheCommandsRegions : Obligations.AccessesStayInTheCommandsRegions := by
  intro s hi
  refine ⟨codecAccesses_of_no_run, fun acc hacc => ⟨fun hp => ?_, fun hp => ?_, fun hp => ?_⟩⟩
  · have hpix := pixRegion_contains_chanAddr (k_lt_channels hi (.inl hp))
    rw [codecAccesses_of_embRun hp] at hacc
    rcases mem_embedAccesses hacc with haddr | ⟨rfl, -, hj⟩
    · exact .inl (haddr ▸ hpix)
    · exact .inr ⟨rfl, Region.contains_offset (payRegion s.reg) hj⟩
  · have hpix := pixRegion_contains_chanAddr (k_lt_channels hi (.inr (.inl hp)))
    rw [codecAccesses_of_extScan hp] at hacc
    obtain rfl := List.mem_singleton.1 hacc
    exact ⟨rfl, hpix⟩
  · have hpix := pixRegion_contains_chanAddr (k_lt_channels hi (.inr (.inr hp)))
    rw [codecAccesses_of_extCopy hp] at hacc
    rcases mem_copyAccesses hacc with rfl | ⟨rfl, hk⟩
    · exact .inl ⟨rfl, hpix⟩
    · exact .inr ⟨rfl, outAddr_in_output hi hp hk⟩

/-- Settles O49: the accesses stay in regions that were found fit when the phase was entered. -/
theorem codecNeverReachesItsRegisters : Obligations.CodecNeverReachesItsRegisters := by
  intro s hi acc hacc
  show MayReach s.cfg acc.addr
  obtain ⟨hnone, hin⟩ := accessesStayInTheCommandsRegions s hi
  obtain ⟨hembed, hscan, hcopy⟩ := hin acc hacc
  have hext (hp : s.h.phase = .extScan ∨ s.h.phase = .extCopy) (a : Word)
      (ha : (pixRegion s.reg).contains a = true) : MayReach s.cfg a :=
    (extractProblem_none_iff.1 (hi.ownership.extract hp)).2.2 a ha
  cases hp : s.h.phase with
  | idle => simp [hnone (.inl hp)] at hacc
  | dispatch => simp [hnone (.inr hp)] at hacc
  | embRun =>
    exact (embedProblem_none_iff.1 (hi.ownership.embRun hp)).2.2 _ ((hembed hp).imp_right And.right)
  | extScan => exact hext (.inl hp) _ (hscan hp).2
  | extCopy =>
    rcases hcopy hp with ⟨-, hpix⟩ | ⟨-, hout, -⟩
    · exact hext (.inr hp) _ hpix
    · exact outputProblem_none_iff.1 (hi.ownership.extCopy hp) _ hout

end Sys2Proof
end

-- The codec's accesses and memory
section
/-! A run step as its accesses and its effect: when it happens, and which bytes it can change. -/

namespace Sys2Proof.Machine

variable {s t : State}

/-! ## Admission -/

theorem atomicStep_of_admitted {cfg : Config} {accs : List Access} (r : Result)
    (h : ∀ acc ∈ accs, admits cfg acc = true) : atomicStep cfg accs r = r := by
  rw [atomicStep, (firstNotAdmitted_none cfg accs).2 h]

/-- A step with an access that is not admitted stops with the fault that names one (R64). -/
theorem atomicStep_of_not_admitted {cfg : Config} {accs : List Access} (r : Result)
    (h : ¬∀ acc ∈ accs, admits cfg acc = true) :
    ∃ acc ∈ accs, admits cfg acc = false ∧ atomicStep cfg accs r = .fault (.stuck acc.kind acc.addr) := by
  cases hf : firstNotAdmitted cfg accs with
  | none => exact absurd ((firstNotAdmitted_none cfg accs).1 hf) h
  | some acc =>
    obtain ⟨hmem, hno⟩ := firstNotAdmitted_some hf
    exact ⟨acc, hmem, hno, by rw [atomicStep, hf]⟩

/-- The end of a scan step is a next state, or the refusal of an output that may not be reached (R72, R73). -/
theorem endScan_outcome (s : State) :
    (∃ t, endScan s = .next t) ∨
      s.h.k = s.h.scanBits ∧
        (endScan s = .refused .regionInRegisterWindow ∨ endScan s = .refused .regionNotPlainMemory) := by
  cases h : endScan s with
  | next t => exact .inl ⟨t, rfl⟩
  | fault p =>
    unfold endScan at h
    split at h
    · split at h
      · split at h
        · cases h
        · split at h <;> cases h
      · cases h
    · cases h
  | refused p =>
    obtain ⟨hk, -, -, hp⟩ := endScan_refused h
    rcases reachProblem_some hp with rfl | rfl
    · exact .inr ⟨hk, .inl rfl⟩
    · exact .inr ⟨hk, .inr rfl⟩

/-- What a codec step does where its accesses are admitted; IDLE and DISPATCH make none. -/
def runEffect (s : State) : Result :=
  match s.h.phase with
  | .embRun => .next (advanceEmbed (writeChannel s))
  | .extScan => endScan (completeByte (readBit s))
  | .extCopy => .next (endCopy (writeOutput (readBit s)))
  | _ => codecStep s

/-- Every codec step is atomic in its accesses (R64, R116). -/
theorem codecStep_eq_atomicStep (s : State) : codecStep s = atomicStep s.cfg (codecAccesses s) (runEffect s) := by
  cases hp : s.h.phase with
  | idle | dispatch =>
    rw [codecAccesses_of_no_run (by simp [hp]), atomicStep_of_admitted _ (by simp)]
    simp only [runEffect, hp]
  | embRun | extScan | extCopy => simp only [codecStep, codecAccesses, runEffect, hp]; rfl

/-- The effect of a run step is a next state, or the refusal at the end of a scan (assumption log 5). -/
theorem runEffect_outcome (hp : s.h.phase = .embRun ∨ s.h.phase = .extScan ∨ s.h.phase = .extCopy) :
    (∃ t, runEffect s = .next t) ∨
      s.h.phase = .extScan ∧ s.h.k + 1 = s.h.scanBits ∧
        (runEffect s = .refused .regionInRegisterWindow ∨ runEffect s = .refused .regionNotPlainMemory) := by
  rcases hp with hp | hp | hp <;> simp only [runEffect, hp]
  · exact .inl ⟨_, rfl⟩
  · refine (endScan_outcome (completeByte (readBit s))).imp_right fun ⟨hk, hr⟩ => ⟨trivial, ?_, hr⟩
    simpa using hk
  · exact .inl ⟨_, rfl⟩

/-- Where the codec moves, the machine's step is the codec's, with its turn taken from what is pending. -/
theorem step_of_codecMoves (h : codecMoves s) : ∃ ins, step s = codecStep { s with inputs := ins } := by
  rcases h with hp | ⟨rest, hp⟩
  · exact ⟨s.inputs, step_of_no_inputs hp⟩
  · exact ⟨rest, step_of_input hp⟩

theorem codecStep_of_admitted (h : accessesAdmitted s) : codecStep s = runEffect s := by
  rw [codecStep_eq_atomicStep, atomicStep_of_admitted _ h]

theorem codecStep_of_not_admitted (h : ¬accessesAdmitted s) :
    ∃ acc ∈ codecAccesses s, admits s.cfg acc = false ∧ codecStep s = .fault (.stuck acc.kind acc.addr) := by
  rw [codecStep_eq_atomicStep]
  exact atomicStep_of_not_admitted _ h

/-- Settles O8: a run step is atomic in its accesses, and only the end of a scan can be refused. -/
theorem runStepHappensWhenAdmitted : Obligations.RunStepHappensWhenAdmitted := by
  intro s hp hc
  obtain ⟨ins, hs⟩ := step_of_codecMoves hc
  rw [hs]
  refine ⟨fun ha => ?_, codecStep_of_not_admitted (s := { s with inputs := ins })⟩
  rw [codecStep_of_admitted (s := { s with inputs := ins }) ha]
  exact runEffect_outcome (s := { s with inputs := ins }) hp

/-! ## The bytes that a step can change -/

/-- A codec step leaves memory alone, writes its channel, or writes the output byte that it completes (R165, R202). -/
theorem CodecCase.mem_eq (hm : CodecCase s t) :
    t.mem = s.mem ∨ s.h.phase = .embRun ∧ t.mem = (writeChannel s).mem ∨
      s.h.phase = .extCopy ∧ t.mem = (writeOutput (readBit s)).mem := by
  cases hm with
  | ends e u hu => cases hu <;> simp_all
  | _ => simp_all

theorem writeChannel_mem (s : State) :
    (writeChannel s).mem = memWrite s.mem (chanAddr s.reg s.h.k)
      (withLsb (memRead s.mem (chanAddr s.reg s.h.k)) (msbFirstBit (framerByte s) s.h.k)) := rfl

/-- A copy step reads a bit, and where that completes a byte stores it (R202). -/
theorem writeOutput_readBit_eq (s : State) :
    writeOutput (readBit s) =
      { readBit s with
        mem := if copyWrites s then memWrite s.mem (outAddr s.reg ((s.h.k + 1) / 8 - 1)) (readBit s).h.sr
          else s.mem } := by
  unfold writeOutput copyWrites
  split <;> rename_i hk
  · rw [if_pos (by simpa using hk)]
    rfl
  · rw [if_neg (by simpa using hk)]
    rfl

/-- A byte that a codec step changes is the address of one of its write accesses. -/
theorem write_access_of_memRead_ne {a : Word} (hm : CodecCase s t) (hne : memRead t.mem a ≠ memRead s.mem a) :
    { kind := .write, addr := a } ∈ codecAccesses s := by
  rcases hm.mem_eq with heq | ⟨hp, heq⟩ | ⟨hp, heq⟩ <;> rw [heq] at hne
  · exact absurd rfl hne
  · rw [writeChannel_mem] at hne
    obtain rfl : a = chanAddr s.reg s.h.k := by_contra fun h => hne (memRead_memWrite_other _ _ h)
    simp [codecAccesses_of_embRun hp, embedAccesses]
  · rw [writeOutput_readBit_eq] at hne
    split at hne
    · rename_i hw
      obtain rfl : a = outAddr s.reg ((s.h.k + 1) / 8 - 1) := by_contra fun h => hne (memRead_memWrite_other _ _ h)
      simp [codecAccesses_of_extCopy hp, copyAccesses, hw]
    · exact absurd rfl hne

/-- Settles O46: of what comes from outside only a memory write changes a byte, the one it names. -/
theorem memoryChangesOnlyByAWriteAccess : Obligations.MemoryChangesOnlyByAWriteAccess := by
  intro s t a h hne
  rcases step_next h with ⟨hp, hm⟩ | ⟨rest, hp, hm⟩ | ⟨i, rest, hp, hm⟩
  · exact .inl ⟨.inl hp, write_access_of_memRead_ne hm.cases hne⟩
  · exact .inl ⟨.inr ⟨rest, hp⟩, write_access_of_memRead_ne (s := { s with inputs := rest }) hm.cases hne⟩
  · cases hm with
    | memWrite b v =>
      obtain rfl : a = b := by_contra fun h => hne (memRead_memWrite_other _ _ h)
      exact .inr ⟨v, rest, hp⟩
    | _ => simp at hne

end Sys2Proof.Machine
end

-- What a codec step depends on
section
/-! The codec's moves over another memory.  Each part of a move does to registers and hidden state what it did, as long
as the bytes that the move reads are alike. -/

namespace Sys2Proof.Machine

variable {s t : State}

/-! ## The parts of a move over another memory -/

theorem endScan_of_scanEnd (h : ScanEnd s t) : endScan s = .next t := by
  cases h <;> simp_all [endScan]

/-- Every one of `CodecMove`'s cases is a codec step: with `codecStep_next`, they are exactly what it answers. -/
theorem codecStep_of_codecMove (hm : CodecMove s t) : codecStep s = .next t := by
  cases hm with
  | idle hp => simp only [codecStep, hp]
  | illegal hp why hd => simp only [codecStep, hp, dispatchStep, hd, illegalCommand]
  | nop hp hd => simp only [codecStep, hp, dispatchStep, hd, exec, execNop]
  | cap hp hd => simp only [codecStep, hp, dispatchStep, hd, exec, execCap]
  | embedTooLarge hp hd hc => simp only [codecStep, hp, dispatchStep, hd, exec, execEmbed, if_pos hc]
  | embedStart hp hd hc hr =>
    simp only [codecStep, hp, dispatchStep, hd, exec, execEmbed, if_neg (Nat.not_lt.2 hc), hr]
  | extractEmpty hp hd hc => simp only [codecStep, hp, dispatchStep, hd, exec, execExtract, if_pos hc]
  | extractStart hp hd hc hr => simp only [codecStep, hp, dispatchStep, hd, exec, execExtract, if_neg hc, hr]
  | embRun hp ha =>
    rw [codecStep_eq_atomicStep, codecAccesses_of_embRun hp, atomicStep_of_admitted _ ha]
    simp only [runEffect, hp]
  | extScan hp ha t he =>
    rw [codecStep_eq_atomicStep, codecAccesses_of_extScan hp, atomicStep_of_admitted _ (by simpa using ha)]
    simp only [runEffect, hp, endScan_of_scanEnd he]
  | extCopy hp ha =>
    rw [codecStep_eq_atomicStep, codecAccesses_of_extCopy hp, atomicStep_of_admitted _ ha]
    simp only [runEffect, hp]

theorem advanceEmbed_eq (s : State) :
    advanceEmbed s =
      if s.h.k + 1 = s.h.framedBits then complete .none (countChannel s) else countChannel s := rfl

section
variable (m : Memory)

theorem advanceEmbed_withMem (s : State) : advanceEmbed { s with mem := m } = { advanceEmbed s with mem := m } := by
  simp only [advanceEmbed_eq]
  split_ifs <;> rfl

theorem endCopy_withMem (s : State) : endCopy { s with mem := m } = { endCopy s with mem := m } := by
  unfold endCopy
  split_ifs <;> rfl

theorem detectMarker_withMem (b : Byte) (s : State) :
    detectMarker b { s with mem := m } = { detectMarker b s with mem := m } := by
  unfold detectMarker latchMatch enterWindow
  split_ifs <;> rfl

theorem completeByte_withMem (s : State) : completeByte { s with mem := m } = { completeByte s with mem := m } := by
  unfold completeByte
  split_ifs
  · rfl
  · exact detectMarker_withMem m _ (countByte s)
  · rfl

/-- The end of a scan reads no memory. -/
theorem ScanEnd.withMem (h : ScanEnd s t) : ScanEnd { s with mem := m } { t with mem := m } := by
  cases h with
  | goesOn hk => exact .goesOn hk
  | absent hk hf => exact .absent hk hf
  | empty hk hf hi => exact .empty hk hf hi
  | copies hk hf hi ho => exact .copies hk hf hi ho

section
variable (h : memRead m (chanAddr s.reg s.h.k) = memRead s.mem (chanAddr s.reg s.h.k))
include h

/-- The bit reader depends on the channel that it reads alone (R192). -/
theorem readBit_withMem : readBit { s with mem := m } = { readBit s with mem := m } := by
  simp only [readBit, h]

/-- The byte that a copy step completes depends on the channel that it reads alone (R202). -/
theorem writeOutput_readBit_withMem :
    writeOutput (readBit { s with mem := m }) =
      { writeOutput (readBit s) with
        mem := if copyWrites s then memWrite m (outAddr s.reg ((s.h.k + 1) / 8 - 1)) (readBit s).h.sr else m } := by
  simp only [writeOutput_readBit_eq]
  rw [readBit_withMem m h]
  rfl

/-- The byte that an EMB_RUN step writes depends on the channel that it replaces and the payload byte that it loads
alone (R164, R165). -/
theorem writeChannel_withMem
    (hpay : s.h.k % 8 = 0 → s.h.k / 8 < s.reg.payLen.toNat →
      memRead m (payAddr s.reg (s.h.k / 8)) = memRead s.mem (payAddr s.reg (s.h.k / 8))) :
    writeChannel { s with mem := m } =
      { writeChannel s with
        mem := memWrite m (chanAddr s.reg s.h.k)
          (withLsb (memRead s.mem (chanAddr s.reg s.h.k)) (msbFirstBit (framerByte s) s.h.k)) } := by
  have hframer : framerByte { s with mem := m } = framerByte s := by
    simp only [framerByte]
    split_ifs with hk hj
    · exact hpay hk hj
    · rfl
    · rfl
  simp only [writeChannel, hframer, h]

end

end

/-- Two memories alike at `b`, unless it is the byte written, are alike there after the write. -/
theorem memRead_memWrite_congr {m n : Memory} (hm : Memory.wf m = true) (hn : Memory.wf n = true) {a b : Word}
    {v : Byte} (h : b ≠ a → memRead m b = memRead n b) : memRead (memWrite m a v) b = memRead (memWrite n a v) b := by
  by_cases hb : b = a
  · rw [hb, memRead_memWrite_same hm, memRead_memWrite_same hn]
  · rw [memRead_memWrite_other m v hb, memRead_memWrite_other n v hb, h hb]

/-! ## The moves -/

section
variable {m : Memory} (hs : Memory.wf s.mem = true) (hm : Memory.wf m = true)

/-- The move of `s` is also the move over the memory `m`, and leaves the same bytes at the addresses accessed. -/
def SameMove (m : Memory) (s t : State) : Prop :=
  ∃ n, CodecMove { s with mem := m } { t with mem := n } ∧
    ∀ acc ∈ codecAccesses s, memRead n acc.addr = memRead t.mem acc.addr

/-- A move that leaves memory alone is the same over a memory alike at the bytes that it accesses. -/
theorem sameMove_of_mem_eq (ht : t.mem = s.mem) (hmove : CodecMove { s with mem := m } { t with mem := m })
    (h : ∀ acc ∈ codecAccesses s, memRead m acc.addr = memRead s.mem acc.addr) : SameMove m s t :=
  ⟨m, hmove, by rwa [ht]⟩

section
variable (hreads : ∀ acc ∈ codecAccesses s, acc.kind = .read → memRead m acc.addr = memRead s.mem acc.addr)
include hreads

theorem sameMove_extScan (hp : s.h.phase = .extScan)
    (ha : admits s.cfg { kind := .read, addr := chanAddr s.reg s.h.k } = true)
    (he : ScanEnd (completeByte (readBit s)) t) : SameMove m s t := by
  rw [codecAccesses_of_extScan hp] at hreads
  have hchan : memRead m (chanAddr s.reg s.h.k) = memRead s.mem (chanAddr s.reg s.h.k) :=
    hreads _ (List.mem_singleton.2 rfl) rfl
  refine sameMove_of_mem_eq (by simp [he.frame]) (CodecMove.extScan (s := { s with mem := m }) hp ha _ ?_) ?_
  · rw [readBit_withMem m hchan, completeByte_withMem]
    exact he.withMem m
  · rw [codecAccesses_of_extScan hp]
    simpa using hchan

include hs hm

theorem sameMove_embRun (hp : s.h.phase = .embRun) (ha : ∀ acc ∈ embedAccesses s, admits s.cfg acc = true) :
    SameMove m s (advanceEmbed (writeChannel s)) := by
  rw [codecAccesses_of_embRun hp] at hreads
  have hchan : memRead m (chanAddr s.reg s.h.k) = memRead s.mem (chanAddr s.reg s.h.k) :=
    hreads { kind := .read, addr := chanAddr s.reg s.h.k } (by simp [embedAccesses]) rfl
  have hpay (hk : s.h.k % 8 = 0) (hj : s.h.k / 8 < s.reg.payLen.toNat) :
      memRead m (payAddr s.reg (s.h.k / 8)) = memRead s.mem (payAddr s.reg (s.h.k / 8)) :=
    hreads { kind := .read, addr := payAddr s.reg (s.h.k / 8) } (by simp [embedAccesses, loadsPayload, hk, hj]) rfl
  have hmove : CodecMove { s with mem := m } (advanceEmbed (writeChannel { s with mem := m })) := .embRun hp ha
  rw [writeChannel_withMem m hchan hpay, advanceEmbed_withMem] at hmove
  refine ⟨_, hmove, fun acc hacc => ?_⟩
  rw [codecAccesses_of_embRun hp] at hacc
  rw [advanceEmbed_mem, writeChannel_mem]
  refine memRead_memWrite_congr hm hs fun hne => ?_
  obtain ⟨rfl, -⟩ := (mem_embedAccesses hacc).resolve_left hne
  exact hreads _ hacc rfl

theorem sameMove_extCopy (hp : s.h.phase = .extCopy) (ha : ∀ acc ∈ copyAccesses s, admits s.cfg acc = true) :
    SameMove m s (endCopy (writeOutput (readBit s))) := by
  rw [codecAccesses_of_extCopy hp] at hreads
  have hchan : memRead m (chanAddr s.reg s.h.k) = memRead s.mem (chanAddr s.reg s.h.k) :=
    hreads { kind := .read, addr := chanAddr s.reg s.h.k } (by simp [copyAccesses]) rfl
  have hmove : CodecMove { s with mem := m } (endCopy (writeOutput (readBit { s with mem := m }))) := .extCopy hp ha
  rw [writeOutput_readBit_withMem m hchan, endCopy_withMem] at hmove
  refine ⟨_, hmove, fun acc hacc => ?_⟩
  rw [codecAccesses_of_extCopy hp] at hacc
  rw [endCopy_mem, writeOutput_readBit_eq]
  rcases mem_copyAccesses hacc with rfl | ⟨rfl, hk⟩
  · split_ifs
    · exact memRead_memWrite_congr hm hs fun _ => hchan
    · exact hchan
  · rw [if_pos (by simpa [copyWrites] using hk), if_pos (by simpa [copyWrites] using hk)]
    exact memRead_memWrite_congr hm hs fun hne => absurd rfl hne

/-- Every move is the same over a memory alike at the bytes that it reads. -/
theorem CodecMove.sameMove (hmove : CodecMove s t) : SameMove m s t := by
  have hnone (hp : s.h.phase = .idle ∨ s.h.phase = .dispatch) :
      ∀ acc ∈ codecAccesses s, memRead m acc.addr = memRead s.mem acc.addr := by
    simp [codecAccesses_of_no_run hp]
  cases hmove with
  | idle hp => exact sameMove_of_mem_eq rfl (.idle hp) (hnone (.inl hp))
  | illegal hp why hd => exact sameMove_of_mem_eq rfl (.illegal hp why hd) (hnone (.inr hp))
  | nop hp hd => exact sameMove_of_mem_eq rfl (.nop hp hd) (hnone (.inr hp))
  | cap hp hd => exact sameMove_of_mem_eq rfl (.cap hp hd) (hnone (.inr hp))
  | embedTooLarge hp hd hc => exact sameMove_of_mem_eq rfl (.embedTooLarge hp hd hc) (hnone (.inr hp))
  | embedStart hp hd hc hr => exact sameMove_of_mem_eq rfl (.embedStart hp hd hc hr) (hnone (.inr hp))
  | extractEmpty hp hd hc => exact sameMove_of_mem_eq rfl (.extractEmpty hp hd hc) (hnone (.inr hp))
  | extractStart hp hd hc hr => exact sameMove_of_mem_eq rfl (.extractStart hp hd hc hr) (hnone (.inr hp))
  | embRun hp ha => exact sameMove_embRun hs hm hreads hp ha
  | extScan hp ha t he => exact sameMove_extScan hreads hp ha he
  | extCopy hp ha => exact sameMove_extCopy hs hm hreads hp ha

end

end

/-- Settles O47, by the codec's moves: each is a move over the other memory too. -/
theorem codecStepDependsOnlyOnBytesItReads : Obligations.CodecStepDependsOnlyOnBytesItReads := by
  intro s t m hs hm hnil hreads h
  rw [step_of_no_inputs hnil] at h
  obtain ⟨n, hmove, hbytes⟩ := (codecStep_next h).sameMove hs hm hreads
  refine ⟨{ t with mem := n }, ?_, rfl, rfl, hbytes⟩
  rw [step_of_no_inputs (s := { s with mem := m }) hnil]
  exact codecStep_of_codecMove hmove

end Sys2Proof.Machine
end

-- Agents: refused accesses, ownership, and the running command
section
/-! What the host and other agents can and cannot do to a running command: which of their accesses are refused, which
steps begin and end ownership, and what a step of theirs leaves alone meanwhile. -/

namespace Sys2Proof

open Machine

variable {s t : State}

/-! ## Refused accesses -/

/-- An access that is no whole word, or is at no multiple of 4, names no register (R69). -/
theorem decodeReg_eq_none {off : BitVec 6} {bytes : Nat} (h : ¬(bytes = 4 ∧ off.toNat % 4 = 0)) :
    decodeReg off bytes = none := by
  refine Option.eq_none_iff_forall_ne_some.2 fun r hr => h ?_
  obtain ⟨rfl, rfl⟩ := decodeReg_eq_some.1 hr
  exact ⟨rfl, by cases r <;> rfl⟩

theorem agentProblem_of_window {kind : AccessKind} {a : Word} (h : (registerWindow s.cfg).contains a = true) :
    agentProblem kind a s = some .registerAccess := by
  rw [agentProblem, if_pos h]

/-- Outside the register window, an access to a region that a command owns is a race, where it is a write or the
command writes the region (R81). -/
theorem agentProblem_of_owned {kind : AccessKind} {a : Word} {o : Owned} (ho : o ∈ s.owned)
    (ha : o.region.contains a = true) (hk : kind = .write ∨ o.written = true)
    (hw : (registerWindow s.cfg).contains a = false) : agentProblem kind a s = some .race := by
  have hany : (s.owned.any fun o => (decide (kind = .write) || o.written) && o.region.contains a) = true :=
    List.any_eq_true.2 ⟨o, ho, by simpa [ha] using hk⟩
  rw [agentProblem, if_neg (by simp [hw]), if_pos hany]

section
variable {a : Word} {p : Refusal} {rest : List Input}

theorem step_of_memRead_problem (hp : pending s = .memRead a :: rest) (h : agentProblem .read a s = some p) :
    step s = .refused p := by
  have h' : agentProblem .read a { s with inputs := rest } = some p := h
  simp only [step_of_input hp, inputStep, agentRead, h']

theorem step_of_memWrite_problem {v : Byte} (hp : pending s = .memWrite a v :: rest)
    (h : agentProblem .write a s = some p) : step s = .refused p := by
  have h' : agentProblem .write a { s with inputs := rest } = some p := h
  simp only [step_of_input hp, inputStep, agentWrite, h']

end

/-- Settles O39: such an access names no register, and the window comes first among what is wrong with an access. -/
theorem unalignedRegisterAccessIsRefused : Obligations.UnalignedRegisterAccessIsRefused := by
  intro s off bytes v a b rest
  refine ⟨fun h => ⟨fun hp => ?_, fun hp => ?_⟩, fun h => ?_⟩
  · simp only [step_of_input hp, inputStep, hostReadReg, decodeReg_eq_none h]
  · simp only [step_of_input hp, inputStep, hostWriteReg, decodeReg_eq_none h]
  · have hw : (registerWindow s.cfg).contains a = true := (Region.contains_iff _ _).2 h
    exact ⟨fun hp => step_of_memRead_problem hp (agentProblem_of_window hw),
      fun hp => step_of_memWrite_problem hp (agentProblem_of_window hw)⟩

/-- Settles O50: outside the window, ownership comes first among what is wrong with an access. -/
theorem accessToAnOwnedRegionIsRefused : Obligations.AccessToAnOwnedRegionIsRefused := by
  intro s o a v rest ho ha hw
  exact ⟨fun hp => step_of_memWrite_problem hp (agentProblem_of_owned ho ha (.inl rfl) hw),
    fun hwritten hp => step_of_memRead_problem hp (agentProblem_of_owned ho ha (.inr hwritten) hw)⟩

/-! ## Ownership -/

/-- A write to CMD while idle is accepted (R115). -/
theorem step_of_command {v : Word} {rest : List Input} (hi : s.h.phase = .idle)
    (hp : pending s = .regWrite 0x04 4 v :: rest) : step s = .next (acceptCommand v { s with inputs := rest }) := by
  rw [step_of_input hp]
  show Host.Outcome.next (writeReg .cmd v { s with inputs := rest }) = _
  rw [writeReg_of_idle (s := { s with inputs := rest }) hi]
  rfl

/-- A read of STATUS is taken. -/
theorem step_of_statusRead {rest : List Input} (hp : pending s = .regRead 0x08 4 :: rest) :
    step s = .next (readReg .status { s with inputs := rest }) :=
  step_of_input hp

theorem readReg_status_owned (hi : s.h.phase = .idle) : (readReg .status s).owned = [] := by
  rw [readReg, observe, if_pos ⟨rfl, busy_eq_false.2 hi⟩]

theorem wordRegions_encode (i : Instr) (r : Regs) : wordRegions (encode i) r = commandRegions i r := by
  cases i <;> rfl

/-- What a step does to ownership: the acceptance of a command adds its regions, a STATUS read while idle ends
everything, and nothing else touches it (R74, R78). -/
inductive OwnedCase (s t : State) : Prop
  | kept (ho : t.owned = s.owned)
  | ended (hi : s.h.phase = .idle) (rest : List Input) (hp : pending s = .regRead 0x08 4 :: rest)
  | begun (hi : s.h.phase = .idle) (v : Word) (rest : List Input) (hp : pending s = .regWrite 0x04 4 v :: rest)
      (ho : t.owned = wordRegions v s.reg ++ s.owned)

theorem owned_cases (h : step s = .next t) : OwnedCase s t := by
  rcases step_next h with ⟨-, hm⟩ | ⟨_, -, hm⟩ | ⟨i, rest, hp, hm⟩
  · exact .kept hm.frame.2.2.2.1
  · exact .kept hm.frame.2.2.2.1
  · cases hm with
    | regRead off bytes r hd =>
      obtain ⟨rfl, rfl⟩ := decodeReg_eq_some.1 hd
      by_cases ho : r = .status ∧ s.h.phase = .idle
      · obtain ⟨rfl, hi⟩ := ho
        exact .ended hi rest hp
      · have ho' : ¬(r = .status ∧ busy { s with inputs := rest } = false) := by rwa [busy_eq_false]
        exact .kept (by rw [readReg, observe, if_neg ho'])
    | regWrite off bytes v r hd =>
      obtain ⟨rfl, rfl⟩ := decodeReg_eq_some.1 hd
      by_cases hi : s.h.phase = .idle
      · rw [writeReg_of_idle (s := { s with inputs := rest }) hi]
        cases r with
        | cmd => exact .begun hi v rest hp rfl
        | _ => exact .kept rfl
      · rw [writeReg_of_busy (s := { s with inputs := rest }) hi]
        exact .kept rfl
    | _ => exact .kept rfl

/-- Settles O52, by what a step does to ownership. -/
theorem ownershipFromAcceptanceToObservation : Obligations.OwnershipFromAcceptanceToObservation := by
  refine ⟨fun s t i rest hi hp h => ?_, fun s rest hi hp => ?_, fun s t o h hs ht => ?_, fun s t o h hs ht => ?_⟩
  · rw [step_of_command hi hp] at h
    cases h
    rw [acceptCommand_owned, wordRegions_encode]
    cases i <;> simp [commandRegions]
  · exact ⟨_, step_of_statusRead hp, readReg_status_owned (s := { s with inputs := rest }) hi⟩
  · cases owned_cases h with
    | kept ho => exact absurd (ho ▸ hs) ht
    | ended hi rest hp => exact ⟨hi, rest, hp⟩
    | begun hi v rest hp ho => exact absurd (ho ▸ List.mem_append_right _ hs) ht
  · cases owned_cases h with
    | kept ho => exact absurd (ho ▸ ht) hs
    | ended hi rest hp =>
      rw [step_of_statusRead hp] at h
      cases h
      simp [readReg_status_owned (s := { s with inputs := rest }) hi] at ht
    | begun hi v rest hp ho =>
      rw [ho] at ht
      exact ⟨hi, v, rest, hp, (List.mem_append.1 ht).resolve_right hs⟩

/-! ## A running command -/

/-- Settles O53: busy, a register write is dropped, and a memory write that is not refused misses what is owned. -/
theorem agentsCannotDisturbARunningCommand : Obligations.AgentsCannotDisturbARunningCommand := by
  intro s t i rest hinv hbusy hpend hcodec hreset h
  rw [step_of_input hpend] at h
  cases (inputStep_next h).resolve_left fun hc => hcodec hc.1 with
  | regRead off bytes r => simp
  | regWrite off bytes v r =>
    rw [writeReg_of_busy (s := { s with inputs := rest }) hbusy]
    exact ⟨rfl, rfl, fun _ _ _ _ => rfl⟩
  | memRead a => exact ⟨rfl, rfl, fun _ _ _ _ => rfl⟩
  | memWrite a v hfree =>
    refine ⟨rfl, rfl, fun o ho b hb => memRead_memWrite_other s.mem v fun hba => ?_⟩
    obtain ⟨-, hmiss, -⟩ := agentProblem_none hfree
    have howned : o ∈ s.owned := hinv.ownership.owned (busy_eq_true.2 hbusy) o ho
    simp [hba, hmiss o howned (.inl rfl)] at hb
  | reset => exact absurd rfl hreset

end Sys2Proof
end

-- The command word
section
/-! The command word by its two fields: RSV and OP as numbers, the word put together from them, and which words decode
to which command. -/

namespace Sys2Proof

/-- OP is the low byte of the word (R90). -/
theorem cmdOp_toNat (w : Word) : (cmdOp w).toNat = w.toNat % 256 := by
  simp [cmdOp]

/-- RSV is the rest of the word (R90). -/
theorem cmdRsv_toNat (w : Word) : (cmdRsv w).toNat = w.toNat / 256 := by
  rw [cmdRsv, BitVec.extractLsb'_toNat, Nat.shiftRight_eq_div_pow]
  exact Nat.mod_eq_of_lt (by have := w.isLt; omega)

theorem cmdRsv_eq_zero {w : Word} : cmdRsv w = 0 ↔ w.toNat / 256 = 0 := by
  rw [← cmdRsv_toNat, ← BitVec.toNat_inj]
  rfl

/-- The two fields are the whole word (R90). -/
theorem cmdRsv_append_cmdOp (w : Word) : cmdRsv w ++ cmdOp w = w := by
  refine BitVec.eq_of_toNat_eq ?_
  rw [Machine.toNat_append_eq_add, cmdRsv_toNat, cmdOp_toNat]
  exact Nat.div_add_mod' w.toNat 256

/-- The fields of a command word and its decoding, for every command. -/
theorem wordShape : ∀ i : Instr, Laws.WordShape.Statement i
  | .nop => Laws.WordShape.nop
  | .cap => Laws.WordShape.cap
  | .embed => Laws.WordShape.embed
  | .extract => Laws.WordShape.extract

/-- A word is a command's exactly when RSV is 0 and OP is the command's opcode (R92). -/
theorem eq_encode_iff {w : Word} {i : Instr} : w = encode i ↔ cmdRsv w = 0 ∧ cmdOp w = opcode i := by
  constructor
  · rintro rfl
    obtain ⟨hrsv, hop, -⟩ := wordShape i
    exact ⟨hrsv, hop⟩
  · rintro ⟨hrsv, hop⟩
    rw [← cmdRsv_append_cmdOp w, hrsv, hop]
    rfl

theorem opcode_toNat_lt_four (i : Instr) : (opcode i).toNat < 4 := by
  cases i <;> decide

/-- Only a command's own opcode is decoded to it (R91). -/
theorem eq_opcode_of_decodeOpcode {op : BitVec 8} {i : Instr} (h : decodeOpcode op = .instr i) : op = opcode i := by
  refine BitVec.eq_of_toNat_eq ?_
  unfold decodeOpcode at h
  split at h <;> cases h <;> assumption

/-- A word that decodes to a command has RSV 0, and OP decodes to the command. -/
theorem decode_eq_instr_fields {w : Word} {i : Instr} (h : decode w = .instr i) :
    cmdRsv w = 0 ∧ decodeOpcode (cmdOp w) = .instr i := by
  unfold decode at h
  split at h
  · exact ⟨‹_›, h⟩
  · cases h

/-- Decoding matches the whole word (R92). -/
theorem decode_eq_instr {w : Word} {i : Instr} : decode w = .instr i ↔ w = encode i := by
  constructor
  · intro h
    obtain ⟨hrsv, hop⟩ := decode_eq_instr_fields h
    exact eq_encode_iff.2 ⟨hrsv, eq_opcode_of_decodeOpcode hop⟩
  · rintro rfl
    obtain ⟨-, -, hdec, -⟩ := wordShape i
    exact hdec

/-- Which words decode to a command, by the numbers in the two fields (R94). -/
theorem decode_eq_instr_iff_toNat {w : Word} {i : Instr} :
    decode w = .instr i ↔ w.toNat / 256 = 0 ∧ w.toNat % 256 = (opcode i).toNat := by
  rw [decode_eq_instr, eq_encode_iff, cmdRsv_eq_zero, ← BitVec.toNat_inj, cmdOp_toNat]

/-- A word that is no command's is illegal: decoding is total (R94). -/
theorem decode_illegal_of_no_instr {w : Word} (h : ∀ i, decode w ≠ .instr i) : ∃ why, decode w = .illegal why := by
  cases hdec : decode w with
  | instr i => exact absurd hdec (h i)
  | illegal why => exact ⟨why, rfl⟩

/-- Settles O2: a word is its two fields, and a command fixes both. -/
theorem decodeAndEncodeAgree : Obligations.DecodeAndEncodeAgree :=
  fun _ _ _ => decode_eq_instr

/-- Settles O3: what decodes to a command has RSV 0 and an opcode below 4, and everything else is illegal. -/
theorem decodeIsTotalByFields : Obligations.DecodeIsTotalByFields := by
  refine fun w => ⟨fun hrsv => ?_, fun hrsv => ?_⟩
  · exact decode_illegal_of_no_instr fun i h => hrsv (decode_eq_instr_iff_toNat.1 h).1
  · have hinstr (i : Instr) (hop : w.toNat % 256 = (opcode i).toNat) : decode w = .instr i :=
      decode_eq_instr_iff_toNat.2 ⟨hrsv, hop⟩
    refine ⟨hinstr .nop, hinstr .cap, hinstr .embed, hinstr .extract, fun hop => ?_⟩
    refine decode_illegal_of_no_instr fun i h => ?_
    have hopcode : w.toNat % 256 = (opcode i).toNat := (decode_eq_instr_iff_toNat.1 h).2
    exact absurd (opcode_toNat_lt_four i) (hopcode ▸ hop).not_gt

/-- Settles O1: the four words are the commands' encodings. -/
theorem commandWordsDecode : Obligations.CommandWordsDecode :=
  ⟨decode_eq_instr.2 rfl, decode_eq_instr.2 rfl, decode_eq_instr.2 rfl, decode_eq_instr.2 rfl⟩

end Sys2Proof
end

-- How long a command still takes
section
/-! The bound on the codec steps that a command may still take: how large it is, and what every step does to it. -/

namespace Sys2Proof

open Machine

variable {s t : State}

/-! ## How large the bound is -/

/-! One equation of the bound per phase. -/

theorem codecStepsLeft_of_idle (hp : s.h.phase = .idle) : codecStepsLeft s = 0 := by
  simp only [codecStepsLeft, hp]

theorem codecStepsLeft_of_dispatch (hp : s.h.phase = .dispatch) : codecStepsLeft s = 1 + 2 * imageCapBits s := by
  simp only [codecStepsLeft, hp]

theorem codecStepsLeft_of_embRun (hp : s.h.phase = .embRun) : codecStepsLeft s = s.h.framedBits - s.h.k := by
  simp only [codecStepsLeft, hp]

theorem codecStepsLeft_of_extScan (hp : s.h.phase = .extScan) :
    codecStepsLeft s = s.h.scanBits - s.h.k + s.h.scanBits := by
  simp only [codecStepsLeft, hp]

theorem codecStepsLeft_of_extCopy (hp : s.h.phase = .extCopy) : codecStepsLeft s = 8 * s.h.idx - s.h.k := by
  simp only [codecStepsLeft, hp]

/-- The bound looks at nothing but the registers and the hidden state. -/
theorem codecStepsLeft_congr (hr : t.reg = s.reg) (hh : t.h = s.h) : codecStepsLeft t = codecStepsLeft s := by
  simp only [codecStepsLeft, imageCapBits, imageWidth, imageHeight, hr, hh]

/-- A running command has a step to take: in each run phase the counter is below its limit (R57). -/
theorem codecStepsLeft_pos (hi : PhaseInv s) (hp : s.h.phase ≠ .idle) : 0 < codecStepsLeft s := by
  cases hphase : s.h.phase with
  | idle => exact absurd hphase hp
  | dispatch => rw [codecStepsLeft_of_dispatch hphase]; omega
  | embRun => rw [codecStepsLeft_of_embRun hphase]; have := hi.embRun hphase; omega
  | extScan => rw [codecStepsLeft_of_extScan hphase]; have := hi.extScan hphase; omega
  | extCopy => rw [codecStepsLeft_of_extCopy hphase]; have := hi.extCopy hphase; omega

/-- The bytes to copy are bytes of the scan (R50, R51). -/
theorem CounterInv.copyBits_le (hi : CounterInv s) : 8 * s.h.idx ≤ s.h.scanBits :=
  (Nat.mul_le_mul_left 8 hi.idx).trans hi.nbytes

theorem codecStepsLeft_le (hi : CounterInv s) : codecStepsLeft s ≤ 2 ^ 36 := by
  have hcap := imageCapBits_lt s
  have hscan := hi.scanBits
  cases hp : s.h.phase with
  | idle => rw [codecStepsLeft_of_idle hp]; omega
  | dispatch => rw [codecStepsLeft_of_dispatch hp]; omega
  | embRun => rw [codecStepsLeft_of_embRun hp]; have := hi.framedBits; omega
  | extScan => rw [codecStepsLeft_of_extScan hp]; omega
  | extCopy => rw [codecStepsLeft_of_extCopy hp]; have := hi.copyBits_le; omega

/-! ## What a step does to it -/

/-- The codec's step from a busy state brings the command nearer to its end: DISPATCH counts for itself and for two
passes over the image, of which EMBED takes up to one and EXTRACT's scan and copy up to one each. -/
theorem codecStepsLeft_lt_of_codecMove (hi : Inv s) (hp : s.h.phase ≠ .idle) (hm : CodecMove s t) :
    codecStepsLeft t < codecStepsLeft s := by
  have hpos : 0 < codecStepsLeft s := codecStepsLeft_pos hi.phase hp
  cases hm.cases with
  | rests hidle => exact absurd hidle hp
  | ends e u hu => rwa [codecStepsLeft_of_idle (s := complete e u) rfl]
  | embedStarts hd _ hfits =>
    have hleft : codecStepsLeft (startEmbed (latchCap s)) = framedBitCount s.reg :=
      codecStepsLeft_of_embRun (s := startEmbed (latchCap s)) rfl
    rw [hleft, codecStepsLeft_of_dispatch hd]
    omega
  | embedGoesOn hr =>
    have hk := hi.phase.embRun hr
    rw [codecStepsLeft_of_embRun (s := countChannel (writeChannel s)) hr, codecStepsLeft_of_embRun hr]
    simp only [countChannel_h, writeChannel_h]
    omega
  | scanStarts hd =>
    have hleft : codecStepsLeft (startScan s) = imageCapBits s + imageCapBits s :=
      codecStepsLeft_of_extScan (s := startScan s) rfl
    rw [hleft, codecStepsLeft_of_dispatch hd]
    omega
  | scanGoesOn hr =>
    have hk := hi.phase.extScan hr
    rw [codecStepsLeft_of_extScan (s := completeByte (readBit s)) (by simpa using hr), codecStepsLeft_of_extScan hr]
    simp only [completeByte_scanBits, completeByte_k, readBit_h]
    omega
  | copyStarts hr =>
    have hk := hi.phase.extScan hr
    have hcopy : 8 * (completeByte (readBit s)).h.idx ≤ s.h.scanBits := by
      simpa using (counterInv_scan hi hr).copyBits_le
    rw [codecStepsLeft_of_extCopy (s := startCopy (completeByte (readBit s))) rfl, codecStepsLeft_of_extScan hr]
    simp only [startCopy_h]
    omega
  | copyGoesOn hr =>
    have hk := hi.phase.extCopy hr
    rw [codecStepsLeft_of_extCopy (s := writeOutput (readBit s)) (by simpa using hr), codecStepsLeft_of_extCopy hr]
    simp only [writeOutput_h, readBit_h]
    omega

/-- The invariant is about what SLC and memory hold, not about what is pending. -/
theorem inv_withInputs (ins : List Input) (hi : Inv s) : Inv { s with inputs := ins } :=
  inv_congr (s := s) rfl rfl rfl (fun _ => rfl) id hi

theorem codecStepsLeft_lt_of_step (hi : Inv s) (hp : s.h.phase ≠ .idle) (hc : codecMoves s)
    (h : step s = .next t) : codecStepsLeft t < codecStepsLeft s := by
  obtain ⟨ins, hm⟩ := codecMove_of_step hc h
  exact codecStepsLeft_lt_of_codecMove (s := { s with inputs := ins }) (inv_withInputs ins hi) hp hm

/-- What host and other agents do while a command runs, short of reset, leaves its registers and hidden state alone
(R113, R114). -/
theorem slc_unchanged_of_outside_step (hp : s.h.phase ≠ .idle) (hc : ¬codecMoves s) (hr : noReset s)
    (h : step s = .next t) : t.reg = s.reg ∧ t.h = s.h := by
  cases step_cases h with
  | codec hcodec => exact absurd hcodec hc
  | reset rest hreset => exact absurd hreset (hr rest)
  | write r v rest hidle => exact absurd hidle hp
  | quiet t hreg hh => exact ⟨hreg, hh⟩

/-- Settles O59: the codec's cases each count a step, and nothing else touches the counters. -/
theorem codecStepsLeftFallAtEveryCodecStep : Obligations.CodecStepsLeftFallAtEveryCodecStep := by
  intro s hi
  refine ⟨⟨fun hzero => ?_, codecStepsLeft_of_idle⟩, codecStepsLeft_le hi.counter, fun t h hp => ⟨fun hc => ?_,
    fun hc hr => ?_⟩⟩
  · by_contra hp
    exact absurd hzero (codecStepsLeft_pos hi.phase hp).ne'
  · exact codecStepsLeft_lt_of_step hi hp hc h
  · obtain ⟨hreg, hh⟩ := slc_unchanged_of_outside_step hp hc hr h
    exact codecStepsLeft_congr hreg hh

end Sys2Proof
end

-- Register transactions and memory accesses that are taken
section
/-! What the host and other agents get done: register writes and reads, and accesses to memory that is free for
them. -/

namespace Sys2Proof

open Machine

variable {s : State} {rest : List Input}

/-! ## Register writes -/

theorem step_of_regWrite {r : Reg} {v : Word} (hp : pending s = .regWrite (regOffset r) 4 v :: rest) :
    step s = .next (writeReg r v { s with inputs := rest }) := by
  simp only [step_of_input hp, inputStep, hostWriteReg, decodeReg_regOffset]

/-- OP as the low bits of the word. -/
theorem cmdOp_eq_setWidth (v : Word) : cmdOp v = v.setWidth 8 := by
  rw [cmdOp, BitVec.setWidth_eq_extractLsb' (by decide)]

/-- Settles O35: a write while busy is dropped. -/
theorem busyWritesAreDropped : Obligations.BusyWritesAreDropped := by
  intro s r v rest hbusy hp
  rw [step_of_regWrite hp, writeReg_of_busy (s := { s with inputs := rest }) hbusy]

/-- Settles O34: a write to CMD while idle is accepted. -/
theorem commandAcceptance : Obligations.CommandAcceptance := by
  intro s v rest hidle hp
  refine ⟨_, step_of_command hidle hp, ?_⟩
  rw [← cmdOp_eq_setWidth]
  rfl

/-- Settles O36, register by register. -/
theorem idleRegisterWrites : Obligations.IdleRegisterWrites := by
  intro s r v rest hidle hcmd hp
  refine ⟨_, step_of_regWrite hp, ?_⟩
  rw [writeReg_of_idle (s := { s with inputs := rest }) hidle]
  have hlow : v.extractLsb' 0 16 = v.setWidth 16 := (BitVec.setWidth_eq_extractLsb' (by decide)).symm
  cases r with
  | cmd => exact absurd rfl hcmd
  | width | height => simp only [writeIdleReg, hlow, and_self]
  | _ => exact ⟨rfl, rfl⟩

/-! ## Register reads -/

theorem step_of_regRead {r : Reg} (hp : pending s = .regRead (regOffset r) 4 :: rest) :
    step s = .next (readReg r { s with inputs := rest }) := by
  simp only [step_of_input hp, inputStep, hostReadReg, decodeReg_regOffset]

/-- A register read changes nothing but what the host last read and, for STATUS, what is owned (R111). -/
theorem readReg_eq (r : Reg) (s : State) :
    readReg r s = { s with rdData := some (regValue r s), owned := (readReg r s).owned } := by
  unfold readReg observe
  split <;> rfl

theorem busy_toNat (s : State) : (busy s).toNat = if s.h.phase = .idle then 0 else 1 := by
  by_cases hp : s.h.phase = .idle <;> simp [busy, hp]

/-- STATUS as it reads, field by field (R30). -/
theorem regValue_status_toNat (s : State) :
    (regValue .status s).toNat =
      (if s.h.phase = .idle then 0 else 1) + 2 * s.reg.done.toNat + 16 * (errBits s.reg.err).toNat +
        256 * s.reg.lastOp.toNat := by
  rw [regValue, statusWord_toNat, busy_toNat]
  omega

/-- Settles O37, register by register. -/
theorem registerReadsReturnTheirValues : Obligations.RegisterReadsReturnTheirValues := by
  intro s r rest hp
  refine ⟨_, regValue r s, (errBits s.reg.err).toNat, step_of_regRead hp, readReg_eq r { s with inputs := rest },
    ?_, ?_⟩
  · cases s.reg.err <;> rfl
  · cases r with
    | status => exact regValue_status_toNat s
    | width | height | capBitsHi | capBytes | capChars => exact BitVec.toNat_setWidth_of_le (by decide)
    | markerLo => exact regValue_markerLo_toNat s
    | markerHi => exact regValue_markerHi_toNat s
    | _ => rfl

/-! ## Accesses to free memory -/

/-- With `agentProblem_none`: an access to plain memory outside the window, and outside the owned regions that it must
not touch, has no problem. -/
theorem agentProblem_eq_none {kind : AccessKind} {a : Word} (hw : (registerWindow s.cfg).contains a = false)
    (ho : ∀ o ∈ s.owned, kind = .write ∨ o.written = true → o.region.contains a = false)
    (hn : ∀ q ∈ s.cfg.notPlain, q.contains a = false) : agentProblem kind a s = none := by
  have howned : ¬(s.owned.any fun o => (decide (kind = .write) || o.written) && o.region.contains a) = true := by
    rw [List.any_eq_true]
    rintro ⟨o, hmem, h⟩
    obtain ⟨hk, hc⟩ : (kind = .write ∨ o.written = true) ∧ o.region.contains a = true := by simpa using h
    simp [ho o hmem hk] at hc
  have hplain : ¬(s.cfg.notPlain.any fun q => q.contains a) = true := by
    rw [List.any_eq_true]
    rintro ⟨q, hmem, hc⟩
    simp [hn q hmem] at hc
  rw [agentProblem, if_neg (by simp [hw]), if_neg howned, if_neg hplain]

/-- An address at or past the end of a range is not in it. -/
theorem contains_eq_false {q : Region} {a : Word} (h : q.len ≤ (a - q.base).toNat) : q.contains a = false := by
  rw [← Bool.not_eq_true, Region.contains_iff]
  exact Nat.not_lt.2 h

/-- Settles O51: nothing is wrong with such an access, and memory is canonical, so a byte written is read back. -/
theorem agentAccessToFreeMemoryHappens : Obligations.AgentAccessToFreeMemoryHappens := by
  intro s a v rest hmem hwindow hplain
  have hw : (registerWindow s.cfg).contains a = false := contains_eq_false hwindow
  have hn (q : Region) (hq : q ∈ s.cfg.notPlain) : q.contains a = false := contains_eq_false (hplain q hq)
  refine ⟨fun hp hfree => ?_, fun hp hfree => ?_⟩
  · have hnone : agentProblem .read a { s with inputs := rest } = none :=
      agentProblem_eq_none (s := { s with inputs := rest }) hw
        (fun o ho hk => contains_eq_false (hfree o ho (hk.resolve_left (by decide)))) hn
    refine ⟨(memRead s.mem a).setWidth 32, BitVec.toNat_setWidth_of_le (by decide), ?_⟩
    simp only [step_of_input hp, inputStep, agentRead, hnone]
  · have hnone : agentProblem .write a { s with inputs := rest } = none :=
      agentProblem_eq_none (s := { s with inputs := rest }) hw (fun o ho _ => contains_eq_false (hfree o ho)) hn
    refine ⟨{ s with inputs := rest, mem := memWrite s.mem a v }, ?_, rfl, memRead_memWrite_same hmem a v,
      fun b hb => memRead_memWrite_other s.mem v hb⟩
    simp only [step_of_input hp, inputStep, agentWrite, hnone]

end Sys2Proof
end

-- The DISPATCH step
section
/-! The DISPATCH step as the decoder chooses it, and commands that are over with it: accepted from idle and run alone,
they take two steps. -/

namespace Sys2Proof

open Machine

variable {s t : State}

/-! ## Which arm runs -/

/-- Where the codec moves, the step is the codec's with the rest of what was pending left to come. -/
theorem step_eq_codecStep_tail (hc : codecMoves s) : step s = codecStep { s with inputs := (pending s).tail } := by
  rcases hc with hp | ⟨rest, hp⟩
  · have hnil : s.inputs = [] := (pending_eq_nil.1 hp).1
    rw [step_of_no_inputs hp, hp, List.tail_nil, ← hnil]
  · rw [step_of_input hp, hp, List.tail_cons]
    rfl

/-! One equation of the codec's step per phase (R118). -/

theorem codecStep_of_idle (hp : s.h.phase = .idle) : codecStep s = .next s := by
  simp only [codecStep, hp]

theorem codecStep_of_dispatch (hp : s.h.phase = .dispatch) : codecStep s = dispatchStep s := by
  simp only [codecStep, hp]

theorem codecStep_of_embRun (hp : s.h.phase = .embRun) : codecStep s = embedStep s := by
  simp only [codecStep, hp]

theorem codecStep_of_extScan (hp : s.h.phase = .extScan) : codecStep s = scanStep s := by
  simp only [codecStep, hp]

theorem codecStep_of_extCopy (hp : s.h.phase = .extCopy) : codecStep s = copyStep s := by
  simp only [codecStep, hp]

/-- DISPATCH is left at once: for IDLE or for a run phase (R119). -/
theorem phase_of_dispatch_move (hp : s.h.phase = .dispatch) (hm : CodecMove s t) :
    t.h.phase = .idle ∨ t.h.phase = .embRun ∨ t.h.phase = .extScan := by
  cases hm.cases with
  | ends => exact .inl rfl
  | embedStarts => exact .inr (.inl rfl)
  | scanStarts => exact .inr (.inr rfl)
  | _ => simp_all

/-- Settles O7: the codec's DISPATCH step is decoding, and the arm that it chooses. -/
theorem stepRunsDispatchedCommand : Obligations.StepRunsDispatchedCommand := by
  intro s hp hc
  have hstep : step s = dispatchStep { s with inputs := (pending s).tail } := by
    rw [step_eq_codecStep_tail hc]
    exact codecStep_of_dispatch hp
  refine ⟨fun i _ hd => ?_, fun why hd => ?_, fun t h => ?_⟩
  · rw [hstep]
    simp only [dispatchStep, hd]
  · rw [hstep]
    simp only [dispatchStep, hd, illegalCommand]
    rfl
  · obtain ⟨ins, hm⟩ := codecMove_of_step hc h
    exact phase_of_dispatch_move (s := { s with inputs := ins }) hp hm

/-! ## Commands that are over with their DISPATCH step -/

/-- STATUS of a command that has completed (R117). -/
theorem statusWord_complete (e : ErrCode) (s : State) :
    (statusWord (complete e s)).toNat = 256 * s.reg.lastOp.toNat + 16 * (errBits e).toNat + 2 := by
  rw [statusWord_toNat, busy_eq_false.2 (show (complete e s).h.phase = .idle from rfl)]
  rfl

section
variable {v : Word} {e : ErrCode} (hidle : s.h.phase = .idle)
include hidle

/-- A word whose DISPATCH step completes with `e`, accepted from idle and run alone. -/
theorem stepN_two_of_completes (hins : s.inputs = [.regWrite 0x04 4 v]) (hcycle : s.cycle = [])
    (hm : ∀ u, u.h.phase = .dispatch → u.h.op = v → CodecMove u (complete e u)) :
    stepN 2 s = .next (complete e (acceptCommand v { s with inputs := [] })) := by
  rw [stepN_succ _ _ _ (step_of_command hidle (pending_of_inputs hins))]
  have halone : pending (acceptCommand v { s with inputs := [] }) = [] := pending_eq_nil.2 ⟨rfl, hcycle⟩
  refine stepN_succ 0 _ _ ?_
  rw [step_of_no_inputs halone]
  exact codecStep_of_codecMove (hm _ rfl rfl)

/-- All that a word which owns nothing then leaves behind: the flags, LAST_OP and `h.op` (R115, R117). -/
theorem complete_acceptCommand_eq (howns : wordRegions v s.reg = []) :
    complete e (acceptCommand v { s with inputs := [] }) =
      { s with inputs := [], h.op := v, reg.err := e, reg.done := true, reg.lastOp := v.setWidth 8 } := by
  simp only [complete, acceptCommand, howns, List.nil_append, hidle, cmdOp_eq_setWidth]

end

/-- Settles O10: NOP's arm is `complete`, and its word owns no region. -/
theorem nopOnlyClearsStatus : Obligations.NopOnlyClearsStatus := by
  refine ⟨fun _ => rfl, fun s hidle hins hcycle => ?_⟩
  have hrun := stepN_two_of_completes (e := .none) hidle hins hcycle fun u hp hop => .nop hp (hop ▸ by decide)
  refine ⟨_, hrun, BitVec.eq_of_toNat_eq ?_, ?_⟩
  · rw [statusWord_complete]
    rfl
  · exact complete_acceptCommand_eq hidle (wordRegions_encode .nop s.reg)

/-- A word with RSV nonzero or a reserved opcode is no command's (R93). -/
theorem decode_illegal_of_fields {v : Word} (h : v.toNat / 256 ≠ 0 ∨ 4 ≤ v.toNat % 256) :
    ∃ why, decode v = .illegal why := by
  refine decode_illegal_of_no_instr fun i hd => ?_
  obtain ⟨hrsv, hop⟩ := decode_eq_instr_iff_toNat.1 hd
  have hlt := opcode_toNat_lt_four i
  omega

/-- Settles O12: an illegal word's DISPATCH step is `complete` too, and it owns no region. -/
theorem illegalWordCompletesWithItsCode : Obligations.IllegalWordCompletesWithItsCode := by
  intro s v hidle hins hcycle hfields
  obtain ⟨why, hd⟩ := decode_illegal_of_fields hfields
  have howns : wordRegions v s.reg = [] := by simp only [wordRegions, hd]
  have hrun := stepN_two_of_completes (e := .illegalCommand) hidle hins hcycle
    fun u hp hop => .illegal hp why (hop ▸ hd)
  refine ⟨_, hrun, ?_, complete_acceptCommand_eq hidle howns⟩
  rw [statusWord_complete]
  show 256 * (cmdOp v).toNat + 16 * 3 + 2 = _
  rw [cmdOp_toNat]
  omega

end Sys2Proof
end

-- Every fair run ends
section
/-! Why a fair run ends: the bound on the codec's steps falls at each of them, and between two of them what stands
before the codec's next turn grows shorter.  Run alone, the bound is also one on the run. -/

namespace Sys2Proof

open Machine

variable {s t : State}

/-! ## The two ends of a run -/

/-- After `n` steps the command is over, or the machine has refused it. -/
def EndsAfter (n : Nat) (s : State) : Prop :=
  (∃ t, stepN n s = .next t ∧ t.h.phase = .idle) ∨ ∃ r, stepN n s = .refused r

theorem stepN_one_of_refused {r : Refusal} (h : step s = .refused r) : stepN 1 s = .refused r := by
  simp only [stepN, h]

theorem EndsAfter.of_next {n : Nat} (h : step s = .next t) (ht : EndsAfter n t) : EndsAfter (n + 1) s := by
  rwa [EndsAfter, stepN_succ n s t h]

/-- Every access that the codec makes in the run is admitted (R64). -/
def RunAdmitted (s : State) : Prop :=
  ∀ m u, stepN m s = .next u → accessesAdmitted u

theorem RunAdmitted.next (ha : RunAdmitted s) (h : step s = .next t) : RunAdmitted t :=
  fun m u hu => ha (m + 1) u ((stepN_succ m s t h).trans hu)

/-! ## No step of such a run is a fault -/

/-- A DISPATCH step makes no access, so it is never stuck (R119). -/
theorem dispatchStep_outcome (s : State) : (∃ t, dispatchStep s = .next t) ∨ ∃ r, dispatchStep s = .refused r := by
  unfold dispatchStep
  split
  · rename_i i _
    cases i with
    | nop | cap => exact .inl ⟨_, rfl⟩
    | embed =>
      simp only [exec, execEmbed]
      split
      · exact .inl ⟨_, rfl⟩
      · split
        · exact .inr ⟨_, rfl⟩
        · exact .inl ⟨_, rfl⟩
    | extract =>
      simp only [exec, execExtract]
      split
      · exact .inl ⟨_, rfl⟩
      · split
        · exact .inr ⟨_, rfl⟩
        · exact .inl ⟨_, rfl⟩
  · exact .inl ⟨_, rfl⟩

/-- A codec step with its accesses admitted is not stuck (R64, R116), and is refused only in DISPATCH or, for the
output, at the end of a scan (assumption log 5). -/
theorem codecStep_outcome (ha : accessesAdmitted s) :
    (∃ t, codecStep s = .next t) ∨ ∃ r, codecStep s = .refused r ∧
      (s.h.phase = .dispatch ∨
        s.h.phase = .extScan ∧ (r = .regionInRegisterWindow ∨ r = .regionNotPlainMemory)) := by
  have hrun (hp : s.h.phase = .embRun ∨ s.h.phase = .extScan ∨ s.h.phase = .extCopy) :
      (∃ t, codecStep s = .next t) ∨ ∃ r, codecStep s = .refused r ∧
        s.h.phase = .extScan ∧ (r = .regionInRegisterWindow ∨ r = .regionNotPlainMemory) := by
    rw [codecStep_of_admitted ha]
    rcases runEffect_outcome hp with hnext | ⟨hs, -, hr | hr⟩
    · exact .inl hnext
    · exact .inr ⟨_, hr, hs, .inl rfl⟩
    · exact .inr ⟨_, hr, hs, .inr rfl⟩
  cases hp : s.h.phase with
  | idle => exact .inl ⟨s, codecStep_of_idle hp⟩
  | dispatch =>
    rw [codecStep_of_dispatch hp]
    exact (dispatchStep_outcome s).imp_right fun ⟨r, hr⟩ => ⟨r, hr, .inl rfl⟩
  | embRun | extScan | extCopy =>
    exact (hrun (by simp [hp])).imp_right fun ⟨r, hr, hs, hwhy⟩ => ⟨r, hr, .inr ⟨hp ▸ hs, hwhy⟩⟩

/-- What comes from outside is answered or refused. -/
theorem inputStep_outcome {i : Input} (hi : i ≠ .codec) :
    (∃ t, inputStep i s = .next t) ∨ ∃ r, inputStep i s = .refused r := by
  cases h : inputStep i s with
  | next t => exact .inl ⟨t, rfl⟩
  | refused r => exact .inr ⟨r, rfl⟩
  | fault p =>
    exfalso
    cases i with
    | codec => exact hi rfl
    | regRead off bytes => simp only [inputStep, hostReadReg] at h; split at h <;> cases h
    | regWrite off bytes v => simp only [inputStep, hostWriteReg] at h; split at h <;> cases h
    | memRead a => simp only [inputStep, agentRead] at h; split at h <;> cases h
    | memWrite a v => simp only [inputStep, agentWrite] at h; split at h <;> cases h
    | reset => cases h

/-- A step of the machine with the codec's next accesses admitted is answered or refused. -/
theorem step_outcome (ha : accessesAdmitted s) : (∃ t, step s = .next t) ∨ ∃ r, step s = .refused r := by
  by_cases hc : codecMoves s
  · obtain ⟨ins, hs⟩ := step_of_codecMoves hc
    rw [hs]
    exact (codecStep_outcome (s := { s with inputs := ins }) ha).imp_right fun ⟨r, hr, _⟩ => ⟨r, hr⟩
  · cases hp : pending s with
    | nil => exact absurd (.inl hp) hc
    | cons i rest =>
      rw [step_of_input hp]
      refine inputStep_outcome ?_
      rintro rfl
      exact hc (.inr ⟨rest, hp⟩)

/-! ## Runs in any fair order -/

/-- What stands before the codec's next turn: in the list, and then in the cycle. -/
def turnsUntilCodec (s : State) : Nat :=
  (s.inputs ++ s.cycle).idxOf .codec

/-- A step that is not the codec's takes the first entry of the list, or of the cycle once the list is exhausted. -/
theorem inputs_of_outside_step (hc : ¬codecMoves s) (h : step s = .next t) :
    ∃ i, i ≠ .codec ∧ pending s = i :: t.inputs := by
  rcases step_next h with ⟨hp, -⟩ | ⟨rest, hp, -⟩ | ⟨i, rest, hp, hm⟩
  · exact absurd (.inl hp) hc
  · exact absurd (.inr ⟨rest, hp⟩) hc
  · have hins : t.inputs = rest := by cases hm <;> simp
    refine ⟨i, ?_, hins ▸ hp⟩
    rintro rfl
    exact hc (.inr ⟨rest, hp⟩)

/-- Under fairness the codec's turn comes nearer with every step that is not the codec's. -/
theorem turnsUntilCodec_lt (hfair : Fair s) (hc : ¬codecMoves s) (h : step s = .next t) :
    turnsUntilCodec t < turnsUntilCodec s := by
  obtain ⟨i, hi, hp⟩ := inputs_of_outside_step hc h
  have hcycle : t.cycle = s.cycle := (step_frame h).2
  unfold turnsUntilCodec
  rw [hcycle]
  cases hins : s.inputs with
  | cons j rest =>
    obtain ⟨rfl, rfl⟩ : j = i ∧ rest = t.inputs := List.cons.inj ((pending_of_inputs hins).symm.trans hp)
    rw [List.cons_append, List.idxOf_cons_ne _ hi]
    omega
  | nil =>
    have hsplit : s.cycle = i :: t.inputs := (pending_of_exhausted hins).symm.trans hp
    have hmem : .codec ∈ t.inputs := by
      have hcodec : Input.codec ∈ s.cycle := hfair.resolve_left (by simp [hsplit])
      rw [hsplit] at hcodec
      exact (List.mem_cons.1 hcodec).resolve_left hi.symm
    rw [List.nil_append, List.idxOf_append_of_mem hmem, hsplit, List.idxOf_cons_ne _ hi]
    omega

/-- A step of a fair run of a busy machine ends the command, brings it nearer to its end, or brings the codec's turn
nearer. -/
theorem fair_step_progress (hi : Inv s) (hfair : Fair s) (hp : s.h.phase ≠ .idle) (h : step s = .next t) :
    t.h.phase = .idle ∨ codecStepsLeft t < codecStepsLeft s ∨
      codecStepsLeft t = codecStepsLeft s ∧ turnsUntilCodec t < turnsUntilCodec s := by
  by_cases hc : codecMoves s
  · exact .inr (.inl (codecStepsLeft_lt_of_step hi hp hc h))
  · have hturns := turnsUntilCodec_lt hfair hc h
    by_cases hr : noReset s
    · obtain ⟨hreg, hh⟩ := slc_unchanged_of_outside_step hp hc hr h
      exact .inr (.inr ⟨codecStepsLeft_congr hreg hh, hturns⟩)
    · obtain ⟨rest, hreset⟩ : ∃ rest, pending s = .reset :: rest := by simpa [noReset] using hr
      rw [step_of_reset hreset] at h
      cases h
      exact .inl rfl

/-- A fair run ends, by induction on the codec's steps left and then on what stands before its next turn. -/
theorem fair_run_ends (s : State) (hi : Inv s) (hfair : Fair s) (ha : RunAdmitted s) : ∃ n, EndsAfter n s := by
  by_cases hp : s.h.phase = .idle
  · exact ⟨0, .inl ⟨s, rfl, hp⟩⟩
  rcases step_outcome (ha 0 s rfl) with ⟨t, h⟩ | ⟨r, h⟩
  · have hcycle : t.cycle = s.cycle := (step_frame h).2
    have hfair' : Fair t := by rwa [Fair, hcycle]
    rcases fair_step_progress hi hfair hp h with hidle | hless
    · exact ⟨1, .inl ⟨t, stepN_succ 0 s t h, hidle⟩⟩
    · obtain ⟨n, hn⟩ := fair_run_ends t (invariantKeptByEveryStep s t hi h) hfair' (ha.next h)
      exact ⟨n + 1, hn.of_next h⟩
  · exact ⟨1, .inr ⟨r, stepN_one_of_refused h⟩⟩
termination_by (codecStepsLeft s, turnsUntilCodec s)
decreasing_by
  rcases hless with hlt | ⟨heq, hlt⟩
  · exact .left _ _ hlt
  · rw [heq]; exact .right _ hlt

/-! ## Runs of the codec alone -/

/-- How a run of the codec alone from `s` has ended after `n` steps: a refusal is one of the DISPATCH step or, for the
output, of the end of a scan (assumption log 5). -/
def EndsAloneAfter (n : Nat) (s : State) : Prop :=
  (∃ t, stepN n s = .next t ∧ t.h.phase = .idle) ∨
    (s.h.phase = .dispatch ∧ ∃ r, stepN n s = .refused r) ∨
    (s.h.phase = .extScan ∧
      ∃ r, (r = .regionInRegisterWindow ∨ r = .regionNotPlainMemory) ∧ stepN n s = .refused r)

/-- A codec step never leads to DISPATCH, and a scan is only entered from there or gone on with. -/
theorem codecMove_phase_before (hp : s.h.phase ≠ .idle) (hm : CodecMove s t) :
    t.h.phase ≠ .dispatch ∧ (t.h.phase = .extScan → s.h.phase = .dispatch ∨ s.h.phase = .extScan) := by
  cases hm.cases with
  | rests hidle => exact absurd hidle hp
  | _ => simp_all

theorem EndsAloneAfter.of_next {n : Nat} (hp : s.h.phase ≠ .idle) (hm : CodecMove s t) (h : step s = .next t)
    (ht : EndsAloneAfter n t) : EndsAloneAfter (n + 1) s := by
  obtain ⟨hdispatch, hscan⟩ := codecMove_phase_before hp hm
  rw [EndsAloneAfter, stepN_succ n s t h]
  rcases ht with hidle | ⟨hd, -⟩ | ⟨hs, r, hr, hn⟩
  · exact .inl hidle
  · exact absurd hd hdispatch
  · rcases hscan hs with hd | hs
    · exact .inr (.inl ⟨hd, r, hn⟩)
    · exact .inr (.inr ⟨hs, r, hr, hn⟩)

/-- The codec alone ends the command within the bound: each of its steps uses up one. -/
theorem alone_run_ends (s : State) (hi : Inv s) (ha : RunAdmitted s) (halone : pending s = []) :
    ∃ n, n ≤ codecStepsLeft s ∧ EndsAloneAfter n s := by
  by_cases hp : s.h.phase = .idle
  · exact ⟨0, Nat.zero_le _, .inl ⟨s, rfl, hp⟩⟩
  have hpos : 0 < codecStepsLeft s := codecStepsLeft_pos hi.phase hp
  have hstep : step s = codecStep s := step_of_no_inputs halone
  rcases codecStep_outcome (ha 0 s rfl) with ⟨t, h⟩ | ⟨r, h, hwhy⟩
  · have hm : CodecMove s t := codecStep_next h
    have hless : codecStepsLeft t < codecStepsLeft s := codecStepsLeft_lt_of_codecMove hi hp hm
    obtain ⟨-, hinputs, hcycle, -⟩ := hm.frame
    obtain ⟨n, hn, hends⟩ := alone_run_ends t (inv_codecMove hi hm) (ha.next (hstep.trans h))
      ((pending_congr hinputs hcycle).trans halone)
    exact ⟨n + 1, by omega, hends.of_next hp hm (hstep.trans h)⟩
  · have hone : stepN 1 s = .refused r := stepN_one_of_refused (hstep.trans h)
    exact ⟨1, hpos, .inr (hwhy.imp (fun hd => ⟨hd, r, hone⟩) fun ⟨hs, hr⟩ => ⟨hs, r, hr, hone⟩)⟩
termination_by codecStepsLeft s

/-- Settles O58: fair runs by `fair_run_ends`, the codec alone by `alone_run_ends` and the bound's own bound. -/
theorem everyRunEnds : Obligations.EveryRunEnds := by
  refine fun s hi hfair ha => ⟨fair_run_ends s hi hfair ha, fun halone => ?_⟩
  obtain ⟨n, hn, hends⟩ := alone_run_ends s hi ha halone
  exact ⟨n, hn.trans (codecStepsLeft_le hi.counter), hends⟩

end Sys2Proof
end

-- State left over from earlier commands
section
/-! Two machines whose hidden states agree in what the phase reads take the same steps.  DISPATCH reads the word alone;
EMB_RUN reads what EMBED's DISPATCH step sets; EXT_SCAN and EXT_COPY read all but EMBED's bit count. -/

namespace Sys2Proof

open Machine

variable {s u : State}

/-! ## Agreement, and what keeps it -/

/-- The second hidden state agrees with `h` in what the codec reads in the phase of `h`; the rest is left over. -/
inductive SameCourse (h : Hidden) : Hidden → Prop
  | idle (hp : h.phase = .idle) (l : Hidden) : SameCourse h { l with phase := .idle }
  | dispatch (hp : h.phase = .dispatch) (l : Hidden) : SameCourse h { l with phase := .dispatch, op := h.op }
  | embRun (hp : h.phase = .embRun) (l : Hidden) :
      SameCourse h { l with phase := .embRun, framedBits := h.framedBits, k := h.k, sr := h.sr }
  | extScan (hp : h.phase = .extScan) (n : Nat) : SameCourse h { h with framedBits := n }
  | extCopy (hp : h.phase = .extCopy) (n : Nat) : SameCourse h { h with framedBits := n }

theorem SameCourse.phase_eq {h g : Hidden} (hc : SameCourse h g) : g.phase = h.phase := by
  cases hc with
  | idle hp | dispatch hp | embRun hp => exact hp.symm
  | extScan | extCopy => rfl

/-- Two machines that differ in nothing but what is left over. -/
structure Alike (s u : State) : Prop where
  rest : u = { s with h := u.h }
  course : SameCourse s.h u.h

/-- Two steps or runs that stop alike, or answer alike states. -/
inductive AlikeResult : Result → Result → Prop
  | next {t u : State} (h : Alike t u) : AlikeResult (.next t) (.next u)
  | fault (p : Fault) : AlikeResult (.fault p) (.fault p)
  | refused (p : Refusal) : AlikeResult (.refused p) (.refused p)

section
variable {r q r' q' : Result}

theorem AlikeResult.ite {c : Prop} [Decidable c] (ht : AlikeResult r q) (he : AlikeResult r' q') :
    AlikeResult (if c then r else r') (if c then q else q') := by
  split
  · exact ht
  · exact he

/-- A check that refuses both or neither. -/
theorem AlikeResult.check (p : Option Refusal) (h : AlikeResult r q) :
    AlikeResult (match p with | some x => .refused x | none => r) (match p with | some x => .refused x | none => q) := by
  cases p with
  | some x => exact .refused x
  | none => exact h

theorem AlikeResult.atomicStep (cfg : Config) (accs : List Access) (h : AlikeResult r q) :
    AlikeResult (atomicStep cfg accs r) (atomicStep cfg accs q) := by
  unfold Machine.atomicStep
  split
  · exact .fault _
  · exact h

end

theorem Alike.ite {c : Prop} [Decidable c] {s u s' u' : State} (ht : Alike s u) (he : Alike s' u') :
    Alike (if c then s else s') (if c then u else u') := by
  split
  · exact ht
  · exact he

/-- However a command is completed, the machines are alike after it: IDLE reads nothing. -/
theorem alike_complete (e : ErrCode) (s : State) (l : Hidden) : Alike (complete e s) (complete e { s with h := l }) :=
  ⟨rfl, .idle rfl l⟩

/-! ## Each phase over other leftovers -/

/-- What a command's DISPATCH step starts it sets up (R163, R193). -/
theorem alike_exec (i : Instr) (s : State) (l : Hidden) :
    AlikeResult (exec i s) (exec i { s with h := { l with op := s.h.op } }) := by
  cases i with
  | nop => exact .next (alike_complete .none s _)
  | cap => exact .next (alike_complete .none (latchCap s) _)
  | embed =>
    refine AlikeResult.ite (.next (alike_complete .payloadTooLarge (latchCap s) _)) ?_
    exact .check (embedProblem s.cfg s.reg) (.next ⟨rfl, .embRun rfl _⟩)
  | extract =>
    refine AlikeResult.ite (.next (alike_complete .noPayloadFound (initExtract s) _)) ?_
    exact .check (extractProblem s.cfg s.reg) (.next ⟨rfl, .extScan rfl l.framedBits⟩)

/-- The DISPATCH step reads the word alone (R119). -/
theorem alike_dispatchStep (s : State) (l : Hidden) :
    AlikeResult (dispatchStep s) (dispatchStep { s with h := { l with op := s.h.op } }) := by
  unfold dispatchStep
  dsimp only
  cases decode s.h.op with
  | illegal why => exact .next (alike_complete .illegalCommand s _)
  | instr i => exact alike_exec i s l

theorem alike_embedStep (hp : s.h.phase = .embRun) (l : Hidden) :
    AlikeResult (embedStep s) (embedStep { s with
      h := { l with phase := .embRun, framedBits := s.h.framedBits, k := s.h.k, sr := s.h.sr } }) := by
  refine .atomicStep s.cfg (embedAccesses s) (.next ?_)
  exact Alike.ite (alike_complete .none (countChannel (writeChannel s)) _)
    ⟨rfl, SameCourse.embRun (h := (countChannel (writeChannel s)).h) hp l⟩

section
variable (n : Nat)

theorem detectMarker_withFramedBits (b : Byte) (s : State) :
    detectMarker b { s with h.framedBits := n } = { detectMarker b s with
      h := { (detectMarker b s).h with framedBits := n } } := by
  unfold detectMarker latchMatch enterWindow
  split_ifs <;> rfl

theorem completeByte_withFramedBits (s : State) :
    completeByte { s with h.framedBits := n } = { completeByte s with
      h := { (completeByte s).h with framedBits := n } } := by
  unfold completeByte
  split_ifs
  · rfl
  · exact detectMarker_withFramedBits n _ (countByte s)
  · rfl

theorem writeOutput_withFramedBits (s : State) :
    writeOutput { s with h.framedBits := n } = { writeOutput s with
      h := { (writeOutput s).h with framedBits := n } } := by
  unfold writeOutput
  split_ifs <;> rfl

/-- The scan and its end read everything but EMBED's bit count. -/
theorem alike_scanStep (hp : s.h.phase = .extScan) :
    AlikeResult (scanStep s) (scanStep { s with h.framedBits := n }) := by
  refine .atomicStep s.cfg [{ kind := .read, addr := chanAddr s.reg s.h.k }] ?_
  have hbyte := completeByte_withFramedBits n (readBit s)
  have hphase : (completeByte (readBit s)).h.phase = .extScan := by simpa using hp
  generalize completeByte (readBit s) = t at hbyte hphase
  show AlikeResult (endScan t) (endScan (completeByte { readBit s with h.framedBits := n }))
  rw [hbyte]
  refine AlikeResult.ite (AlikeResult.ite (AlikeResult.ite ?_ ?_) ?_) ?_
  · exact .next (alike_complete .none (setOutLen 0 t) _)
  · exact .check (outputProblem t.cfg t.reg t.h.idx) (.next ⟨rfl, .extCopy rfl n⟩)
  · exact .next (alike_complete .noPayloadFound t _)
  · exact .next ⟨rfl, .extScan hphase n⟩

/-- So does the copy. -/
theorem alike_copyStep (hp : s.h.phase = .extCopy) :
    AlikeResult (copyStep s) (copyStep { s with h.framedBits := n }) := by
  refine .atomicStep s.cfg (copyAccesses s) (.next ?_)
  have hout := writeOutput_withFramedBits n (readBit s)
  have hphase : (writeOutput (readBit s)).h.phase = .extCopy := by simpa using hp
  generalize writeOutput (readBit s) = t at hout hphase
  show Alike (endCopy t) (endCopy (writeOutput { readBit s with h.framedBits := n }))
  rw [hout]
  exact Alike.ite (alike_complete .none (setOutLen t.h.idx t) _) ⟨rfl, .extCopy hphase n⟩

end

/-! ## Steps and runs -/

theorem alike_codecStep (h : Alike s u) : AlikeResult (codecStep s) (codecStep u) := by
  obtain ⟨hrest, hcourse⟩ := h
  have hphase : u.h.phase = s.h.phase := hcourse.phase_eq
  rw [hrest] at hphase ⊢
  generalize u.h = g at hcourse hphase
  cases hcourse with
  | idle hp l =>
    rw [codecStep_of_idle hp, codecStep_of_idle (hphase.trans hp)]
    exact .next ⟨rfl, .idle hp l⟩
  | dispatch hp l =>
    rw [codecStep_of_dispatch hp, codecStep_of_dispatch (hphase.trans hp)]
    exact alike_dispatchStep s { l with phase := .dispatch }
  | embRun hp l =>
    rw [codecStep_of_embRun hp, codecStep_of_embRun (hphase.trans hp)]
    exact alike_embedStep hp l
  | extScan hp n =>
    rw [codecStep_of_extScan hp, codecStep_of_extScan (s := { s with h.framedBits := n }) hp]
    exact alike_scanStep n hp
  | extCopy hp n =>
    rw [codecStep_of_extCopy hp, codecStep_of_extCopy (s := { s with h.framedBits := n }) hp]
    exact alike_copyStep n hp

theorem alike_stepN (n : Nat) (halone : pending s = []) (h : Alike s u) : AlikeResult (stepN n s) (stepN n u) := by
  induction n generalizing s u with
  | zero => exact .next h
  | succ n ih =>
    have halone' : pending u = [] := by rw [h.rest]; exact halone
    have hstep := alike_codecStep h
    have hframe (t : State) (ht : codecStep s = .next t) : pending t = [] := by
      obtain ⟨-, hinputs, hcycle, -⟩ := (codecStep_next ht).frame
      exact (pending_congr hinputs hcycle).trans halone
    simp only [stepN, step_of_no_inputs halone, step_of_no_inputs halone']
    generalize codecStep s = r, codecStep u = q at hstep hframe
    cases hstep with
    | next hnext => exact ih (hframe _ rfl) hnext
    | fault p => exact .fault p
    | refused p => exact .refused p

/-- Settles O57: at DISPATCH only the word has to agree, and alike machines stay alike. -/
theorem leftoverStateDoesNotLeak : Obligations.LeftoverStateDoesNotLeak := by
  intro s g n hs hg hop halone
  have hcourse : SameCourse s.h { g with phase := .dispatch, op := s.h.op } := .dispatch hs g
  rw [← hg, ← hop] at hcourse
  have hrun := alike_stepN (u := { s with h := g }) n halone ⟨rfl, hcourse⟩
  generalize stepN n s = r, stepN n { s with h := g } = q at hrun
  cases hrun with
  | next h =>
    have hrest := h.rest
    exact ⟨by rw [hrest], by rw [hrest], h.course.phase_eq⟩
  | fault p => rfl
  | refused p => rfl

end Sys2Proof
end

-- The capacity calculator
section
/-! The capacity figures: their arithmetic, the commands that latch them, and what else a step can do to the CAP_*
registers, which is nothing short of reset. -/

namespace Sys2Proof

open Machine

variable {s t : State}

/-! ## Arithmetic -/

theorem capBits_mono {w w' h h' : Nat} (hw : w ≤ w') (hh : h ≤ h') : capBits w h ≤ capBits w' h' :=
  Nat.mul_le_mul (Nat.mul_le_mul_left 3 hw) hh

/-- Settles O15: the product is non-decreasing in both factors, and each `div 8` keeps that. -/
theorem capacityIsMonotone : Obligations.CapacityIsMonotone := by
  intro w w' h h' hw hh
  have hbits : capBits w h ≤ capBits w' h' := capBits_mono hw hh
  have hbytes : capBytes w h ≤ capBytes w' h' := Nat.div_le_div_right hbits
  exact ⟨hbits, hbytes, Nat.div_le_div_right hbytes⟩

/-- Settles O16: `div 8` is floor. -/
theorem bitsAndBytesAgree : Obligations.BitsAndBytesAgree := by
  intro n w h
  rw [capBytes, Nat.le_div_iff_mul_le (by decide), Nat.mul_comm]

/-- The largest image is 65535 by 65535 (R144). -/
theorem imageCapBits_le (s : State) : imageCapBits s ≤ 12884508675 :=
  capBits_mono (Nat.le_of_lt_succ s.reg.width.isLt) (Nat.le_of_lt_succ s.reg.height.isLt)

/-! ## The latch -/

/-- The latch holds of a state by its CAP_* registers alone. -/
theorem capacityLatched_of_capacityOf_eq (h : capacityOf t.reg = capacityOf (latchCap s).reg) :
    CapacityLatched s t := by
  simp only [capacityOf, Prod.mk.injEq] at h
  obtain ⟨hlo, hhi, hbytes, hchars⟩ := h
  obtain ⟨hlo', hhi', hbytes', hchars'⟩ := latchCap_capacity s
  exact ⟨hlo ▸ hlo', hhi ▸ hhi', hbytes ▸ hbytes', hchars ▸ hchars'⟩

/-- The two registers of `capBits` together hold all of it. -/
theorem CapacityLatched.bits_eq (h : CapacityLatched s t) :
    t.reg.capBitsLo.toNat + 2 ^ 32 * t.reg.capBitsHi.toNat = 3 * s.reg.width.toNat * s.reg.height.toNat := by
  rw [h.bitsLo, h.bitsHi, Nat.mod_add_div]

/-- The DISPATCH step of CAP, EMBED and EXTRACT latches the figures, whatever else it does (R142). -/
theorem capacityOf_exec {i : Instr} (hi : i = .cap ∨ i = .embed ∨ i = .extract) (h : exec i s = .next t) :
    capacityOf t.reg = capacityOf (latchCap s).reg := by
  rcases hi with rfl | rfl | rfl
  · cases h
    rfl
  · simp only [exec, execEmbed] at h
    split at h
    · cases h
      rfl
    · split at h <;> cases h
      rfl
  · simp only [exec, execExtract] at h
    split at h
    · cases h
      rfl
    · split at h <;> cases h
      rfl

/-- Settles O14: each of the three commands latches the figures of an image that is not above the largest. -/
theorem capacityArithmeticIsExact : Obligations.CapacityArithmeticIsExact := by
  intro i s t hi h
  have hlatched := capacityLatched_of_capacityOf_eq (capacityOf_exec hi h)
  exact ⟨imageCapBits_le s, hlatched, hlatched.bits_eq⟩

/-! ## The CAP_* registers between two latches -/

theorem capacityOf_writeIdleReg (r : Reg) (v : Word) (s : State) :
    capacityOf (writeIdleReg r v s).reg = capacityOf s.reg := by
  cases r <;> rfl

theorem Machine.Ending.capacityOf_eq {u : State} (hu : Ending s u) (hp : s.h.phase ≠ .dispatch) :
    capacityOf u.reg = capacityOf s.reg := by
  cases hu with
  | dispatched hd | latched hd | noPixels hd => exact absurd hd hp
  | _ => simp [capacityOf]

/-- Outside DISPATCH the codec leaves the CAP_* registers alone. -/
theorem Machine.CodecCase.capacityOf_eq (hm : CodecCase s t) (hp : s.h.phase ≠ .dispatch) :
    capacityOf t.reg = capacityOf s.reg := by
  cases hm with
  | ends e u hu => exact hu.capacityOf_eq hp
  | embedStarts hd | scanStarts hd => exact absurd hd hp
  | _ => simp

/-- A codec step that changes a CAP_* register is the DISPATCH step of a command that latches (R142). -/
theorem latches_of_capacityOf_ne (hm : CodecMove s t) (hne : capacityOf t.reg ≠ capacityOf s.reg) :
    s.h.phase = .dispatch ∧
      (decode s.h.op = .instr .cap ∨ decode s.h.op = .instr .embed ∨ decode s.h.op = .instr .extract) := by
  have hp : s.h.phase = .dispatch := by_contra fun hp => hne (hm.cases.capacityOf_eq hp)
  refine ⟨hp, ?_⟩
  cases hm with
  | illegal | nop => exact absurd rfl hne
  | cap _ hd => exact .inl hd
  | embedTooLarge _ hd | embedStart _ hd => exact .inr (.inl hd)
  | extractEmpty _ hd | extractStart _ hd => exact .inr (.inr hd)
  | idle hr | embRun hr | extScan hr | extCopy hr => simp [hr] at hp

/-- Settles O13: at such a step the machine runs `exec`, which latches; any other change is the codec's or reset's. -/
theorem capacityHeldUntilLatchOrReset : Obligations.CapacityHeldUntilLatchOrReset := by
  intro s t h
  refine ⟨fun ⟨hc, hp, hd⟩ => ?_, fun hne => ?_⟩
  · obtain ⟨hruns, -⟩ := stepRunsDispatchedCommand s hp hc
    have hlatched {i : Instr} (hi : i = .cap ∨ i = .embed ∨ i = .extract) (hd : decode s.h.op = .instr i) :
        CapacityLatched s t := by
      rw [hruns i (by cases i <;> rfl) hd] at h
      exact capacityLatched_of_capacityOf_eq (capacityOf_exec (s := { s with inputs := (pending s).tail }) hi h)
    rcases hd with hd | hd | hd <;> exact hlatched (by simp) hd
  · cases step_cases h with
    | codec hc ins t hm => exact .inr ⟨hc, latches_of_capacityOf_ne (s := { s with inputs := ins }) hm hne⟩
    | reset rest hp => exact .inl ⟨rest, hp⟩
    | write r v rest => exact absurd (capacityOf_writeIdleReg r v _) hne
    | quiet t hr => exact absurd (congrArg capacityOf hr) hne

/-! ## CAP -/

/-- A word whose DISPATCH step answers, accepted from idle and run alone. -/
theorem stepN_two_of_codecMove {v : Word} (hidle : s.h.phase = .idle) (hins : s.inputs = [.regWrite 0x04 4 v])
    (hcycle : s.cycle = []) (hm : CodecMove (acceptCommand v { s with inputs := [] }) t) : stepN 2 s = .next t := by
  rw [stepN_succ _ _ _ (step_of_command hidle (pending_of_inputs hins))]
  have halone : pending (acceptCommand v { s with inputs := [] }) = [] := pending_eq_nil.2 ⟨rfl, hcycle⟩
  exact stepN_succ 0 _ _ ((step_of_no_inputs halone).trans (codecStep_of_codecMove hm))

theorem complete_latchCap (e : ErrCode) (s : State) : complete e (latchCap s) = latchCap (complete e s) := rfl

/-- Settles O11: CAP's arm is the latch and `complete`, and its word owns no region. -/
theorem capLatchesCapacity : Obligations.CapLatchesCapacity := by
  refine ⟨fun s => ⟨_, rfl, capacityLatched_of_capacityOf_eq rfl, rfl⟩, fun s hidle hins hcycle => ?_⟩
  have hrun := stepN_two_of_codecMove hidle hins hcycle (.cap rfl (decode_eq_instr.2 rfl))
  refine ⟨_, hrun, BitVec.eq_of_toNat_eq ?_, capacityLatched_of_capacityOf_eq rfl, ?_⟩
  · rw [statusWord_complete]
    rfl
  · rw [complete_latchCap, complete_acceptCommand_eq (v := 1) hidle (wordRegions_encode .cap s.reg)]
    rfl

end Sys2Proof
end

-- EMBED's functional semantics
section
/-! `embedF` byte by byte: its loop over the bits of the bitstream is one map over the buffer, since no two bits share
a channel.  What it leaves alone and that it is idempotent are facts about one byte. -/

namespace Sys2Proof.Machine

/-! ## The bit writer -/

theorem getLsbD_withBit (v : Byte) (bit : Bool) {i : Nat} (hi : i < 8) :
    (withBit v bit).getLsbD i = if i = 0 then bit else v.getLsbD i := by
  have hmask : ∀ j : Fin 8, (0xFE : Byte).getLsbD j = decide (j.val ≠ 0) := by decide
  have hmask' : (0xFE : Byte).getLsbD i = decide (i ≠ 0) := hmask ⟨i, hi⟩
  rw [withBit, BitVec.getLsbD_or, BitVec.getLsbD_and, hmask']
  by_cases h0 : i = 0 <;> simp [h0, hi]

/-- Bits 7:1 of a byte stay (R160). -/
theorem withBit_ushiftRight_one (v : Byte) (bit : Bool) : withBit v bit >>> 1 = v >>> 1 := by
  refine BitVec.eq_of_getLsbD_eq fun i _ => ?_
  rw [BitVec.getLsbD_ushiftRight, BitVec.getLsbD_ushiftRight]
  by_cases hi : 1 + i < 8
  · rw [getLsbD_withBit v bit hi, if_neg (by omega)]
  · rw [BitVec.getLsbD_of_ge _ _ (by omega), BitVec.getLsbD_of_ge _ _ (by omega)]

/-- A bit written a second time takes the first one's place. -/
theorem withBit_withBit (v : Byte) (b c : Bool) : withBit (withBit v b) c = withBit v c := by
  refine BitVec.eq_of_getLsbD_eq fun i hi => ?_
  rw [getLsbD_withBit _ c hi, getLsbD_withBit v b hi, getLsbD_withBit v c hi]
  split_ifs <;> rfl

/-! ## The bitstream -/

theorem length_framedStream (marker : Bytes5) (p : List Byte) : (framedStream marker p).length = 8 * (p.length + 5) := by
  simp [framedStream, bitsOf, Bytes5.toList]

/-- Bit `k` of the bitstream is bit `7 - (k mod 8)` of framed byte `k div 8` (R13, R160). -/
theorem getD_framedStream (marker : Bytes5) (p : List Byte) {k : Nat} (hk : k < 8 * (p.length + 5)) :
    (framedStream marker p).getD k false = ((p ++ marker.toList).getD (k / 8) 0).getLsbD (7 - k % 8) := by
  have hlen : k < 8 * (p ++ marker.toList).length := by simpa [Bytes5.toList] using hk
  rw [framedStream, bitsOf, List.getD_eq_getElem?_getD, List.getElem?_map, List.getElem?_range hlen]
  rfl

/-! ## The loop as a map -/

/-- The byte at offset `a` once the first `n` bits of `l` are written: the channels of those bits have theirs, and
alpha bytes and later channels are as they were (R12, R160). -/
def embeddedByte (l : List Bool) (n a : Nat) (v : Byte) : Byte :=
  if a % 4 ≠ 3 ∧ 3 * (a / 4) + a % 4 < n then withBit v (l.getD (3 * (a / 4) + a % 4) false) else v

theorem embeddedByte_of_outside (l : List Bool) {n a : Nat} (ha : a % 4 = 3 ∨ n ≤ 3 * (a / 4) + a % 4) (v : Byte) :
    embeddedByte l n a v = v :=
  if_neg (by omega)

/-- An offset is that of channel `k` exactly when it is no alpha byte and `k` is its bit number (R12). -/
theorem eq_chanIndex_iff {a k : Nat} : a = chanIndex k ↔ a % 4 ≠ 3 ∧ 3 * (a / 4) + a % 4 = k := by
  unfold chanIndex
  omega

/-- Bit `n` finds its channel as it was at first, since no earlier bit was written there. -/
theorem embeddedByte_succ (l : List Bool) (n a : Nat) (v : Byte) :
    embeddedByte l (n + 1) a v =
      if a = chanIndex n then withBit (embeddedByte l n a v) (l.getD n false) else embeddedByte l n a v := by
  by_cases ha : a = chanIndex n
  · obtain ⟨halpha, hbit⟩ := eq_chanIndex_iff.1 ha
    rw [embeddedByte_of_outside l (.inr hbit.ge) v, if_pos ha, embeddedByte, if_pos (by omega), hbit]
  · have hbit : (a % 4 ≠ 3 ∧ 3 * (a / 4) + a % 4 < n + 1) ↔ (a % 4 ≠ 3 ∧ 3 * (a / 4) + a % 4 < n) := by
      rw [eq_chanIndex_iff] at ha
      omega
    simp only [embeddedByte, hbit, if_neg ha]

theorem getElem?_embedBit (l : List Bool) (px : List Byte) (k a : Nat) :
    (embedBit l px k)[a]? = px[a]?.map fun v => if a = chanIndex k then withBit v (l.getD k false) else v := by
  rw [embedBit, List.getElem?_set]
  by_cases ha : a = chanIndex k
  · subst ha
    by_cases hlen : chanIndex k < px.length <;> simp [hlen]
  · simp [ha, Ne.symm ha]

/-- The loop of `embedF` over the first `n` bits, as one map. -/
theorem foldl_embedBit_eq_mapIdx (l : List Bool) (px : List Byte) (n : Nat) :
    (List.range n).foldl (embedBit l) px = px.mapIdx (embeddedByte l n) := by
  refine List.ext_getElem? fun a => ?_
  induction n with
  | zero =>
    have hid : embeddedByte l 0 a = id := funext (embeddedByte_of_outside l (.inr (Nat.zero_le _)))
    rw [List.getElem?_mapIdx, hid, Option.map_id]
    rfl
  | succ n ih =>
    have hsucc := funext (embeddedByte_succ l n a)
    rw [List.range_succ, List.foldl_concat, getElem?_embedBit, ih, List.getElem?_mapIdx, List.getElem?_mapIdx,
      Option.map_map, hsucc]
    rfl

/-! ## embedF -/

section
variable {marker : Bytes5} {w h : Nat} {px p : List Byte}

theorem embedF_of_tooLarge (hc : 8 * (p.length + 5) > capBits w h) : embedF marker w h px p = none :=
  if_pos hc

theorem embedF_of_fits (hc : 8 * (p.length + 5) ≤ capBits w h) :
    embedF marker w h px p = some ((List.range (8 * (p.length + 5))).foldl (embedBit (framedStream marker p)) px) := by
  simp only [embedF, if_neg (Nat.not_lt.2 hc), length_framedStream]

/-- What `embedF` answers, where it answers a buffer. -/
theorem embedF_eq_some {px' : List Byte} (he : embedF marker w h px p = some px') :
    8 * (p.length + 5) ≤ capBits w h ∧
      px' = px.mapIdx (embeddedByte (framedStream marker p) (8 * (p.length + 5))) := by
  have hc : 8 * (p.length + 5) ≤ capBits w h := by
    by_contra hc
    simp [embedF_of_tooLarge (Nat.lt_of_not_le hc)] at he
  rw [embedF_of_fits hc, foldl_embedBit_eq_mapIdx] at he
  exact ⟨hc, (Option.some.inj he).symm⟩

end

theorem embeddedByte_ushiftRight_one (l : List Bool) (n a : Nat) (v : Byte) :
    embeddedByte l n a v >>> 1 = v >>> 1 := by
  unfold embeddedByte
  split_ifs
  · exact withBit_ushiftRight_one v _
  · rfl

theorem embeddedByte_embeddedByte (l : List Bool) (n a : Nat) (v : Byte) :
    embeddedByte l n a (embeddedByte l n a v) = embeddedByte l n a v := by
  unfold embeddedByte
  split_ifs
  · exact withBit_withBit v _ _
  · rfl

/-- Settles O23: the map keeps the length, and each byte by `embeddedByte`'s cases. -/
theorem embedLeavesAlphaAndTailUnchanged : Obligations.EmbedLeavesAlphaAndTailUnchanged := by
  intro marker w h px p px' he
  obtain ⟨-, rfl⟩ := embedF_eq_some he
  refine ⟨List.length_mapIdx, fun a => ?_⟩
  simp only [List.getD_eq_getElem?_getD, List.getElem?_mapIdx]
  cases px[a]? with
  | none => exact ⟨fun _ => rfl, rfl⟩
  | some v => exact ⟨fun ha => embeddedByte_of_outside _ ha v, embeddedByte_ushiftRight_one _ _ a v⟩

/-- Settles O24: the same map twice, byte by byte. -/
theorem embeddingAgainChangesNothing : Obligations.EmbeddingAgainChangesNothing := by
  intro marker w h px p px' _ he
  obtain ⟨hc, rfl⟩ := embedF_eq_some he
  rw [embedF_of_fits hc, foldl_embedBit_eq_mapIdx, List.mapIdx_mapIdx]
  simp only [Function.comp_def, embeddedByte_embeddedByte]

end Sys2Proof.Machine
end

-- EMBED's steps
section
/-! An EMB_RUN step is one turn of `embedF`'s loop: on the bytes of a region a write is a list update, the framer's byte
is the framed byte, and the serializer's bit is the bit of the bitstream. -/

namespace Sys2Proof.Machine

/-! ## The bytes of a region -/

section
variable {m n : Memory} {r : Region}

theorem length_regionBytes (m : Memory) (r : Region) : (regionBytes m r).length = r.len := by
  simp [regionBytes]

theorem getD_regionBytes (m : Memory) {j : Nat} (hj : j < r.len) :
    (regionBytes m r).getD j 0 = memRead m (r.base + BitVec.ofNat 32 j) := by
  rw [regionBytes, List.getD_eq_getElem?_getD, List.getElem?_map, List.getElem?_range hj]
  rfl

/-- Memories alike at every address of a region hold the same bytes there. -/
theorem regionBytes_congr (h : ∀ a, r.contains a = true → memRead n a = memRead m a) :
    regionBytes n r = regionBytes m r :=
  List.map_congr_left fun _ hj => h _ (Region.contains_offset r (List.mem_range.1 hj))

/-- A byte written at offset `i` of a region that fits the address space replaces byte `i` of its contents (R65). -/
theorem regionBytes_memWrite_offset (hm : Memory.wf m = true) (hlen : r.len ≤ 2 ^ 32) {i : Nat} (hi : i < r.len)
    (v : Byte) : regionBytes (memWrite m (r.base + BitVec.ofNat 32 i) v) r = (regionBytes m r).set i v := by
  refine List.ext_getElem (by simp [length_regionBytes]) fun j hj _ => ?_
  rw [length_regionBytes] at hj
  rw [List.getElem_set]
  simp only [regionBytes, List.getElem_map, List.getElem_range]
  split_ifs with hij
  · rw [hij, memRead_memWrite_same hm]
  · refine memRead_memWrite_other m v fun ha => hij ?_
    exact ((base_add_ofNat_inj (hj.trans_le hlen) (hi.trans_le hlen)).1 ha).symm

/-- A byte written outside a region leaves its contents alone. -/
theorem regionBytes_memWrite_outside {a : Word} (ha : r.contains a = false) (v : Byte) :
    regionBytes (memWrite m a v) r = regionBytes m r :=
  regionBytes_congr fun b hb => memRead_memWrite_other m v fun hba => by simp [← hba, hb] at ha

end

/-! ## Framer and serializer -/

section
variable {s : State}

/-- Between byte boundaries the framer holds its byte (R164). -/
theorem framerByte_of_between (hk : s.h.k % 8 ≠ 0) : framerByte s = s.h.sr :=
  if_neg hk

theorem framerByte_of_payload (hk : s.h.k % 8 = 0) (hj : s.h.k / 8 < s.reg.payLen.toNat) :
    framerByte s = memRead s.mem (payAddr s.reg (s.h.k / 8)) := by
  rw [framerByte, if_pos hk, if_pos hj]

theorem framerByte_of_marker (hk : s.h.k % 8 = 0) (hj : s.reg.payLen.toNat ≤ s.h.k / 8) :
    framerByte s = s.cfg.marker.get (s.h.k / 8 - s.reg.payLen.toNat) := by
  rw [framerByte, if_pos hk, if_neg (Nat.not_lt.2 hj)]

theorem bytes5_getElem?_toList (b : Bytes5) {j : Nat} (hj : j < 5) : b.toList[j]? = some (b.get j) := by
  match j with
  | 0 | 1 | 2 | 3 | 4 => rfl

/-- The bit writer writes the bit of its byte that R13 numbers `k mod 8`. -/
theorem withLsb_msbFirstBit (v b : Byte) (k : Nat) :
    withLsb v (msbFirstBit b k) = withBit v (b.getLsbD (7 - k % 8)) := by
  have hbit : msbFirstBit b k = BitVec.zeroExtend 8 (BitVec.ofBool (b.getLsbD (7 - k % 8))) := by
    rw [msbFirstBit, show (0x01 : Byte) = 1#8 from rfl, BitVec.and_one_eq_setWidth_ofBool_getLsbD,
      BitVec.getLsbD_ushiftRight, Nat.add_zero]
  rw [withLsb, withBit, hbit]

end

end Sys2Proof.Machine

namespace Sys2Proof

open Machine

variable {s t : State} {px p : List Byte}

/-! ## A turn of the loop -/

theorem EmbedProgress.length_payload (hs : EmbedProgress px p s) : p.length = s.reg.payLen.toNat := by
  rw [← hs.payload, length_regionBytes]
  rfl

/-- The run has as many steps as the bitstream has bits (R163). -/
theorem EmbedProgress.framedBits_eq (hs : EmbedProgress px p s) : s.h.framedBits = 8 * (p.length + 5) := by
  rw [hs.length_payload]
  exact (hs.inv.command.embRun hs.phase).2.1

theorem EmbedProgress.k_lt (hs : EmbedProgress px p s) : s.h.k < 8 * (p.length + 5) :=
  hs.framedBits_eq ▸ hs.inv.phase.embRun hs.phase

/-- The step's byte is the framed byte that its bit belongs to (R164). -/
theorem EmbedProgress.framerByte_eq (hs : EmbedProgress px p s) :
    framerByte s = (p ++ s.cfg.marker.toList).getD (s.h.k / 8) 0 := by
  have hlen := hs.length_payload
  by_cases hk : s.h.k % 8 = 0
  · by_cases hj : s.h.k / 8 < s.reg.payLen.toNat
    · rw [framerByte_of_payload hk hj, List.getD_append _ _ _ _ (hlen ▸ hj), ← hs.payload]
      exact (getD_regionBytes s.mem (r := payRegion s.reg) hj).symm
    · have hmarker : s.h.k / 8 - s.reg.payLen.toNat < 5 := by
        have hlt := hs.k_lt
        omega
      rw [framerByte_of_marker hk (Nat.le_of_not_lt hj), List.getD_append_right _ _ _ _ (by omega), hlen,
        List.getD_eq_getElem?_getD, bytes5_getElem?_toList _ hmarker]
      rfl
  · rw [framerByte_of_between hk, hs.byte hk]

/-- The regions of a running EMBED: the pixel region fits the address space, and a pixel byte is no payload byte
(R75). -/
theorem embRun_regions (hi : Inv s) (hp : s.h.phase = .embRun) :
    (pixRegion s.reg).len ≤ 2 ^ 32 ∧
      ∀ a, (pixRegion s.reg).contains a = true → (payRegion s.reg).contains a = false := by
  obtain ⟨hlen, hdisjoint, -⟩ := embedProblem_none_iff.1 (hi.ownership.embRun hp)
  exact ⟨hlen, fun a ha => Bool.eq_false_iff.2 fun hb => hdisjoint a ⟨ha, hb⟩⟩

/-- What the step writes into the pixel region is the loop's body at bit `h.k` (R165). -/
theorem EmbedProgress.pixels_writeChannel (hs : EmbedProgress px p s) :
    regionBytes (writeChannel s).mem (pixRegion s.reg) =
      (List.range (s.h.k + 1)).foldl (embedBit (framedStream s.cfg.marker p)) px := by
  have hchan : chanIndex s.h.k < (pixRegion s.reg).len := (chanIndex_lt (k_lt_channels hs.inv (.inl hs.phase))).1
  have hread : memRead s.mem (chanAddr s.reg s.h.k) =
      (regionBytes s.mem (pixRegion s.reg)).getD (chanIndex s.h.k) 0 := (getD_regionBytes s.mem hchan).symm
  rw [writeChannel_mem, withLsb_msbFirstBit, hs.framerByte_eq, ← getD_framedStream _ _ hs.k_lt, hread, List.range_succ,
    List.foldl_concat, ← hs.pixels]
  exact regionBytes_memWrite_offset hs.inv.mem (embRun_regions hs.inv hs.phase).1 hchan _

/-- The step leaves the payload region alone. -/
theorem payload_writeChannel (hi : Inv s) (hp : s.h.phase = .embRun) :
    regionBytes (writeChannel s).mem (payRegion s.reg) = regionBytes s.mem (payRegion s.reg) :=
  regionBytes_memWrite_outside
    ((embRun_regions hi hp).2 _ (pixRegion_contains_chanAddr (k_lt_channels hi (.inl hp)))) _

/-- An EMB_RUN step that does not complete the command is one more turn of the loop. -/
theorem EmbedProgress.goesOn (hs : EmbedProgress px p s) (hi : Inv (countChannel (writeChannel s))) :
    EmbedProgress px p (countChannel (writeChannel s)) where
  inv := hi
  phase := hs.phase
  payload := (payload_writeChannel hs.inv hs.phase).trans hs.payload
  pixels := hs.pixels_writeChannel
  byte hk := by
    have hdiv : (s.h.k + 1) / 8 = s.h.k / 8 := by
      have hk' : (s.h.k + 1) % 8 ≠ 0 := hk
      omega
    exact hs.framerByte_eq.trans (by rw [← hdiv]; rfl)

/-- An EMB_RUN step that completes the command is the loop's last turn (R166). -/
theorem EmbedProgress.ends (hs : EmbedProgress px p s) (hk : s.h.k + 1 = s.h.framedBits) :
    ∃ px', embedF s.cfg.marker s.reg.width.toNat s.reg.height.toNat px p = some px' ∧
      EmbedDone px' (complete .none (countChannel (writeChannel s))) := by
  obtain ⟨-, -, hfits⟩ := hs.inv.command.embRun hs.phase
  have hbits : 8 * (p.length + 5) = s.h.k + 1 := by rw [hk, hs.framedBits_eq]
  refine ⟨_, embedF_of_fits ?_, rfl, rfl, rfl, ?_⟩
  · rw [hbits, hk]
    exact hfits
  · rw [hbits]
    exact hs.pixels_writeChannel

/-- What host and other agents do while EMBED runs leaves its progress as it was (R81). -/
theorem EmbedProgress.congr (hs : EmbedProgress px p s) (hi : Inv t) (hc : t.cfg = s.cfg) (hr : t.reg = s.reg)
    (hh : t.h = s.h)
    (hm : ∀ o ∈ wordRegions s.h.op s.reg, ∀ a, o.region.contains a = true → memRead t.mem a = memRead s.mem a) :
    EmbedProgress px p t := by
  have howns : wordRegions s.h.op s.reg = commandRegions .embed s.reg := by
    obtain ⟨hd, -⟩ := hs.inv.command.embRun hs.phase
    rw [decode_eq_instr.1 hd, wordRegions_encode]
  rw [howns] at hm
  have hpix : regionBytes t.mem (pixRegion s.reg) = regionBytes s.mem (pixRegion s.reg) :=
    regionBytes_congr (hm { region := pixRegion s.reg, written := true } (by simp [commandRegions]))
  have hpay : regionBytes t.mem (payRegion s.reg) = regionBytes s.mem (payRegion s.reg) :=
    regionBytes_congr (hm { region := payRegion s.reg, written := false } (by simp [commandRegions]))
  exact
    { inv := hi
      phase := by rw [hh, hs.phase]
      payload := by rw [hr, hpay, hs.payload]
      pixels := by rw [hr, hpix, hh, hc, hs.pixels]
      byte := by rw [hh, hc]; exact hs.byte }

theorem EmbedProgress.withInputs (hs : EmbedProgress px p s) (ins : List Input) :
    EmbedProgress px p { s with inputs := ins } :=
  hs.congr (inv_withInputs ins hs.inv) rfl rfl rfl fun _ _ _ _ => rfl

/-- The codec's step is a turn of the loop, and the last one completes the command. -/
theorem EmbedProgress.codecMove (hs : EmbedProgress px p s) (hm : CodecMove s t) :
    EmbedProgress px p t ∨
      ∃ px', embedF t.cfg.marker t.reg.width.toNat t.reg.height.toNat px p = some px' ∧ EmbedDone px' t := by
  have hi : Inv t := inv_codecMove hs.inv hm
  cases hm with
  | embRun hp ha =>
    have hend := advanceEmbed_cases (writeChannel s)
    generalize advanceEmbed (writeChannel s) = t at hend hi
    cases hend with
    | goesOn => exact .inl (hs.goesOn hi)
    | done hk => exact .inr (hs.ends hk)
  | idle hp | illegal hp | nop hp | cap hp | embedTooLarge hp | embedStart hp | extractEmpty hp | extractStart hp
  | extScan hp | extCopy hp => simp [hs.phase] at hp

/-- Settles O22: the codec's step is a turn of the loop, and nobody else can disturb the command. -/
theorem embedProgressUnderEverySchedule : Obligations.EmbedProgressUnderEverySchedule := by
  intro px p s t hs hreset h
  rcases step_next h with ⟨-, hm⟩ | ⟨rest, -, hm⟩ | ⟨i, rest, hpend, hm⟩
  · exact hs.codecMove hm
  · exact (hs.withInputs rest).codecMove hm
  · have hcodec : i ≠ .codec := by rintro rfl; cases hm
    have hnoreset : i ≠ .reset := by rintro rfl; exact hreset rest hpend
    have hbusy : s.h.phase ≠ .idle := by simp [hs.phase]
    obtain ⟨hr, hh, hmem⟩ :=
      agentsCannotDisturbARunningCommand s t i rest hs.inv hbusy hpend hcodec hnoreset h
    exact .inl (hs.congr (invariantKeptByEveryStep s t hs.inv h) (step_frame h).1 hr hh hmem)

end Sys2Proof
end

-- EMBED from its DISPATCH step to its end
section
/-! EMBED's DISPATCH step, its run step field by field, and the whole command run alone: the loop's turns one after
another, from the start of the run to the step that completes it. -/

namespace Sys2Proof

open Machine

variable {s t : State} {px p : List Byte}

/-! ## DISPATCH -/

theorem exec_embed_of_tooLarge (hc : framedBitCount s.reg > imageCapBits s) :
    exec .embed s = .next (complete .payloadTooLarge (latchCap s)) :=
  if_pos hc

theorem exec_embed_of_fits (hc : framedBitCount s.reg ≤ imageCapBits s) (hr : embedProblem s.cfg s.reg = none) :
    exec .embed s = .next (startEmbed (latchCap s)) := by
  simp only [exec, execEmbed, if_neg (Nat.not_lt.2 hc), hr]

/-- Settles O17, by the two ends of the DISPATCH step. -/
theorem embedDispatch : Obligations.EmbedDispatch := by
  refine fun s => ⟨fun hc => ?_, fun hc hr => ?_⟩
  · exact ⟨_, exec_embed_of_tooLarge hc, capacityLatched_of_capacityOf_eq rfl, rfl⟩
  · have hmin : 40 ≤ framedBitCount s.reg := by
      unfold framedBitCount
      omega
    exact ⟨_, exec_embed_of_fits hc hr, capacityLatched_of_capacityOf_eq rfl, hmin, hc, rfl⟩

/-- Settles O19: the largest payload is above the largest image's capacity, and an empty image has none. -/
theorem embedCapacityBoundary : Obligations.EmbedCapacityBoundary := by
  refine fun s => ⟨fun hexact hr => ⟨_, exec_embed_of_fits hexact.ge hr, rfl⟩, fun hcase => ?_⟩
  have hc : framedBitCount s.reg > imageCapBits s := by
    rcases hcase with hless | hlen | hw | hh
    · exact hless
    · have hmax := imageCapBits_le s
      have hbits : framedBitCount s.reg = 8 * (4294967295 + 5) := by rw [framedBitCount, hlen]; rfl
      omega
    · simp [framedBitCount, imageCapBits, imageWidth, capBits, hw]
    · simp [framedBitCount, imageCapBits, imageHeight, capBits, hh]
  exact ⟨_, exec_embed_of_tooLarge hc, rfl, rfl, rfl, rfl⟩

/-! ## One EMB_RUN step -/

/-- Where its accesses are admitted, the codec alone takes the step. -/
theorem step_of_embRun (hp : s.h.phase = .embRun) (halone : pending s = []) (ha : accessesAdmitted s) :
    step s = .next (advanceEmbed (writeChannel s)) := by
  rw [accessesAdmitted, codecAccesses_of_embRun hp] at ha
  rw [step_of_no_inputs halone]
  exact codecStep_of_codecMove (.embRun hp ha)

theorem advanceEmbed_h (s : State) :
    (advanceEmbed s).h = { s.h with k := s.h.k + 1, phase := (advanceEmbed s).h.phase } := by
  have hend := advanceEmbed_cases s
  generalize advanceEmbed s = t at hend
  cases hend <;> rfl

theorem advanceEmbed_of_last (hk : s.h.k + 1 = s.h.framedBits) :
    advanceEmbed s = complete .none (countChannel s) :=
  if_pos hk

theorem advanceEmbed_of_not_last (hk : s.h.k + 1 ≠ s.h.framedBits) : advanceEmbed s = countChannel s :=
  if_neg hk

/-- The accesses of the step (R76, R164, R165). -/
theorem embedAccesses_eq (s : State) :
    embedAccesses s =
      (if s.h.k % 8 = 0 ∧ s.h.k / 8 < s.reg.payLen.toNat then
        [{ kind := .read, addr := payAddr s.reg (s.h.k / 8) }] else []) ++
      [{ kind := .read, addr := chanAddr s.reg s.h.k }, { kind := .write, addr := chanAddr s.reg s.h.k }] := by
  simp only [embedAccesses, loadsPayload, Bool.and_eq_true, decide_eq_true_eq]

theorem withBit_eq_or_ite (v : Byte) (bit : Bool) : withBit v bit = (v &&& 0xFE) ||| (if bit then 0x01 else 0x00) := by
  cases bit <;> rfl

/-- Settles O20, by the step's parts: framer, bit writer, and the two ways that it can end. -/
theorem embedRunStep : Obligations.EmbedRunStep := by
  intro s hi hp halone ha
  have hh := advanceEmbed_h (writeChannel s)
  have hsr : (advanceEmbed (writeChannel s)).h.sr = framerByte s := by rw [hh]; rfl
  have hk : (advanceEmbed (writeChannel s)).h.k = s.h.k + 1 := by rw [hh]; rfl
  refine ⟨_, step_of_embRun hp halone ha, hk, ?_, fun hbyte => ?_, fun hbyte hj => ?_, fun hbyte hj => ?_, ?_,
    fun hlast => ?_, fun hlast => ?_, ?_, by simp, by simp, by simp⟩
  · rintro a rfl
    rw [codecAccesses_of_embRun hp]
    exact embedAccesses_eq s
  · rw [hsr, framerByte_of_between hbyte]
  · rw [hsr, framerByte_of_payload hbyte hj]
    rfl
  · have hmarker : s.h.k / 8 - s.reg.payLen.toNat < 5 := by
      have hlt := hi.phase.embRun hp
      obtain ⟨-, hframed, -⟩ := hi.command.embRun hp
      omega
    rw [hsr, framerByte_of_marker hbyte hj, bytes5_getElem?_toList _ hmarker]
  · rintro a rfl
    rw [advanceEmbed_mem, writeChannel_mem, hsr, withLsb_msbFirstBit, withBit_eq_or_ite]
    exact ⟨memRead_memWrite_same hi.mem _ _, fun b hb => memRead_memWrite_other _ _ hb⟩
  · rw [advanceEmbed_of_last (s := writeChannel s) hlast]
    exact ⟨rfl, rfl⟩
  · rw [advanceEmbed_of_not_last (s := writeChannel s) hlast]
    exact ⟨hp, rfl⟩
  · rw [hsr, hk]
    exact hh

/-! ## The run alone -/

/-- EMBED's premises cover every access of its run (R64). -/
theorem EmbedPremises.accessesAdmitted (hs : EmbedPremises s) (hi : Inv s) (hp : s.h.phase = .embRun) :
    accessesAdmitted s := by
  intro acc hacc
  rcases ((accessesStayInTheCommandsRegions s hi).2 acc hacc).1 hp with hpix | ⟨hread, hpay⟩
  · exact hs.pixels acc.addr hpix acc.kind
  · have hadmit := hs.payload acc.addr hpay
    rwa [← hread] at hadmit

/-- The premises are about the parameters and the operand registers. -/
theorem EmbedPremises.congr (hs : EmbedPremises s) (hc : t.cfg = s.cfg) (hr : operandsOf t.reg = operandsOf s.reg) :
    EmbedPremises t := by
  obtain ⟨hpix, hpay, -⟩ := regions_congr hr
  exact
    { regions := by rw [hc, embedProblem_congr hr, hs.regions]
      pixels := by rw [hc, hpix]; exact hs.pixels
      payload := by rw [hc, hpay]; exact hs.payload }

/-- How a run of EMBED from `s` has ended in `t`: well, with the registers but DONE and ERR, and memory outside the
pixel region, as they were. -/
structure EmbedEnded (px p : List Byte) (s t : State) : Prop where
  done : ∃ px', embedF s.cfg.marker s.reg.width.toNat s.reg.height.toNat px p = some px' ∧ EmbedDone px' t
  reg : t.reg = { s.reg with err := .none, done := true }
  outside : ∀ a, (pixRegion s.reg).contains a = false → memRead t.mem a = memRead s.mem a

theorem memRead_writeChannel_outside (hi : Inv s) (hp : s.h.phase = .embRun) {a : Word}
    (ha : (pixRegion s.reg).contains a = false) : memRead (writeChannel s).mem a = memRead s.mem a := by
  refine memRead_memWrite_other _ _ ?_
  rintro rfl
  simp [pixRegion_contains_chanAddr (k_lt_channels hi (.inl hp))] at ha

/-- Run alone, EMBED ends after as many steps as it has bits left, and not before: by induction on those. -/
theorem EmbedProgress.run {n : Nat} (hs : EmbedProgress px p s) (hpre : EmbedPremises s) (halone : pending s = [])
    (hn : s.h.framedBits = s.h.k + n) :
    (∀ m, m < n → ∃ u, stepN m s = .next u ∧ u.h.phase ≠ .idle) ∧
      ∃ t, stepN n s = .next t ∧ EmbedEnded px p s t := by
  have hbusy : s.h.phase ≠ .idle := by simp [hs.phase]
  induction n generalizing s with
  | zero =>
    have hlt := hs.inv.phase.embRun hs.phase
    omega
  | succ n ih =>
    have hstep := step_of_embRun hs.phase halone (hpre.accessesAdmitted hs.inv hs.phase)
    have hout (a : Word) := memRead_writeChannel_outside hs.inv hs.phase (a := a)
    by_cases hk : s.h.k + 1 = s.h.framedBits
    · obtain rfl : n = 0 := by omega
      rw [advanceEmbed_of_last (s := writeChannel s) hk] at hstep
      refine ⟨fun m hm => ?_, _, stepN_succ 0 _ _ hstep, hs.ends hk, rfl, hout⟩
      obtain rfl : m = 0 := by omega
      exact ⟨s, rfl, hbusy⟩
    · rw [advanceEmbed_of_not_last (s := writeChannel s) hk] at hstep
      have hi : Inv (countChannel (writeChannel s)) := invariantKeptByEveryStep _ _ hs.inv hstep
      have hleft : s.h.framedBits = s.h.k + 1 + n := by omega
      obtain ⟨hbefore, t, hrun, hend⟩ :=
        ih (hs.goesOn hi) (hpre.congr rfl rfl) halone hleft hbusy
      refine ⟨fun m hm => ?_, t, (stepN_succ n _ _ hstep).trans hrun, hend.done, hend.reg,
        fun a ha => (hend.outside a ha).trans (hout a ha)⟩
      cases m with
      | zero => exact ⟨s, rfl, hbusy⟩
      | succ m =>
        rw [stepN_succ m _ _ hstep]
        exact hbefore m (by omega)

/-- The start of the run: nothing of the bitstream is written yet (R163). -/
theorem embedProgress_start (hi : Inv (startEmbed (latchCap s))) :
    EmbedProgress (regionBytes s.mem (pixRegion s.reg)) (regionBytes s.mem (payRegion s.reg))
      (startEmbed (latchCap s)) where
  inv := hi
  phase := rfl
  payload := rfl
  pixels := rfl
  byte hk := absurd rfl hk

/-- STATUS of an EMBED that has completed (R30). -/
theorem statusWord_of_completed_embed (hl : t.reg.lastOp = opcode .embed) (hd : t.reg.done = true)
    (hp : t.h.phase = .idle) :
    (statusWord t).toNat = 0x202 + 16 * (errBits t.reg.err).toNat := by
  have hop : (opcode .embed).toNat = 2 := rfl
  rw [statusWord_toNat, hl, hd, busy_eq_false.2 hp, hop, Bool.toNat_true, Bool.toNat_false]
  omega

section
variable {i : Instr} (hd : Dispatching i s)
include hd

/-- The next step is the command's arm (R119). -/
theorem Dispatching.step_eq : step s = exec i s := by
  have hdec : decode s.h.op = .instr i := decode_eq_instr.2 hd.op
  rw [step_of_no_inputs hd.alone, codecStep_of_dispatch hd.phase]
  simp only [dispatchStep, hdec]

theorem Dispatching.lastOp_eq (hi : Inv s) : s.reg.lastOp = opcode i := by
  obtain ⟨-, hop, -⟩ := wordShape i
  rw [hi.command.lastOp, hd.op, hop]

end

/-- Settles O21: the DISPATCH step, and where the payload fits the run after it. -/
theorem embedComputesEmbedF : Obligations.EmbedComputesEmbedF := by
  intro s hi hd hpre
  have hl := hd.lastOp_eq hi
  have hlen : 8 * ((regionBytes s.mem (payRegion s.reg)).length + 5) = framedBitCount s.reg := by
    rw [length_regionBytes]
    rfl
  by_cases hc : framedBitCount s.reg ≤ imageCapBits s
  · have hstep : step s = .next (startEmbed (latchCap s)) := hd.step_eq.trans (exec_embed_of_fits hc hpre.regions)
    have hprogress := embedProgress_start (invariantKeptByEveryStep _ _ hi hstep)
    obtain ⟨hbefore, t, hrun, ⟨px', he, hdone⟩, hreg, hout⟩ :=
      hprogress.run (hpre.congr rfl rfl) hd.alone (Nat.zero_add _).symm
    rw [show embedF s.cfg.marker s.reg.width.toNat s.reg.height.toNat _ _ = some px' from he]
    refine ⟨fun m hm => ?_, t, ?_, hdone, BitVec.eq_of_toNat_eq ?_, by rw [hreg]; rfl, by rw [hreg]; rfl,
      capacityLatched_of_capacityOf_eq (by rw [hreg]; rfl), hout⟩
    · cases m with
      | zero => exact ⟨s, rfl, by simp [hd.phase]⟩
      | succ m =>
        have hm' : m < framedBitCount s.reg := by
          unfold framedBitCount
          omega
        rw [stepN_succ m _ _ hstep]
        exact hbefore m hm'
    · rw [Nat.add_comm 1, stepN_succ _ _ _ hstep]
      exact hrun
    · rw [statusWord_of_completed_embed (by rw [hreg]; exact hl) hdone.done hdone.idle, hdone.err]
      rfl
  · rw [embedF_of_tooLarge (hlen ▸ Nat.lt_of_not_le hc)]
    have hstep := hd.step_eq.trans (exec_embed_of_tooLarge (Nat.lt_of_not_le hc))
    refine ⟨_, stepN_succ 0 _ _ hstep, rfl, rfl, rfl, BitVec.eq_of_toNat_eq ?_, rfl⟩
    exact statusWord_of_completed_embed (t := complete .payloadTooLarge (latchCap s)) hl rfl rfl

end Sys2Proof
end

-- EXTRACT's functional semantics
section
/-! `extractF` as bits, bytes and MARKER's first occurrence.  A decoded byte is its eight bits, MARKER's place is
told by the last five bytes up to its end, and a buffer that `embedF` wrote decodes to the framed payload first. -/

namespace Sys2Proof.Machine

/-! ## Bytes out of bits -/

/-- One bit more, taken after the others, is the new bit 0. -/
theorem sum_msbFirst_succ (f : Nat → Bool) (n : Nat) :
    ((List.range (n + 1)).map fun m => (f m).toNat * 2 ^ (n + 1 - 1 - m)).sum =
      Nat.bit (f n) ((List.range n).map fun m => (f m).toNat * 2 ^ (n - 1 - m)).sum := by
  have hshift (m : Nat) (hm : m ∈ List.range n) :
      (f m).toNat * 2 ^ (n + 1 - 1 - m) = 2 * ((f m).toNat * 2 ^ (n - 1 - m)) := by
    have hexp : n + 1 - 1 - m = n - 1 - m + 1 := by
      have hlt := List.mem_range.1 hm
      omega
    rw [hexp, Nat.pow_succ]
    ring
  rw [List.range_succ, List.map_append, List.sum_append, List.map_congr_left hshift, List.sum_map_mul_left, Nat.bit_val]
  simp

/-- The bits of a number put together most significant bit first (R13). -/
theorem testBit_sum_msbFirst (f : Nat → Bool) {n i : Nat} (hi : i < n) :
    ((List.range n).map fun m => (f m).toNat * 2 ^ (n - 1 - m)).sum.testBit i = f (n - 1 - i) := by
  induction n generalizing i with
  | zero => omega
  | succ n ih =>
    rw [sum_msbFirst_succ]
    cases i with
    | zero => exact Nat.testBit_bit_zero _ _
    | succ i =>
      rw [Nat.testBit_bit_succ, ih (by omega)]
      congr 1
      omega

/-- Bit `i` of a byte of `bytesOf` is the bit that stands `7 - i` after the byte's first (R13). -/
theorem getLsbD_byteOfBits (l : List Bool) (j : Nat) {i : Nat} (hi : i < 8) :
    (byteOfBits l j).getLsbD i = l.getD (8 * j + (7 - i)) false := by
  have hsum := testBit_sum_msbFirst (fun m => l.getD (8 * j + m) false) hi
  rw [Nat.add_one_sub_one] at hsum
  rw [byteOfBits, BitVec.getLsbD_ofNat, decide_eq_true hi, Bool.true_and, hsum]

theorem byteOfBits_eq {l : List Bool} {j : Nat} {b : Byte}
    (hbits : ∀ i, i < 8 → l.getD (8 * j + (7 - i)) false = b.getLsbD i) : byteOfBits l j = b :=
  BitVec.eq_of_getLsbD_eq fun i hi => (getLsbD_byteOfBits l j hi).trans (hbits i hi)

theorem length_bytesOf (l : List Bool) : (bytesOf l).length = l.length / 8 := by
  simp [bytesOf]

theorem getD_bytesOf (l : List Bool) {j : Nat} (hj : j < l.length / 8) : (bytesOf l).getD j 0 = byteOfBits l j := by
  rw [bytesOf, List.getD_eq_getElem?_getD, List.getElem?_map, List.getElem?_range hj]
  rfl

/-- A list whose bytes are another's first ones is what the other begins with. -/
theorem take_eq_of_getD {l d : List Byte} (hlen : l.length ≤ d.length)
    (h : ∀ j, j < l.length → d.getD j 0 = l.getD j 0) : d.take l.length = l := by
  refine List.ext_getElem (List.length_take_of_le hlen) fun j hj hj' => ?_
  have hbyte := h j hj'
  rwa [List.getD_eq_getElem _ _ (hj'.trans_le hlen), List.getD_eq_getElem _ _ hj', ← List.getElem_take] at hbyte

/-! ## The bits of a buffer -/

section
variable {w h : Nat} {px : List Byte}

theorem length_channelBits : (channelBits w h px).length = 3 * w * h := by
  simp [channelBits, capBits]

theorem getD_channelBits {k : Nat} (hk : k < 3 * w * h) :
    (channelBits w h px).getD k false = (px.getD (chanIndex k) 0).getLsbD 0 := by
  have hk' : k < capBits w h := hk
  rw [channelBits, List.getD_eq_getElem?_getD, List.getElem?_map, List.getElem?_range hk']
  rfl

/-! ## Where MARKER stands -/

variable {marker : Bytes5} {d : List Byte} {i : Nat}

theorem bytes5_length_toList (m : Bytes5) : m.toList.length = 5 := rfl

/-- MARKER stands at `i` exactly when it is the last five bytes of the first `i + 5`: what the detector compares. -/
theorem markerAt_iff : markerAt marker d i = true ↔ i + 5 ≤ d.length ∧ lastFive (d.take (i + 5)) = marker.toList := by
  simp only [markerAt, Bool.and_eq_true, decide_eq_true_eq, and_congr_right_iff]
  intro hlen
  have hdrop : i + 5 - 5 = i := Nat.add_sub_cancel i 5
  rw [lastFive, List.length_take_of_le hlen, hdrop, List.drop_take, Nat.add_sub_cancel_left]

/-- What follows the five bytes has no part in it. -/
theorem markerAt_append (e : List Byte) (hi : i + 5 ≤ d.length) : markerAt marker (d ++ e) i = markerAt marker d i := by
  have hlen : i + 5 ≤ (d ++ e).length := by rw [List.length_append]; omega
  rw [Bool.eq_iff_iff, markerAt_iff, markerAt_iff, List.take_append_of_le_length hi]
  simp only [hi, hlen]

theorem firstMarker_eq_some_iff :
    firstMarker marker d = some i ↔ markerAt marker d i = true ∧ ∀ j, j < i → markerAt marker d j = false := by
  rw [firstMarker, List.find?_range_eq_some]
  simp only [List.mem_range, Bool.not_eq_true']
  refine ⟨fun ⟨hat, _, hbefore⟩ => ⟨hat, hbefore⟩, fun ⟨hat, hbefore⟩ => ⟨hat, ?_, hbefore⟩⟩
  have hlen := (markerAt_iff.1 hat).1
  omega

theorem firstMarker_eq_none (hno : ∀ i, i + 5 ≤ d.length → markerAt marker d i = false) :
    firstMarker marker d = none := by
  refine List.find?_eq_none.2 fun i _ hat => ?_
  simp [hno i (markerAt_iff.1 hat).1] at hat

/-! ## extractF -/

theorem extractF_of_first (hf : firstMarker marker (bytesOf (channelBits w h px)) = some i) :
    extractF marker w h px = some ((bytesOf (channelBits w h px)).take i) := by
  simp only [extractF, hf, Option.map_some]

theorem extractF_of_none (hf : firstMarker marker (bytesOf (channelBits w h px)) = none) :
    extractF marker w h px = none := by
  simp only [extractF, hf, Option.map_none]

theorem length_bytesOf_channelBits : (bytesOf (channelBits w h px)).length = 3 * w * h / 8 := by
  rw [length_bytesOf, length_channelBits]

end

/-! ## What EMBED wrote -/

section
variable {marker : Bytes5} {w h : Nat} {px p px' : List Byte} (hlen : px.length = 4 * (w * h))
  (he : embedF marker w h px p = some px')
include hlen he

/-- The channels of an embedded buffer hold the bitstream. -/
theorem getD_channelBits_embedF {k : Nat} (hk : k < 8 * (p.length + 5)) :
    (channelBits w h px').getD k false = ((p ++ marker.toList).getD (k / 8) 0).getLsbD (7 - k % 8) := by
  obtain ⟨hc, rfl⟩ := embedF_eq_some he
  have hchan : chanIndex k < px.length := hlen ▸ (chanIndex_lt (hk.trans_le hc)).1
  obtain ⟨halpha, hbit⟩ := eq_chanIndex_iff.1 (rfl : chanIndex k = chanIndex k)
  rw [getD_channelBits (hk.trans_le hc), List.getD_eq_getElem?_getD, List.getElem?_mapIdx,
    List.getElem?_eq_getElem hchan, Option.map_some, Option.getD_some, embeddedByte, hbit, if_pos ⟨halpha, hk⟩,
    getLsbD_withBit _ _ (by decide), if_pos rfl, getD_framedStream marker p hk]

/-- The bytes decoded from an embedded buffer begin with the framed payload. -/
theorem bytesOf_channelBits_embedF : ∃ rest, bytesOf (channelBits w h px') = p ++ marker.toList ++ rest := by
  have hframed : (p ++ marker.toList).length = p.length + 5 := by rw [List.length_append, bytes5_length_toList]
  have hc : p.length + 5 ≤ 3 * w * h / 8 := (bitsAndBytesAgree _ w h).1 (embedF_eq_some he).1
  have htake : (bytesOf (channelBits w h px')).take (p ++ marker.toList).length = p ++ marker.toList := by
    refine take_eq_of_getD (by rwa [hframed, length_bytesOf_channelBits]) fun j hj => ?_
    rw [hframed] at hj
    rw [getD_bytesOf _ (by rw [length_channelBits]; omega)]
    refine byteOfBits_eq fun i hi => ?_
    have hbyte : (8 * j + (7 - i)) / 8 = j := by omega
    have hbit : 7 - (8 * j + (7 - i)) % 8 = i := by omega
    rw [getD_channelBits_embedF hlen he (by omega), hbyte, hbit]
  exact ⟨_, (htake ▸ List.take_append_drop _ _).symm⟩

/-- `extractF` of an embedded buffer is the payload up to where MARKER first stands in the framed payload. -/
theorem extractF_embedF {i : Nat} (hi : i ≤ p.length) (hat : markerAt marker (p ++ marker.toList) i = true)
    (hbefore : ∀ j, j < i → markerAt marker (p ++ marker.toList) j = false) :
    extractF marker w h px' = some (p.take i) := by
  obtain ⟨rest, hd⟩ := bytesOf_channelBits_embedF hlen he
  have hsame (j : Nat) (hj : j ≤ i) :
      markerAt marker (bytesOf (channelBits w h px')) j = markerAt marker (p ++ marker.toList) j := by
    rw [hd]
    exact markerAt_append rest (by rw [List.length_append, bytes5_length_toList]; omega)
  rw [extractF_of_first (firstMarker_eq_some_iff.2
    ⟨(hsame i le_rfl).trans hat, fun j hj => (hsame j hj.le).trans (hbefore j hj)⟩), hd, List.append_assoc,
    List.take_append_of_le_length hi]

end

/-- MARKER stands at the end of a framed payload. -/
theorem markerAt_length_append (marker : Bytes5) (p : List Byte) :
    markerAt marker (p ++ marker.toList) p.length = true := by
  simp [markerAt, Bytes5.toList]

/-- Settles O32: the buffer decodes to the framed payload first, and MARKER's first occurrence lies below its end. -/
theorem markerCollisionTruncates : Obligations.MarkerCollisionTruncates := by
  intro marker w h px p px' i hlen he hi hat hbefore
  refine ⟨extractF_embedF hlen he hi.le hat hbefore, ?_⟩
  rw [List.length_take_of_le hi.le]
  exact hi

/-! ## Buffers on which extraction always fails -/

section
variable {marker : Bytes5} {w h : Nat} {px : List Byte}

theorem extractF_of_short (hshort : 3 * w * h < 40) : extractF marker w h px = none := by
  refine extractF_of_none (firstMarker_eq_none fun i hi => ?_)
  rw [length_bytesOf_channelBits] at hi
  omega

/-- A buffer all of whose bits are alike decodes to one byte repeated, which only a marker of that byte is in. -/
theorem extractF_of_constant {bit : Bool} {b : Byte} (hb : ∀ i, i < 8 → b.getLsbD i = bit)
    (hpx : ∀ k, k < 3 * w * h → (px.getD (chanIndex k) 0).getLsbD 0 = bit)
    (hmarker : marker.toList ≠ List.replicate 5 b) : extractF marker w h px = none := by
  have hbytes : bytesOf (channelBits w h px) = List.replicate (3 * w * h / 8) b := by
    refine List.eq_replicate_iff.2 ⟨length_bytesOf_channelBits, fun c hc => ?_⟩
    obtain ⟨j, hj, rfl⟩ := List.mem_map.1 hc
    rw [List.mem_range, length_channelBits] at hj
    refine byteOfBits_eq fun i hi => ?_
    have hk : 8 * j + (7 - i) < 3 * w * h := by omega
    rw [getD_channelBits hk, hpx _ hk, hb i hi]
  refine extractF_of_none (firstMarker_eq_none fun i hi => Bool.eq_false_iff.2 fun hat => hmarker ?_)
  rw [hbytes] at hi hat
  obtain ⟨-, hlast⟩ := markerAt_iff.1 hat
  rw [← hlast, lastFive, List.length_take_of_le hi, List.take_replicate, List.drop_replicate]
  rw [List.length_replicate] at hi
  congr 1
  omega

end

/-- Settles O33: too few bytes for MARKER, or one byte repeated. -/
theorem extractionGuaranteedFailures : Obligations.ExtractionGuaranteedFailures := by
  refine fun marker w h px => ⟨extractF_of_short, extractF_of_constant ?_, extractF_of_constant ?_⟩
  · simp
  · decide

end Sys2Proof.Machine
end

-- EXTRACT's steps
section
/-! EXTRACT's steps field by field: DISPATCH, the scan step as a bit read and a byte completed, with the marker window
as the list of the last five bytes, and the copy step. -/

namespace Sys2Proof

open Machine

variable {s t : State}

/-! ## DISPATCH -/

theorem exec_extract_of_empty (hc : imageCapBits s = 0) :
    exec .extract s = .next (complete .noPayloadFound (initExtract s)) :=
  if_pos hc

theorem exec_extract_of_pixels (hc : imageCapBits s ≠ 0) (hr : extractProblem s.cfg s.reg = none) :
    exec .extract s = .next (startScan s) := by
  simp only [exec, execExtract, if_neg hc, hr]

/-- Settles O25, by the two ends of the DISPATCH step. -/
theorem extractDispatch : Obligations.ExtractDispatch := by
  intro s hcase
  by_cases hc : imageCapBits s = 0
  · exact ⟨_, exec_extract_of_empty hc, capacityLatched_of_capacityOf_eq rfl, rfl, rfl, fun _ => ⟨rfl, rfl, rfl⟩,
      fun hne => absurd hc hne⟩
  · exact ⟨_, exec_extract_of_pixels hc (hcase.resolve_left hc), capacityLatched_of_capacityOf_eq rfl, rfl, rfl,
      fun hzero => absurd hzero hc, fun _ => ⟨rfl, rfl, rfl⟩⟩

/-! ## The marker window as a list -/

theorem length_windowBytes (hw : s.h.wcnt ≤ 5) : (windowBytes s).length = s.h.wcnt := by
  rw [windowBytes, List.length_take_of_le (by rwa [bytes5_length_toList])]

/-- The window is MARKER's five bytes exactly when it is full and equal to MARKER: the detector's comparison (R196). -/
theorem windowBytes_eq_marker_iff {marker : Bytes5} (hw : s.h.wcnt ≤ 5) :
    windowBytes s = marker.toList ↔ s.h.wcnt = 5 ∧ s.h.win = marker := by
  refine ⟨fun h => ?_, fun ⟨h5, hwin⟩ => by rw [windowBytes, h5, hwin]; rfl⟩
  have h5 : s.h.wcnt = 5 := by rw [← length_windowBytes hw, h, bytes5_length_toList]
  rw [windowBytes, h5] at h
  exact ⟨h5, by cases hwin : s.h.win; cases marker; simpa [Bytes5.toList, hwin] using h⟩

/-- A byte that enters the window enters at its end, and pushes the oldest out of a full one (R196). -/
theorem windowBytes_detectMarker (b : Byte) (hw : s.h.wcnt ≤ 5) :
    windowBytes (detectMarker b s) = lastFive (windowBytes s ++ [b]) := by
  by_cases h5 : s.h.wcnt = 5
  · obtain ⟨hc, hwin⟩ := detectMarker_full b h5
    simp only [windowBytes, hc, hwin, h5]
    rfl
  · obtain ⟨hc, hwin⟩ := detectMarker_filling b h5
    simp only [windowBytes, hc, hwin]
    match hn : s.h.wcnt with
    | 0 | 1 | 2 | 3 | 4 => rfl
    | n + 5 => omega

/-! ## One EXT_SCAN step -/

/-- Where its access is admitted, the codec alone takes the step. -/
theorem step_of_extScan (hp : s.h.phase = .extScan) (halone : pending s = []) (ha : accessesAdmitted s) :
    step s = endScan (completeByte (readBit s)) := by
  rw [step_of_no_inputs halone, codecStep_of_admitted ha]
  simp only [runEffect, hp]

/-- Byte completion changes nothing but the scan's part of the hidden state. -/
theorem completeByte_eq (s : State) :
    completeByte s = { s with h := { s.h with
      nbytes := (completeByte s).h.nbytes, win := (completeByte s).h.win, wcnt := (completeByte s).h.wcnt
      found := (completeByte s).h.found, idx := (completeByte s).h.idx } } := by
  unfold completeByte detectMarker latchMatch enterWindow
  split_ifs <;> rfl

/-- What the detector makes of a byte while nothing is latched: MARKER's place, or nothing (R196). -/
theorem detectMarker_effect (b : Byte) (hw : s.h.wcnt ≤ 5) (hn : s.h.wcnt + 1 ≤ s.h.nbytes) (hf : s.h.found = false) :
    (windowBytes (detectMarker b s) = s.cfg.marker.toList →
      (detectMarker b s).h.found = true ∧ (detectMarker b s).h.idx + 5 = (detectMarker b s).h.nbytes) ∧
    (windowBytes (detectMarker b s) ≠ s.cfg.marker.toList →
      (detectMarker b s).h.found = false ∧ (detectMarker b s).h.idx = s.h.idx) := by
  have hcnt := detectMarker_wcnt b hw
  have hbytes : (detectMarker b s).h.nbytes = s.h.nbytes := by rw [detectMarker_h]
  rw [ne_eq, windowBytes_eq_marker_iff (by omega)]
  refine ⟨fun ⟨h5, hwin⟩ => ?_, fun hno => ?_⟩
  · obtain ⟨hfound, hidx⟩ := detectMarker_match h5 hwin
    exact ⟨hfound, by omega⟩
  · obtain ⟨hfound, hidx⟩ := detectMarker_noMatch hno
    exact ⟨hfound.trans hf, hidx⟩

/-- A scan step is its bit, and what byte completion makes of it (R194 to R196). -/
theorem scanStepEffect_completeByte (hi : Inv s) : scanStepEffect s (completeByte (readBit s)) (readBit s).h.sr := by
  have hw : s.h.wcnt ≤ 5 := hi.phase.window
  refine ⟨fun hk => ?_, fun hk => ?_, fun hk hf => ?_, fun hk hf => ?_⟩
  · rw [completeByte_of_no_boundary (s := readBit s) hk]
    exact ⟨rfl, rfl, rfl, rfl, rfl⟩
  · exact completeByte_nbytes_of_boundary (s := readBit s) hk
  · obtain ⟨hwin, hcnt, hfound, hidx⟩ := completeByte_of_no_detect (s := readBit s) (.inr hf)
    exact ⟨hfound.trans hf, by rw [windowBytes, hwin, hcnt]; rfl, hcnt, hidx⟩
  · rw [completeByte_of_detect (s := readBit s) hk hf]
    exact ⟨windowBytes_detectMarker (s := countByte (readBit s)) _ hw,
      detectMarker_wcnt (s := countByte (readBit s)) _ hw,
      detectMarker_effect (s := countByte (readBit s)) _ hw (Nat.succ_le_succ hi.counter.wcnt) hf⟩

/-- Settles O26: the step is its bit and byte completion, and goes on. -/
theorem extractScanStep : Obligations.ExtractScanStep := by
  intro s hi hp halone ha hk
  refine ⟨codecAccesses_of_extScan hp, completeByte (readBit s), ?_, by rw [completeByte_sr]; rfl, by simp, ?_, ?_⟩
  · rw [step_of_extScan hp halone ha]
    exact endScan_of_scanEnd (.goesOn (by simpa using hk))
  · rw [completeByte_sr]
    exact scanStepEffect_completeByte hi
  · rw [completeByte_sr, completeByte_k]
    exact completeByte_eq (readBit s)

/-- Settles O27: the step is its bit and byte completion, and then one of the three ends of a scan. -/
theorem extractScanEnds : Obligations.ExtractScanEnds := by
  intro s hi hp halone ha hk
  have hstep := step_of_extScan hp halone ha
  have hend : (completeByte (readBit s)).h.k = (completeByte (readBit s)).h.scanBits := by simpa using hk
  refine ⟨codecAccesses_of_extScan hp, completeByte (readBit s), by simp, by rw [completeByte_sr]; rfl, ?_, ?_,
    fun hf => ⟨?_, ?_⟩, fun hf hidx => ?_, fun hf hidx ho => ?_⟩
  · rw [completeByte_sr]
    exact scanStepEffect_completeByte hi
  · rw [completeByte_sr, completeByte_k]
    exact completeByte_eq (readBit s)
  · simpa using hi.counter.outLenZero (.inl hp)
  · exact hstep.trans (endScan_of_scanEnd (.absent hend hf))
  · exact hstep.trans (endScan_of_scanEnd (.empty hend hf hidx))
  · exact hstep.trans (endScan_of_scanEnd (.copies hend hf hidx (by simpa using ho)))

/-! ## One EXT_COPY step -/

/-- Where its accesses are admitted, the codec alone takes the step. -/
theorem step_of_extCopy (hp : s.h.phase = .extCopy) (halone : pending s = []) (ha : accessesAdmitted s) :
    step s = .next (endCopy (writeOutput (readBit s))) := by
  rw [step_of_no_inputs halone, codecStep_of_admitted ha]
  simp only [runEffect, hp]

theorem endCopy_h (s : State) : (endCopy s).h = { s.h with phase := (endCopy s).h.phase } := by
  have hend := endCopy_cases s
  generalize endCopy s = t at hend
  cases hend <;> rfl

theorem endCopy_of_last (hk : s.h.k = 8 * s.h.idx) : endCopy s = complete .none (setOutLen s.h.idx s) :=
  if_pos hk

theorem endCopy_of_not_last (hk : s.h.k ≠ 8 * s.h.idx) : endCopy s = s :=
  if_neg hk

/-- The accesses of the step (R76, R202). -/
theorem copyAccesses_eq (s : State) :
    copyAccesses s =
      { kind := .read, addr := chanAddr s.reg s.h.k } ::
        (if (s.h.k + 1) % 8 = 0 then [{ kind := .write, addr := outAddr s.reg ((s.h.k + 1) / 8 - 1) }] else []) := by
  simp only [copyAccesses, copyWrites, decide_eq_true_eq]

/-- The memory that the step leaves (R202). -/
theorem writeOutput_readBit_mem (s : State) :
    (writeOutput (readBit s)).mem =
      if (s.h.k + 1) % 8 = 0 then memWrite s.mem (outAddr s.reg ((s.h.k + 1) / 8 - 1)) (readBit s).h.sr else s.mem := by
  rw [writeOutput_readBit_eq]
  simp only [copyWrites, decide_eq_true_eq]

/-- OUT_LEN holds any index that the scan can latch (R37, R50). -/
theorem CounterInv.toNat_idx (hi : CounterInv s) : (BitVec.ofNat 32 s.h.idx).toNat = s.h.idx := by
  have hle := hi.copyBits_le
  have hlt := hi.scanBits
  rw [BitVec.toNat_ofNat, Nat.mod_eq_of_lt (by omega)]

/-- Settles O28, by the step's parts: bit reader, output write, and the two ways that it can end. -/
theorem extractCopyStep : Obligations.ExtractCopyStep := by
  intro s hi hp halone ha
  have hh := endCopy_h (writeOutput (readBit s))
  have hsr : (endCopy (writeOutput (readBit s))).h.sr = (readBit s).h.sr := by rw [hh, writeOutput_h]
  have hk : (endCopy (writeOutput (readBit s))).h.k = s.h.k + 1 := by rw [hh, writeOutput_h]; rfl
  have hmem := (endCopy_mem (writeOutput (readBit s))).trans (writeOutput_readBit_mem s)
  refine ⟨_, step_of_extCopy hp halone ha, hk, by rw [hsr]; rfl, ?_, fun hbyte => ?_, fun hbyte => ?_, fun hlast => ?_,
    fun hlast => ?_, ?_, by simp, by simp, by simp⟩
  · rw [codecAccesses_of_extCopy hp, hk]
    exact copyAccesses_eq s
  · rw [hmem, if_neg (hk ▸ hbyte)]
  · rw [hk] at hbyte ⊢
    rintro a rfl
    rw [hmem, if_pos hbyte, hsr]
    exact ⟨memRead_memWrite_same hi.mem _ _, fun b hb => memRead_memWrite_other _ _ hb⟩
  · rw [endCopy_of_last (by simpa [hk] using hlast)]
    exact ⟨rfl, by simp, by simpa using hi.counter.toNat_idx⟩
  · rw [endCopy_of_not_last (by simpa [hk] using hlast)]
    exact ⟨by simpa using hp, by simp⟩
  · rw [hsr, hk]
    simpa using hh

end Sys2Proof
end

-- EXTRACT under every schedule
section
/-! A scan step is a bit of the decoded bytes and a comparison with MARKER; a copy step is a bit of the payload.  The
steps of the codec keep EXTRACT's progress or end it with `extractF` of the buffer, and no other step disturbs it. -/

namespace Sys2Proof

open Machine

variable {s t : State} {px : List Byte}

/-! ## What a buffer decodes to -/

/-- What EXTRACT returns from a pixel buffer with the contents `px` (R190). -/
def payloadOf (px : List Byte) (s : State) : Option (List Byte) :=
  extractF s.cfg.marker s.reg.width.toNat s.reg.height.toNat px

section
variable (hr : operandsOf t.reg = operandsOf s.reg)
include hr

theorem dimensions_congr : t.reg.width = s.reg.width ∧ t.reg.height = s.reg.height := by
  simp only [operandsOf, Prod.mk.injEq] at hr
  obtain ⟨hw, hh, -⟩ := hr
  exact ⟨hw, hh⟩

theorem scanBitsOf_congr (px : List Byte) : scanBitsOf px t = scanBitsOf px s := by
  obtain ⟨hw, hh⟩ := dimensions_congr hr
  rw [scanBitsOf, scanBitsOf, hw, hh]

theorem scanBytesOf_congr (px : List Byte) : scanBytesOf px t = scanBytesOf px s := by
  rw [scanBytesOf, scanBytesOf, scanBitsOf_congr hr]

theorem payloadOf_congr (hc : t.cfg = s.cfg) (px : List Byte) : payloadOf px t = payloadOf px s := by
  obtain ⟨hw, hh⟩ := dimensions_congr hr
  rw [payloadOf, payloadOf, hw, hh, hc]

theorem shiftHolds_congr (hk : t.h.k = s.h.k) (hsr : t.h.sr = s.h.sr) (hs : shiftHolds px s) : shiftHolds px t := by
  rw [shiftHolds, scanBitsOf_congr hr, hk, hsr]
  exact hs

end

theorem length_scanBytesOf (px : List Byte) (s : State) :
    (scanBytesOf px s).length = 3 * s.reg.width.toNat * s.reg.height.toNat / 8 :=
  length_bytesOf_channelBits

theorem payloadOf_of_first {i : Nat} (hf : firstMarker s.cfg.marker (scanBytesOf px s) = some i) :
    payloadOf px s = some ((scanBytesOf px s).take i) :=
  extractF_of_first hf

theorem payloadOf_of_none (hf : firstMarker s.cfg.marker (scanBytesOf px s) = none) : payloadOf px s = none :=
  extractF_of_none hf

/-- The payload ends where MARKER begins (R190). -/
theorem length_take_of_first {marker : Bytes5} {d : List Byte} {i : Nat} (hf : firstMarker marker d = some i) :
    (d.take i).length = i := by
  have hlen := (markerAt_iff.1 (firstMarker_eq_some_iff.1 hf).1).1
  exact List.length_take_of_le (by omega)

/-! ## The bit reader -/

theorem getLsbD_shiftInLsb (sr v : Byte) {m : Nat} (hm : m < 8) :
    (shiftInLsb sr v).getLsbD m = if m = 0 then v.getLsbD 0 else sr.getLsbD (m - 1) := by
  rw [shiftInLsb, lsb, BitVec.getLsbD_or, BitVec.getLsbD_shiftLeft, show (0x01 : Byte) = 1#8 from rfl,
    BitVec.and_one_eq_setWidth_ofBool_getLsbD]
  by_cases h0 : m = 0
  · subst h0
    simp
  · simp [h0, hm, show ¬m < 1 by omega]

/-- EXTRACT is about to read channel `h.k` of an image with the contents `px`, with the bits of the byte under way in
`h.sr`. -/
structure Reading (px : List Byte) (s : State) : Prop where
  k_lt : s.h.k < 3 * s.reg.width.toNat * s.reg.height.toNat
  pixels : regionBytes s.mem (pixRegion s.reg) = px
  shift : shiftHolds px s

namespace Reading

variable (hs : Reading px s)
include hs

/-- The bit read is the channel's (R192). -/
theorem channel_lsb : (memRead s.mem (chanAddr s.reg s.h.k)).getLsbD 0 = (scanBitsOf px s).getD s.h.k false := by
  rw [scanBitsOf, getD_channelBits hs.k_lt, ← hs.pixels, getD_regionBytes s.mem (chanIndex_lt hs.k_lt).1]
  rfl

/-- The shift register after the bit is read: the byte's bits so far, the new one in bit 0 (R194, R202). -/
theorem readBit_sr {m : Nat} (hm : m ≤ s.h.k % 8) :
    (readBit s).h.sr.getLsbD m = (scanBitsOf px s).getD (s.h.k - m) false := by
  show (shiftInLsb _ _).getLsbD m = _
  rw [getLsbD_shiftInLsb _ _ (by omega)]
  by_cases h0 : m = 0
  · rw [if_pos h0, hs.channel_lsb, h0, Nat.sub_zero]
  · rw [if_neg h0, hs.shift _ (by omega)]
    congr 1
    omega

theorem shiftHolds_readBit : shiftHolds px (readBit s) := by
  intro m hm
  have hm' : m < (s.h.k + 1) % 8 := hm
  exact hs.readBit_sr (by omega)

/-- At a byte boundary the shift register is the decoded byte (R13, R195, R202). -/
theorem readBit_sr_of_boundary (hk : (s.h.k + 1) % 8 = 0) :
    (readBit s).h.sr = (scanBytesOf px s).getD (s.h.k / 8) 0 := by
  have hlt := hs.k_lt
  rw [scanBytesOf, getD_bytesOf _ (by rw [scanBitsOf, length_channelBits]; omega)]
  refine (byteOfBits_eq fun i hi => ?_).symm
  rw [hs.readBit_sr (by omega)]
  congr 1
  omega

end Reading

/-! ## The marker detector over the scan -/

/-- What the detector has made of the bytes decoded so far: the clauses of `ScanProgress` that outlast the scan. -/
structure Scanned (px : List Byte) (s : State) : Prop where
  found : s.h.found = true → firstMarker s.cfg.marker (scanBytesOf px s) = some s.h.idx
  notFound : s.h.found = false → ∀ i, i + 5 ≤ s.h.nbytes → markerAt s.cfg.marker (scanBytesOf px s) i = false
  window : s.h.found = false → windowBytes s = lastFive ((scanBytesOf px s).take s.h.nbytes)

/-- The last five bytes of a list are those of its own last five and what follows. -/
theorem lastFive_lastFive_append (l : List Byte) (b : Byte) : lastFive (lastFive l ++ [b]) = lastFive (l ++ [b]) := by
  rw [lastFive, lastFive, lastFive, ← List.drop_append_of_le_length (Nat.sub_le _ _), List.drop_drop, List.length_drop,
    List.length_append, List.length_singleton]
  congr 1
  omega

/-- One byte more keeps it so: MARKER ends at the new byte exactly when the detector says so. -/
theorem Scanned.next {sr : Byte} (hs : Scanned px s) (he : scanStepEffect s t sr)
    (hbyte : (s.h.k + 1) % 8 = 0 → (scanBytesOf px s)[s.h.nbytes]? = some sr)
    (hr : operandsOf t.reg = operandsOf s.reg) (hc : t.cfg = s.cfg) : Scanned px t := by
  obtain ⟨hbetween, hcount, hlatched, hdetect⟩ := he
  by_cases hk : (s.h.k + 1) % 8 = 0
  · have hn := hcount hk
    cases hf : s.h.found with
    | true =>
      obtain ⟨hf', -, -, hidx⟩ := hlatched hk hf
      refine ⟨fun _ => ?_, by simp [hf'], by simp [hf']⟩
      rw [hc, scanBytesOf_congr hr, hidx]
      exact hs.found hf
    | false =>
      obtain ⟨hwin, -, hmatch, hno⟩ := hdetect hk hf
      obtain ⟨hlen, hget⟩ := List.getElem?_eq_some_iff.1 (hbyte hk)
      have hwin' : windowBytes t = lastFive ((scanBytesOf px s).take (s.h.nbytes + 1)) := by
        rw [hwin, hs.window hf, lastFive_lastFive_append, List.take_add_one, hbyte hk]
        rfl
      have hat (i : Nat) (hi : i + 5 = s.h.nbytes + 1) :
          markerAt s.cfg.marker (scanBytesOf px s) i = true ↔ windowBytes t = s.cfg.marker.toList := by
        rw [markerAt_iff, hwin', hi]
        exact and_iff_right hlen
      rw [← hc] at hmatch hno hat
      by_cases hm : windowBytes t = t.cfg.marker.toList
      · obtain ⟨hf', hidx⟩ := hmatch hm
        refine ⟨fun _ => ?_, by simp [hf'], by simp [hf']⟩
        rw [scanBytesOf_congr hr, firstMarker_eq_some_iff]
        refine ⟨(hat _ (hidx.trans hn)).2 hm, fun j hj => ?_⟩
        rw [hc]
        exact hs.notFound hf j (by omega)
      · obtain ⟨hf', -⟩ := hno hm
        refine ⟨by simp [hf'], fun _ i hi => ?_, fun _ => by rw [hwin', hn, scanBytesOf_congr hr]⟩
        rw [scanBytesOf_congr hr]
        by_cases hi' : i + 5 ≤ s.h.nbytes
        · rw [hc]
          exact hs.notFound hf i hi'
        · exact Bool.eq_false_iff.2 fun h => hm ((hat i (by omega)).1 h)
  · obtain ⟨hn, hwin, -, hf, hidx⟩ := hbetween hk
    refine ⟨?_, ?_, ?_⟩
    · rw [hf, hc, scanBytesOf_congr hr, hidx]
      exact hs.found
    · rw [hf, hc, scanBytesOf_congr hr, hn]
      exact hs.notFound
    · rw [hf, hwin, scanBytesOf_congr hr, hn]
      exact hs.window

/-- Once all bytes are decoded, MARKER that was not found is not there (R190, R199). -/
theorem Scanned.first_eq_none (hs : Scanned px s) (hf : s.h.found = false)
    (hn : s.h.nbytes = (scanBytesOf px s).length) : firstMarker s.cfg.marker (scanBytesOf px s) = none :=
  firstMarker_eq_none fun i hi => hs.notFound hf i (hn ▸ hi)


/-! ## The scan -/

theorem ScanProgress.reading (hs : ScanProgress px s) : Reading px s :=
  ⟨k_lt_channels hs.inv (.inr (.inl hs.phase)), hs.pixels, hs.shift⟩

theorem ScanProgress.scanned (hs : ScanProgress px s) : Scanned px s :=
  ⟨hs.found, hs.notFound, hs.window⟩

/-- The step's byte, if it completes one, goes through the detector. -/
theorem ScanProgress.scanned_next (hs : ScanProgress px s) : Scanned px (completeByte (readBit s)) := by
  refine hs.scanned.next (scanStepEffect_completeByte hs.inv) (fun hk => ?_) (by simp) (by simp)
  obtain ⟨-, -, hn⟩ := hs.inv.command.extScan hs.phase
  have hlen : s.h.k / 8 < (scanBytesOf px s).length := by
    rw [length_scanBytesOf]
    have hlt := hs.reading.k_lt
    omega
  rw [hn, hs.reading.readBit_sr_of_boundary hk, List.getD_eq_getElem _ _ hlen, List.getElem?_eq_getElem hlen]

/-- A scan step that is not the last. -/
theorem ScanProgress.goesOn (hs : ScanProgress px s) (hi : Inv (completeByte (readBit s))) :
    ScanProgress px (completeByte (readBit s)) where
  inv := hi
  phase := by simpa using hs.phase
  pixels := by simpa using hs.pixels
  shift := shiftHolds_congr (s := readBit s) (by simp) (by simp) (by simp) hs.reading.shiftHolds_readBit
  found := hs.scanned_next.found
  notFound := hs.scanned_next.notFound
  window := hs.scanned_next.window

section
variable (hs : ScanProgress px s)
include hs

/-- MARKER's place, once the detector has latched it. -/
theorem ScanProgress.first_of_found (hf : (completeByte (readBit s)).h.found = true) :
    firstMarker s.cfg.marker (scanBytesOf px s) = some (completeByte (readBit s)).h.idx := by
  have hfound := hs.scanned_next.found hf
  rwa [scanBytesOf_congr (s := s) (by simp), completeByte_cfg] at hfound

/-- At the end of a scan that latched nothing, MARKER is nowhere (R199). -/
theorem ScanProgress.first_of_absent (hk : s.h.k + 1 = s.h.scanBits) (hf : (completeByte (readBit s)).h.found = false) :
    firstMarker s.cfg.marker (scanBytesOf px s) = none := by
  obtain ⟨-, hscan, hn⟩ := hs.inv.command.extScan hs.phase
  have hnone := hs.scanned_next.first_eq_none hf (by
    rw [nbytes_completeByte_readBit hn, hk, hscan, length_scanBytesOf]
    simp)
  rwa [scanBytesOf_congr (s := s) (by simp), completeByte_cfg] at hnone

theorem ScanProgress.outLen_completeByte : (completeByte (readBit s)).reg.outLen = 0 := by
  simpa using hs.inv.counter.outLenZero (.inl hs.phase)

/-- The scan ends without a payload (R199). -/
theorem ScanProgress.absent (hk : s.h.k + 1 = s.h.scanBits) (hf : (completeByte (readBit s)).h.found = false) :
    ExtractDone (payloadOf px s) (complete .noPayloadFound (completeByte (readBit s))) := by
  rw [payloadOf_of_none (hs.first_of_absent hk hf)]
  exact
    { idle := rfl
      done := rfl
      err := rfl
      outLen := congrArg BitVec.toNat hs.outLen_completeByte
      output := by simp }

/-- The scan ends with the empty payload (R200). -/
theorem ScanProgress.empty (hf : (completeByte (readBit s)).h.found = true)
    (hi : (completeByte (readBit s)).h.idx = 0) :
    ExtractDone (payloadOf px s) (complete .none (setOutLen 0 (completeByte (readBit s)))) := by
  rw [payloadOf_of_first (hs.first_of_found hf), hi, List.take_zero]
  exact
    { idle := rfl
      done := rfl
      err := rfl
      outLen := rfl
      output := by rintro d ⟨⟩; rfl }

/-- The scan ends and the copy starts (R201). -/
theorem ScanProgress.copies (hf : (completeByte (readBit s)).h.found = true)
    (hi : Inv (startCopy (completeByte (readBit s)))) : CopyProgress px (startCopy (completeByte (readBit s))) where
  inv := hi
  phase := rfl
  pixels := by simpa using hs.pixels
  shift := fun m hm => absurd hm (Nat.not_lt_zero m)
  first := hs.scanned_next.found hf
  output := fun j hj => absurd hj (by simp)

end

/-! ## The copy -/

namespace CopyProgress

variable (hs : CopyProgress px s)
include hs

theorem reading : Reading px s :=
  ⟨k_lt_channels hs.inv (.inr (.inr hs.phase)), hs.pixels, hs.shift⟩

theorem idx_lt : s.h.idx < 2 ^ 32 := by
  have hle := hs.inv.counter.copyBits_le
  have hlt := hs.inv.counter.scanBits
  omega

/-- An output byte is no pixel byte (R75). -/
theorem pixRegion_of_output {a : Word} (ha : (outRegion s.reg).contains a = true) :
    (pixRegion s.reg).contains a = false := by
  obtain ⟨-, hdisjoint, -⟩ := extractProblem_none_iff.1 (hs.inv.ownership.extract (.inr hs.phase))
  exact Bool.eq_false_iff.2 fun hb => hdisjoint a ⟨hb, ha⟩

/-- The output bytes written so far are in the region that the command owns for them (R74). -/
theorem output_owned {j : Nat} (hj : j < s.h.k / 8) :
    (outRegion s.reg).contains (s.reg.outBase + BitVec.ofNat 32 j) = true := by
  obtain ⟨-, hscan, hfound⟩ := hs.inv.command.extCopy hs.phase
  have hlt := hs.inv.phase.extCopy hs.phase
  have hidx := (hs.inv.counter.found hfound).1
  have hbytes := hs.inv.counter.nbytes
  rw [Nat.mul_assoc] at hscan
  have hlen : j < 3 * (s.reg.width.toNat * s.reg.height.toNat) / 8 - 5 := by omega
  exact Region.contains_offset (outRegion s.reg) hlen

theorem pixels_writeOutput : regionBytes (writeOutput (readBit s)).mem (pixRegion s.reg) = px := by
  rw [writeOutput_readBit_mem, ← hs.pixels]
  split_ifs with hk
  · exact regionBytes_memWrite_outside (hs.pixRegion_of_output (outAddr_in_output hs.inv hs.phase hk).2) _
  · rfl

/-- The step adds the payload's next byte to the output, if it completes one (R202). -/
theorem output_writeOutput {j : Nat} (hj : j < (s.h.k + 1) / 8) :
    memRead (writeOutput (readBit s)).mem (s.reg.outBase + BitVec.ofNat 32 j) = (scanBytesOf px s).getD j 0 := by
  have hlt := hs.inv.phase.extCopy hs.phase
  have hidx := hs.idx_lt
  rw [writeOutput_readBit_mem]
  split_ifs with hk
  · have hlast : (s.h.k + 1) / 8 - 1 = s.h.k / 8 := by omega
    rw [hlast]
    by_cases hnew : j = s.h.k / 8
    · rw [hnew, ← hs.reading.readBit_sr_of_boundary hk]
      exact memRead_memWrite_same hs.inv.mem _ _
    · have hne : s.reg.outBase + BitVec.ofNat 32 j ≠ outAddr s.reg (s.h.k / 8) := fun h =>
        hnew ((base_add_ofNat_inj (by omega) (by omega)).1 h)
      rw [memRead_memWrite_other _ _ hne]
      exact hs.output j (by omega)
  · exact hs.output j (by omega)

/-- A copy step that is not the last. -/
theorem goesOn (hi : Inv (writeOutput (readBit s))) : CopyProgress px (writeOutput (readBit s)) where
  inv := hi
  phase := by simpa using hs.phase
  pixels := by simpa using hs.pixels_writeOutput
  shift := shiftHolds_congr (s := readBit s) (by simp) (by simp) (by simp) hs.reading.shiftHolds_readBit
  first := by
    rw [scanBytesOf_congr (s := s) (by simp)]
    simpa using hs.first
  output j hj := by
    rw [scanBytesOf_congr (s := s) (by simp), writeOutput_reg, readBit_reg]
    exact hs.output_writeOutput (by simpa using hj)

/-- After the last copy step the payload stands at OUT_BASE. -/
theorem regionBytes_output (hk : s.h.k + 1 = 8 * s.h.idx) :
    regionBytes (writeOutput (readBit s)).mem { base := s.reg.outBase, len := s.h.idx } =
      (scanBytesOf px s).take s.h.idx := by
  have hcopied (j : Nat) (hj : j < s.h.idx) := hs.output_writeOutput (j := j) (by omega)
  generalize (writeOutput (readBit s)).mem = m at hcopied
  have hregion := length_regionBytes m { base := s.reg.outBase, len := s.h.idx }
  have hle : s.h.idx ≤ (scanBytesOf px s).length := by
    rw [← length_take_of_first hs.first]
    exact List.length_take_le' _ _
  have htake := take_eq_of_getD (d := scanBytesOf px s) (hregion.trans_le hle) fun j hj => by
    rw [hregion] at hj
    rw [getD_regionBytes m hj, hcopied j hj]
  rw [← htake, hregion]

/-- The last copy step: the whole payload stands at OUT_BASE (R203). -/
theorem ends (hk : s.h.k + 1 = 8 * s.h.idx) :
    ExtractDone (payloadOf px s) (complete .none (setOutLen s.h.idx (writeOutput (readBit s)))) := by
  have hlen := length_take_of_first hs.first
  rw [payloadOf_of_first hs.first]
  exact
    { idle := rfl
      done := rfl
      err := rfl
      outLen := hs.inv.counter.toNat_idx.trans hlen.symm
      output := by
        rintro d ⟨⟩
        simpa [hlen] using hs.regionBytes_output hk }

end CopyProgress

/-! ## The codec's steps -/

/-- The codec steps that EXTRACT still takes, run alone: the rest of the scan and the whole copy, or the rest of the
copy (R123). -/
def extractStepsLeft (px : List Byte) (s : State) : Nat :=
  match s.h.phase with
  | .extScan => s.h.scanBits - s.h.k + 8 * ((payloadOf px s).getD []).length
  | .extCopy => 8 * s.h.idx - s.h.k
  | _ => 0

theorem extractStepsLeft_of_extScan (hp : s.h.phase = .extScan) :
    extractStepsLeft px s = s.h.scanBits - s.h.k + 8 * ((payloadOf px s).getD []).length := by
  simp only [extractStepsLeft, hp]

theorem extractStepsLeft_of_extCopy (hp : s.h.phase = .extCopy) : extractStepsLeft px s = 8 * s.h.idx - s.h.k := by
  simp only [extractStepsLeft, hp]

theorem length_payloadOf_of_first {i : Nat} (hf : firstMarker s.cfg.marker (scanBytesOf px s) = some i) :
    ((payloadOf px s).getD []).length = i := by
  rw [payloadOf_of_first hf, Option.getD_some, length_take_of_first hf]

theorem length_payloadOf_of_none (hf : firstMarker s.cfg.marker (scanBytesOf px s) = none) :
    ((payloadOf px s).getD []).length = 0 := by
  rw [payloadOf_of_none hf]
  rfl

/-- What a codec step makes of a running EXTRACT: one step nearer to its end with the registers as they were, or its
end with no register changed but OUT_LEN, ERR and DONE. -/
inductive ExtractCase (px : List Byte) (s t : State) : Prop
  | goesOn (hp : ScanProgress px t ∨ CopyProgress px t) (hr : t.reg = s.reg)
      (hn : extractStepsLeft px s = extractStepsLeft px t + 1)
  | ends (hd : ExtractDone (payloadOf px s) t)
      (hr : t.reg = { s.reg with outLen := t.reg.outLen, err := t.reg.err, done := true })
      (hn : extractStepsLeft px s = 1)

theorem ScanProgress.codecMove (hs : ScanProgress px s) (hm : CodecMove s t) : ExtractCase px s t := by
  have hi : Inv t := inv_codecMove hs.inv hm
  have hlt := hs.inv.phase.extScan hs.phase
  have hleft := extractStepsLeft_of_extScan (px := px) hs.phase
  cases hm with
  | extScan hp ha t he =>
    have hcounter : (completeByte (readBit s)).h.k = s.h.k + 1 := completeByte_k (readBit s)
    have hscan : (completeByte (readBit s)).h.scanBits = s.h.scanBits := completeByte_scanBits (readBit s)
    cases he with
    | goesOn hk =>
      refine .goesOn (.inl (hs.goesOn hi)) (by simp) ?_
      have hleft' := extractStepsLeft_of_extScan (px := px) (s := completeByte (readBit s)) (by simpa using hp)
      rw [payloadOf_congr (s := s) (by simp) (by simp)] at hleft'
      omega
    | absent hk hf =>
      refine .ends (hs.absent (by omega) hf) (by simp) ?_
      have hlen := length_payloadOf_of_none (hs.first_of_absent (by omega) hf)
      omega
    | empty hk hf hidx =>
      refine .ends (hs.empty hf hidx) (by simp) ?_
      have hlen := length_payloadOf_of_first (hs.first_of_found hf)
      omega
    | copies hk hf =>
      refine .goesOn (.inr (hs.copies hf hi)) (by simp) ?_
      have hlen := length_payloadOf_of_first (hs.first_of_found hf)
      have hleft' : extractStepsLeft px (startCopy (completeByte (readBit s))) =
          8 * (completeByte (readBit s)).h.idx - 0 := extractStepsLeft_of_extCopy rfl
      omega
  | idle hp | illegal hp | nop hp | cap hp | embedTooLarge hp | embedStart hp | extractEmpty hp | extractStart hp
  | embRun hp | extCopy hp => simp [hs.phase] at hp

theorem CopyProgress.codecMove (hs : CopyProgress px s) (hm : CodecMove s t) : ExtractCase px s t := by
  have hi : Inv t := inv_codecMove hs.inv hm
  have hlt := hs.inv.phase.extCopy hs.phase
  have hleft := extractStepsLeft_of_extCopy (px := px) hs.phase
  cases hm with
  | extCopy hp ha =>
    have hcounter : (writeOutput (readBit s)).h.k = s.h.k + 1 := by simp
    have hidx : (writeOutput (readBit s)).h.idx = s.h.idx := by simp
    have hend := endCopy_cases (writeOutput (readBit s))
    generalize endCopy (writeOutput (readBit s)) = t at hend hi
    cases hend with
    | goesOn hk =>
      refine .goesOn (.inr (hs.goesOn hi)) (by simp) ?_
      have hleft' := extractStepsLeft_of_extCopy (px := px) (s := writeOutput (readBit s)) (by simpa using hp)
      omega
    | done hk =>
      rw [hidx]
      exact .ends (hs.ends (by omega)) (by simp) (by omega)
  | idle hp | illegal hp | nop hp | cap hp | embedTooLarge hp | embedStart hp | extractEmpty hp | extractStart hp
  | embRun hp | extScan hp => simp [hs.phase] at hp

/-! ## Everybody else's steps -/

/-- A state in which SLC is as it was, and so are the bytes of the running EXTRACT's regions: what the steps of host and
other agents leave (R81). -/
structure ExtractUndisturbed (s t : State) : Prop where
  inv : Inv t
  cfg : t.cfg = s.cfg
  reg : t.reg = s.reg
  h : t.h = s.h
  pixels : regionBytes t.mem (pixRegion s.reg) = regionBytes s.mem (pixRegion s.reg)
  output : ∀ a, (outRegion s.reg).contains a = true → memRead t.mem a = memRead s.mem a

section
variable (hu : ExtractUndisturbed s t)
include hu

theorem ScanProgress.undisturbed (hs : ScanProgress px s) : ScanProgress px t := by
  obtain ⟨hi, hc, hr, hh, hpix, -⟩ := hu
  have hbytes := scanBytesOf_congr (congrArg operandsOf hr) px
  have hwindow : windowBytes t = windowBytes s := by rw [windowBytes, windowBytes, hh]
  exact
    { inv := hi
      phase := by rw [hh, hs.phase]
      pixels := by rw [hr, hpix, hs.pixels]
      shift := shiftHolds_congr (congrArg operandsOf hr) (by rw [hh]) (by rw [hh]) hs.shift
      found := by rw [hh, hc, hbytes]; exact hs.found
      notFound := by rw [hh, hc, hbytes]; exact hs.notFound
      window := by rw [hh, hwindow, hbytes]; exact hs.window }

theorem CopyProgress.undisturbed (hs : CopyProgress px s) : CopyProgress px t := by
  obtain ⟨hi, hc, hr, hh, hpix, hout⟩ := hu
  have hbytes := scanBytesOf_congr (congrArg operandsOf hr) px
  exact
    { inv := hi
      phase := by rw [hh, hs.phase]
      pixels := by rw [hr, hpix, hs.pixels]
      shift := shiftHolds_congr (congrArg operandsOf hr) (by rw [hh]) (by rw [hh]) hs.shift
      first := by rw [hh, hc, hbytes, hs.first]
      output := fun j hj => by
        rw [hh] at hj
        rw [hr, hbytes, hout _ (hs.output_owned hj), hs.output j hj] }

end

theorem extractUndisturbed_withInputs (ins : List Input) (hi : Inv s) :
    ExtractUndisturbed s { s with inputs := ins } :=
  ⟨inv_withInputs ins hi, rfl, rfl, rfl, rfl, fun _ _ => rfl⟩

/-- Host and other agents cannot disturb a running EXTRACT, whose regions it owns (R74, R81). -/
theorem extractUndisturbed_of_outside {i : Input} {rest : List Input} (hi : Inv s)
    (hd : decode s.h.op = .instr .extract) (hp : s.h.phase ≠ .idle) (hreset : noReset s) (h : step s = .next t)
    (hpend : pending s = i :: rest) (hm : OutsideMove { s with inputs := rest } i t) : ExtractUndisturbed s t := by
  have hcodec : i ≠ .codec := by rintro rfl; cases hm
  have hnoreset : i ≠ .reset := by rintro rfl; exact hreset rest hpend
  obtain ⟨hr, hh, hmem⟩ := agentsCannotDisturbARunningCommand s t i rest hi hp hpend hcodec hnoreset h
  rw [decode_eq_instr.1 hd, wordRegions_encode] at hmem
  exact
    { inv := invariantKeptByEveryStep s t hi h
      cfg := (step_frame h).1
      reg := hr
      h := hh
      pixels := regionBytes_congr (hmem { region := pixRegion s.reg, written := false } (by simp [commandRegions]))
      output := hmem { region := outRegion s.reg, written := true } (by simp [commandRegions]) }

/-! ## Every schedule -/

/-- The end of a command reads the same in the state that it leaves. -/
theorem ExtractCase.outcome (hcase : ExtractCase px s t) (hm : CodecMove s t) :
    (ScanProgress px t ∨ CopyProgress px t) ∨ ExtractDone (payloadOf px t) t := by
  rw [payloadOf_congr hm.operands hm.frame.1]
  cases hcase with
  | goesOn hp => exact .inl hp
  | ends hd => exact .inr hd

/-- While EXTRACT runs, a step short of reset is the codec's, or disturbs nothing. -/
theorem extract_step_cases (hi : Inv s) (hd : decode s.h.op = .instr .extract) (hp : s.h.phase ≠ .idle)
    (hreset : noReset s) (h : step s = .next t) :
    (∃ ins, CodecMove { s with inputs := ins } t) ∨ ExtractUndisturbed s t := by
  rcases step_next h with ⟨-, hm⟩ | ⟨rest, -, hm⟩ | ⟨i, rest, hpend, hm⟩
  · exact .inl ⟨s.inputs, hm⟩
  · exact .inl ⟨rest, hm⟩
  · exact .inr (extractUndisturbed_of_outside hi hd hp hreset h hpend hm)

/-- Settles O30: the codec's step is a bit of the scan or of the copy, and nobody else can disturb the command. -/
theorem extractProgressUnderEverySchedule : Obligations.ExtractProgressUnderEverySchedule := by
  refine fun px s t hreset h => ⟨fun hs => ?_, fun hs => ?_⟩
  · obtain ⟨hd, -⟩ := hs.inv.command.extScan hs.phase
    rcases extract_step_cases hs.inv hd (by simp [hs.phase]) hreset h with ⟨ins, hm⟩ | hu
    · have hs' := hs.undisturbed (extractUndisturbed_withInputs ins hs.inv)
      exact or_assoc.1 ((hs'.codecMove hm).outcome hm)
    · exact .inl (hs.undisturbed hu)
  · obtain ⟨hd, -⟩ := hs.inv.command.extCopy hs.phase
    rcases extract_step_cases hs.inv hd (by simp [hs.phase]) hreset h with ⟨ins, hm⟩ | hu
    · have hs' := hs.undisturbed (extractUndisturbed_withInputs ins hs.inv)
      have hno : ¬ScanProgress px t := fun hscan => by
        have hbefore := (codecMove_phase_before (by simp [hs.phase]) hm).2 hscan.phase
        simp [hs.phase] at hbefore
      exact ((hs'.codecMove hm).outcome hm).imp_left fun hp => hp.resolve_left hno
    · exact .inl (hs.undisturbed hu)

end Sys2Proof
end

-- EXTRACT from its DISPATCH step to its end
section
/-! The whole command run alone: the steps of scan and copy one after another, each of them with its access admitted and
its output fit, from the DISPATCH step to the step that completes the command. -/

namespace Sys2Proof

open Machine

variable {s t : State} {px : List Byte}

/-! ## What EXTRACT's run leaves of memory -/

/-- `t` has the memory of `s` but for the bytes of the payload `r` at OUT_BASE, and the same memory where there is no
payload (R206). -/
structure KeepsMemory (r : Option (List Byte)) (s t : State) : Prop where
  noPayload : r = none → t.mem = s.mem
  outside : ∀ a, (writtenRegion s.reg (r.getD []).length).contains a = false → memRead t.mem a = memRead s.mem a

theorem keepsMemory_of_mem_eq {r : Option (List Byte)} (h : t.mem = s.mem) : KeepsMemory r s t :=
  ⟨fun _ => h, fun _ _ => by rw [h]⟩

theorem KeepsMemory.trans {r : Option (List Byte)} {u : State} (hst : KeepsMemory r s t)
    (ho : t.reg.outBase = s.reg.outBase) (htu : KeepsMemory r t u) : KeepsMemory r s u where
  noPayload hr := (htu.noPayload hr).trans (hst.noPayload hr)
  outside a ha := by
    rw [← hst.outside a ha]
    exact htu.outside a (by rwa [writtenRegion, ho])

/-- An address of a range is at an offset below its length. -/
theorem exists_offset_of_contains {q : Region} {a : Word} (ha : q.contains a = true) :
    ∃ j, j < q.len ∧ a = q.base + BitVec.ofNat 32 j := by
  refine ⟨(a - q.base).toNat, (Region.contains_iff q a).1 ha, ?_⟩
  rw [BitVec.ofNat_toNat, BitVec.setWidth_eq, BitVec.add_comm, BitVec.sub_add_cancel]

/-! ## The steps of the run -/

/-- The premises are about the parameters and the operand registers. -/
theorem ExtractPremises.congr {n : Nat} (hs : ExtractPremises n s) (hc : t.cfg = s.cfg)
    (hr : operandsOf t.reg = operandsOf s.reg) : ExtractPremises n t := by
  obtain ⟨hpix, -, -, hwritten⟩ := regions_congr hr
  exact
    { regions := by rw [hc, extractProblem_congr hr, hs.regions]
      written := by rw [hc, outputProblem_congr hr, hs.written]
      pixels := by rw [hc, hpix]; exact hs.pixels
      output := by rw [hc, hwritten]; exact hs.output }

theorem admits_of_kind {cfg : Config} {acc : Access} {kind : AccessKind} (hk : acc.kind = kind)
    (h : admits cfg { kind := kind, addr := acc.addr } = true) : admits cfg acc = true := by
  subst hk
  exact h

/-- The end of a scan step is answered where the output, if MARKER was found, fits. -/
theorem endScan_of_written (hw : s.h.found = true → outputProblem s.cfg s.reg s.h.idx = none) :
    ∃ t, endScan s = .next t := by
  have hno (r : Refusal) : endScan s ≠ .refused r := fun hr => by
    obtain ⟨-, hf, -, hp⟩ := endScan_refused hr
    simp [hw hf] at hp
  rcases endScan_outcome s with hnext | ⟨-, hr | hr⟩
  · exact hnext
  · exact absurd hr (hno _)
  · exact absurd hr (hno _)

/-- What one step of EXTRACT's run alone is. -/
structure ExtractStep (px : List Byte) (s t : State) : Prop where
  next : step s = .next t
  move : CodecMove s t
  outcome : ExtractCase px s t
  memory : KeepsMemory (payloadOf px s) s t

/-- The scan's step happens: its access is admitted, and the output fits when the payload's length is known. -/
theorem ScanProgress.step_alone (hs : ScanProgress px s)
    (hpre : ExtractPremises ((payloadOf px s).getD []).length s) (halone : pending s = []) :
    ∃ t, ExtractStep px s t := by
  have hadmit : accessesAdmitted s := fun acc hacc => by
    obtain ⟨-, hin, -⟩ := (accessesStayInTheCommandsRegions s hs.inv).2 acc hacc
    obtain ⟨hread, hpix⟩ := hin hs.phase
    exact admits_of_kind hread (hpre.pixels acc.addr hpix)
  have hstep := step_of_extScan hs.phase halone hadmit
  obtain ⟨t, hend⟩ := endScan_of_written (s := completeByte (readBit s)) fun hf => by
    rw [← length_payloadOf_of_first (hs.first_of_found hf), completeByte_cfg, completeByte_reg]
    exact hpre.written
  have hm : CodecMove s t := codecStep_next ((step_of_no_inputs halone).symm.trans (hstep.trans hend))
  exact ⟨t, hstep.trans hend, hm, hs.codecMove hm, keepsMemory_of_mem_eq (by simp [(endScan_next hend).frame])⟩

/-- The copy's step happens. -/
theorem CopyProgress.step_alone (hs : CopyProgress px s)
    (hpre : ExtractPremises ((payloadOf px s).getD []).length s) (halone : pending s = []) :
    ∃ t, ExtractStep px s t := by
  have hlen := length_payloadOf_of_first hs.first
  have haccess (acc : Access) (hacc : acc ∈ codecAccesses s) :=
    ((accessesStayInTheCommandsRegions s hs.inv).2 acc hacc).2.2 hs.phase
  have hadmit : accessesAdmitted s := fun acc hacc => by
    rcases haccess acc hacc with ⟨hread, hpix⟩ | ⟨hwrite, hout, -⟩
    · exact admits_of_kind hread (hpre.pixels acc.addr hpix)
    · exact admits_of_kind hwrite (hpre.output acc.addr (by rwa [hlen]))
  have hstep := step_of_extCopy hs.phase halone hadmit
  have hm : CodecMove s _ := codecStep_next ((step_of_no_inputs halone).symm.trans hstep)
  refine ⟨_, hstep, hm, hs.codecMove hm, fun hnone => ?_, fun a ha => by_contra fun hne => ?_⟩
  · simp [payloadOf_of_first hs.first] at hnone
  · rcases haccess _ (write_access_of_memRead_ne hm.cases hne) with ⟨hread, -⟩ | ⟨-, hout, -⟩
    · cases hread
    · simp [hlen, hout] at ha

/-! ## The run -/

/-- How a run of EXTRACT from `s` has ended in `t`: with the payload `r`, no register changed but OUT_LEN, ERR and DONE,
and no memory but the payload's. -/
structure ExtractEnded (r : Option (List Byte)) (s t : State) : Prop where
  done : ExtractDone r t
  reg : t.reg = { s.reg with outLen := t.reg.outLen, err := t.reg.err, done := true }
  memory : KeepsMemory r s t

/-- From `s` the machine is busy for `n` steps, and then has ended as `P` says. -/
def EndsAt (n : Nat) (s : State) (P : State → Prop) : Prop :=
  (∀ m, m < n → ∃ u, stepN m s = .next u ∧ u.h.phase ≠ .idle) ∧ ∃ t, stepN n s = .next t ∧ P t

theorem endsAt_one {P : State → Prop} (hp : s.h.phase ≠ .idle) (h : step s = .next t) (ht : P t) : EndsAt 1 s P := by
  refine ⟨fun m hm => ?_, t, stepN_succ 0 s t h, ht⟩
  obtain rfl : m = 0 := by omega
  exact ⟨s, rfl, hp⟩

theorem EndsAt.succ {n : Nat} {P Q : State → Prop} (hp : s.h.phase ≠ .idle) (h : step s = .next t)
    (ht : EndsAt n t P) (hpq : ∀ u, P u → Q u) : EndsAt (n + 1) s Q := by
  obtain ⟨hbefore, u, hrun, hu⟩ := ht
  refine ⟨fun m hm => ?_, u, (stepN_succ n s t h).trans hrun, hpq u hu⟩
  cases m with
  | zero => exact ⟨s, rfl, hp⟩
  | succ m =>
    rw [stepN_succ m s t h]
    exact hbefore m (by omega)

/-- Run alone, EXTRACT ends after the steps that it has left, and not before: by induction on those. -/
theorem extract_run {n : Nat} (hs : ScanProgress px s ∨ CopyProgress px s)
    (hpre : ExtractPremises ((payloadOf px s).getD []).length s) (halone : pending s = [])
    (hn : extractStepsLeft px s = n) : EndsAt n s (ExtractEnded (payloadOf px s) s) := by
  induction n generalizing s with
  | zero =>
    obtain ⟨t, -, -, hcase, -⟩ := hs.elim (·.step_alone hpre halone) (·.step_alone hpre halone)
    cases hcase <;> omega
  | succ n ih =>
    have hbusy : s.h.phase ≠ .idle := by
      rcases hs with hs | hs <;> simp [hs.phase]
    obtain ⟨t, hstep, hm, hcase, hmem⟩ := hs.elim (·.step_alone hpre halone) (·.step_alone hpre halone)
    obtain ⟨hcfg, hinputs, hcycle, -⟩ := hm.frame
    have hpayload := payloadOf_congr hm.operands hcfg px
    cases hcase with
    | goesOn hp hr hleft =>
      have hrest := ih hp (by rw [hpayload]; exact hpre.congr hcfg hm.operands)
        ((pending_congr hinputs hcycle).trans halone) (by omega)
      rw [hpayload] at hrest
      refine hrest.succ hbusy hstep fun u ⟨hdone, hreg, hmem'⟩ => ⟨hdone, hr ▸ hreg, ?_⟩
      exact hmem.trans (by rw [hr]) hmem'
    | ends hd hr hleft =>
      obtain rfl : n = 0 := by omega
      exact endsAt_one hbusy hstep ⟨hd, hr, hmem⟩

/-- The start of the scan: nothing is decoded yet (R193). -/
theorem scanProgress_start (hi : Inv (startScan s)) :
    ScanProgress (regionBytes s.mem (pixRegion s.reg)) (startScan s) where
  inv := hi
  phase := rfl
  pixels := rfl
  shift := fun m hm => absurd hm (Nat.not_lt_zero m)
  found := by simp
  notFound := by simp
  window := fun _ => rfl

/-- EXTRACT from its DISPATCH step to its end (R193, R199 to R203): an empty image ends at once, another is scanned. -/
theorem extract_run_from_dispatch {n : Nat} (hi : Inv s) (hd : Dispatching .extract s)
    (hx : px = regionBytes s.mem (pixRegion s.reg)) (hpre : ExtractPremises ((payloadOf px s).getD []).length s)
    (hn : n = 1 + imageCapBits s + 8 * ((payloadOf px s).getD []).length) :
    EndsAt n s fun t => ExtractEnded (payloadOf px s) (latchCap s) t := by
  subst hx
  have hbusy : s.h.phase ≠ .idle := by simp [hd.phase]
  by_cases hc : imageCapBits s = 0
  · have hstep := hd.step_eq.trans (exec_extract_of_empty hc)
    have hnone : payloadOf (regionBytes s.mem (pixRegion s.reg)) s = none :=
      extractF_of_short (show imageCapBits s < 40 by omega)
    rw [hnone] at hn ⊢
    obtain rfl : n = 1 := by simpa [hc] using hn
    exact endsAt_one hbusy hstep
      ⟨⟨rfl, rfl, rfl, rfl, by simp⟩, rfl, keepsMemory_of_mem_eq (by simp)⟩
  · have hstep := hd.step_eq.trans (exec_extract_of_pixels hc hpre.regions)
    have hstart := scanProgress_start (invariantKeptByEveryStep _ _ hi hstep)
    have hrun := extract_run (.inl hstart) (hpre.congr rfl rfl) hd.alone rfl
    have hleft : extractStepsLeft (regionBytes s.mem (pixRegion s.reg)) (startScan s) =
        imageCapBits s + 8 * ((payloadOf (regionBytes s.mem (pixRegion s.reg)) s).getD []).length :=
      extractStepsLeft_of_extScan rfl
    obtain rfl : n = extractStepsLeft (regionBytes s.mem (pixRegion s.reg)) (startScan s) + 1 := by omega
    exact hrun.succ hbusy hstep fun u ⟨hdone, hreg, hmem⟩ =>
      ⟨hdone, by rw [hreg]; rfl, (keepsMemory_of_mem_eq (s := latchCap s) (t := startScan s) rfl).trans rfl hmem⟩

/-- STATUS of a command that has completed, by the flags that it left (R30). -/
theorem statusWord_of_completed (hd : t.reg.done = true) (hp : t.h.phase = .idle) :
    (statusWord t).toNat = 256 * t.reg.lastOp.toNat + 16 * (errBits t.reg.err).toNat + 2 := by
  rw [statusWord_toNat, hd, busy_eq_false.2 hp]
  rfl

/-- STATUS of an EXTRACT that has ended (R125). -/
theorem ExtractDone.statusWord_eq {r : Option (List Byte)} (hdone : ExtractDone r t)
    (hl : t.reg.lastOp = opcode .extract) : statusWord t = if r = none then 0x00000322 else 0x00000302 := by
  refine BitVec.eq_of_toNat_eq ?_
  rw [statusWord_of_completed hdone.done hdone.idle, hl, hdone.err]
  cases r <;> rfl

/-- Settles O29: the DISPATCH step, and for a nonempty image the run after it. -/
theorem extractComputesExtractF : Obligations.ExtractComputesExtractF := by
  rintro s r hi hd rfl hpre n hn
  obtain ⟨hbefore, t, hrun, hdone, hreg, hmem⟩ := extract_run_from_dispatch hi hd rfl hpre hn
  refine ⟨hbefore, t, hrun, hdone, hdone.statusWord_eq ?_, by rw [hreg]; rfl,
    capacityLatched_of_capacityOf_eq (by rw [hreg]; rfl), hmem.noPayload, fun a ha => hmem.outside a ?_⟩
  · rw [hreg]
    exact hd.lastOp_eq hi
  · refine Bool.eq_false_iff.2 fun hin => ?_
    obtain ⟨j, hj, hja⟩ := exists_offset_of_contains hin
    exact ha j hj hja

/-- Settles O31: the buffer's payload by `extractF_embedF`, and EXTRACT's run by O29. -/
theorem roundTripReturnsThePayload : Obligations.RoundTripReturnsThePayload := by
  intro px p s hi hd hpre he hbefore
  have hlen : px.length = 4 * (s.reg.width.toNat * s.reg.height.toNat) := by
    have hmap := congrArg List.length (embedF_eq_some he).2
    rw [length_regionBytes, List.length_mapIdx] at hmap
    exact hmap.symm
  have hpayload := extractF_embedF hlen he le_rfl (markerAt_length_append _ p) hbefore
  rw [List.take_length] at hpayload
  obtain ⟨-, t, hrun, hdone, -⟩ := extractComputesExtractF s (some p) hi hd hpayload.symm hpre _ rfl
  exact ⟨_, t, hrun, hdone⟩

end Sys2Proof
end

-- Leaving IDLE
section
/-! R248's IDLE: the machine by itself stays in it, and of what comes from outside only a write to CMD ends it. -/

namespace Sys2Proof

open Machine

variable {s t : State}

/-- A codec step from IDLE is none (R116). -/
theorem eq_of_codecMove_of_idle (hi : s.h.phase = .idle) (hm : CodecMove s t) : t = s :=
  hm.cases.status.resolve_right fun ⟨hp, _⟩ => hp hi

/-- A step out of IDLE takes a write to CMD. -/
theorem command_of_leaves_idle (hi : s.h.phase = .idle) (h : step s = .next t) (ht : t.h.phase ≠ .idle) :
    ∃ v rest, pending s = .regWrite 0x04 4 v :: rest := by
  cases step_cases h with
  | codec hc ins t hm =>
    rw [eq_of_codecMove_of_idle (s := { s with inputs := ins }) hi hm] at ht
    exact absurd hi ht
  | reset rest hp => exact absurd rfl ht
  | quiet t hr hh => exact absurd (hh ▸ hi) ht
  | write r v rest _ hp =>
    by_cases hcmd : r = .cmd
    · subst hcmd
      exact ⟨v, rest, hp⟩
    · rw [(writeIdleReg_of_ne_cmd hcmd v _).1] at ht
      exact absurd hi ht

/-- Settles O9, by who moves: only a write to CMD leaves IDLE, and that write is accepted. -/
theorem onlyACommandLeavesIdle : Obligations.OnlyACommandLeavesIdle := by
  refine ⟨fun s hi hp => (step_of_no_inputs hp).trans (codecStep_of_idle hi), fun s t hi h ht => ?_⟩
  obtain ⟨v, rest, hp⟩ := command_of_leaves_idle hi h ht
  rw [step_of_command hi hp] at h
  cases h
  exact ⟨v, rest, hp, rfl, rfl⟩

end Sys2Proof
end

-- A host that polls for ever
section
/-! R274's unfair order: the host polls STATUS and the codec never steps.  Every poll leaves the machine as the first
one did, so the run has a closed form. -/

namespace Sys2Proof

open Machine

variable {s : State}

/-- A poll of a running command changes what was last read and nothing else (R78, R111). -/
theorem step_of_busy_poll (hbusy : s.h.phase ≠ .idle) (hins : s.inputs = [])
    (hcycle : s.cycle = [.regRead 0x08 4]) : step s = .next { s with rdData := some (statusWord s) } := by
  have hself : { s with inputs := [] } = s := by rw [← hins]
  rw [step_of_statusRead ((pending_of_exhausted hins).trans hcycle), hself, readReg,
    observe_of_busy (busy_eq_true.2 hbusy), regValue]

/-- STATUS reads the same after each poll, so all polls after the first repeat it. -/
theorem stepN_of_busy_polls (n : Nat) (hbusy : s.h.phase ≠ .idle) (hins : s.inputs = [])
    (hcycle : s.cycle = [.regRead 0x08 4]) :
    stepN (n + 1) s = .next { s with rdData := some (statusWord s) } := by
  induction n generalizing s with
  | zero => rw [stepN_succ _ _ _ (step_of_busy_poll hbusy hins hcycle), stepN_zero]
  | succ n ih =>
    rw [stepN_succ _ _ _ (step_of_busy_poll hbusy hins hcycle)]
    exact ih (s := { s with rdData := some (statusWord s) }) hbusy hins hcycle

/-- Settles O60: before the first poll the state is `s` itself, and after any poll what was last read is STATUS, whose
bit 0 is BUSY. -/
theorem hostMayPollForever : Obligations.HostMayPollForever := by
  intro s hbusy hins hcycle n
  have hpoll : pending s = [.regRead 0x08 4] := (pending_of_exhausted hins).trans hcycle
  cases n with
  | zero => exact ⟨s, stepN_zero s, rfl, hpoll, fun h => absurd h (Nat.lt_irrefl 0)⟩
  | succ n =>
    have hbit : (statusWord s).getLsbD 0 = true := (statusWord_bit_zero s).trans (busy_eq_true.2 hbusy)
    exact ⟨_, stepN_of_busy_polls n hbusy hins hcycle, rfl, hpoll, fun _ => ⟨_, rfl, hbit⟩⟩

end Sys2Proof
end
